-- ==== Sys2Proof/Word.lean ====
section
/-! DEFINITION. The number types of the CL48 model (bytes, 32-bit counts that wrap, line and entry numbers) and
the fixed-length tables that hold one item for each line, entry, channel or pattern slot. -/

namespace Sys2Proof

/-- One byte of the shared region or of a console's text. -/
abbrev Byte := BitVec 8

/-- A 32-bit count that wraps: record numbers, block sequences, notice and input positions (00_scope, 1.4). -/
abbrev Word32 := BitVec 32

/-- A line of the part. Index `k` is the line the manual numbers `k + 1`. -/
abbrev LineIx := Fin 48

/-- An entry of the line table: 0 is the control entry, `k` is line `k` (R175). -/
abbrev EntryIx := Fin 49

/-- The manual's number of a line, 1 to 48. -/
def lineNo (k : LineIx) : Nat := k.val + 1

/-- The line table entry of a line (R175). -/
def entryOf (k : LineIx) : EntryIx := ⟨k.val + 1, by omega⟩

/-- The line with the manual's number `n`, for `n` from 1 to 48 (other numbers wrap around). -/
def line (n : Nat) : LineIx := ⟨(n + 47) % 48, Nat.mod_lt _ (by decide)⟩

/-- The table whose item at each index is given by `f`. -/
def tab {α : Type} {n : Nat} (f : Fin n → α) : Vector α n :=
  ⟨⟨(List.finRange n).map f⟩, by simp⟩

/-- The table with the item at `k` replaced by what `f` makes of it. -/
def upd {α : Type} {n : Nat} (v : Vector α n) (k : Fin n) (f : α → α) : Vector α n :=
  v.set k.val (f v[k])

/-- A count that stops at FFFFFFFFh: `a` raised by `n` (00_scope, 1.4). -/
def satAdd (a n : Nat) : Nat := min (a + n) 0xFFFFFFFF

end Sys2Proof
end

