-- ==== Sys2Proof/Syntax.lean ====
section
/-! DEFINITION. The commands of the part: one constructor for each row of spec/opcode_table.json. -/

namespace Sys2Proof

/-- What every command carries: the tick it falls on, counted from part reset, and the bytes the host wrote into
the 32 MiB window (25-bit addresses) since the command before it. The table has no row for a host write to the
window; log entry 2 says why it travels with the commands. -/
structure Event where
  tick : Nat
  writes : List (BitVec 25 × Byte)
deriving DecidableEq, Repr

/-- What a command that ends a look carries besides (R178): whether the request of the look comes before the count read with
it, an order that R178 leaves open (log entry 7). -/
structure LookEvent extends Event where
  requestFirst : Bool
deriving DecidableEq, Repr

/-- A data pin as the level detector and the receiver see it: its logic level (true is mark) and how many of the
three thresholds of R31 its voltage exceeds in magnitude. -/
structure DataPin where
  mark : Bool
  volts : Fin 4
deriving DecidableEq, Repr

/-- What is driven onto the six pins of one line from outside, none where no voltage is (R17). A signal pin is true when
it is asserted. -/
structure Pins where
  a : Option DataPin
  b : Option DataPin
  s1 : Option Bool
  s2 : Option Bool
  s3 : Option Bool
  s4 : Option Bool
deriving DecidableEq, Repr

/-- The steps of the part (opcode_table.json). `e` is the event of the step, `k` the line it concerns.
LOOK_END and the rows of the requests end the look in progress (R178, R179, log entry 7). `mark` of ENABLE, CONFIGURE and
LOOK_END is the level the receive data signal reads once new settings are in force (R18, R20). -/
inductive Instr where
  | partReset (e : Event)
  | hostLinkReset (e : Event)
  | start (e : Event) (keep : Bool)
  | halt (e : Event)
  | startingEnd (e : Event)
  | lineHalt (e : Event) (k : LineIx)
  | prompt (e : Event) (value : Word32)
  | attentionEnable (e : Event) (value : Word32)
  | timeLow (e : Event)
  | registerWriteIgnored (e : Event) (offset value : Word32)
  | lookBegin (e : Event)
  | lookEnd (e : LookEvent) (mark : Bool)
  | enable (e : LookEvent) (k : LineIx) (mark : Bool)
  | disable (e : LookEvent) (k : LineIx)
  | configure (e : LookEvent) (k : LineIx) (mark : Bool)
  | relock (e : LookEvent) (k : LineIx)
  | resetCounters (e : LookEvent) (k : LineIx)
  | clearCapture (e : LookEvent) (k : LineIx)
  | pinNow (e : LookEvent) (k : LineIx)
  | unpin (e : LookEvent) (k : LineIx)
  | setConsole (e : LookEvent) (k : LineIx)
  | holdInput (e : LookEvent) (k : LineIx)
  | openInput (e : LookEvent) (k : LineIx)
  | loadPatterns (e : LookEvent)
  | applySettings (e : LookEvent)
  | unknownRequest (e : LookEvent)
  | keysEntry (e : Event) (k : LineIx)
  | breakEntry (e : Event) (k : LineIx)
  | takeEntry (e : Event) (k : LineIx)
  | giveEntry (e : Event) (k : LineIx)
  | stealEntry (e : Event) (k : LineIx)
  | refusedEntry (e : Event) (k : LineIx)
  | handOff (e : Event) (k : LineIx)
  | characterSent (e : Event) (k : LineIx)
  | lineEndExpiry (e : Event) (k : LineIx)
  | stall (e : Event) (k : LineIx)
  | lapse (e : Event) (k : LineIx)
  | breakSent (e : Event) (k : LineIx)
  | recoveryEnd (e : Event) (k : LineIx)
  | probeDue (e : Event) (k : LineIx)
  | characterDelivered (e : Event) (k : LineIx)
  | recordGap (e : Event) (k : LineIx)
  | breakBegun (e : Event) (k : LineIx)
  | breakEnded (e : Event) (k : LineIx)
  | spaceHold (e : Event) (k : LineIx)
  | sample (e : Event) (pins : Vector Pins 48)
  | joinEvent (e : Event) (k : LineIx)
  | windowEvaluated (e : Event) (k : LineIx)
  | windowTimeout (e : Event) (k : LineIx)
  | dataTimer (e : Event) (k : LineIx)
  | receiveRisingEdge (e : Event) (k : LineIx)
  | confirmingSample (e : Event) (k : LineIx)
  | frameHeldBack (e : Event) (k : LineIx)
deriving DecidableEq, Repr

end Sys2Proof
end

