-- ==== Sys2Proof/WellFormed.lean ====
section
/-! DEFINITION. Which terms of `Instr` are commands of the part. Line numbers, window addresses and pin readings
are in range by their types; what is left to check is that an ignored register write is one R167 ignores. -/

namespace Sys2Proof

/-- A host write to the register space that R167 and R170 ignore: any offset but those of PROMPT (08h),
ATTENTION_ENABLE (0Ch) and ENGINE_COMMAND (04h), or ENGINE_COMMAND with code 0 or 3 in bits 1 and 0. -/
def ignoredWrite (offset value : Word32) : Bool :=
  offset != 0x08#32 && offset != 0x0C#32 &&
    (offset != 0x04#32 || value.toNat % 4 == 0 || value.toNat % 4 == 3)

/-- A well-formed command. -/
def WellFormed : Instr → Bool
  | .registerWriteIgnored _ offset value => ignoredWrite offset value
  | _ => true

end Sys2Proof
end

