-- ==== Sys2Proof/Decode.lean ====
section
/-! DEFINITION. How the part reads what the host writes: the command that a write of a register is (R167, R170, R177). The
part has no instruction encoding: no row of spec/opcode_table.json gives bits, so no word spells a command. -/

namespace Sys2Proof

/-- The command a word spells by the table's bits: none, since the table gives no row any bits. -/
def decodeTableWord (_nbits _w : Nat) : Option Instr := none

/-- The command that a write to ENGINE_COMMAND is: bits 1 and 0 hold 1 for START and 2 for HALT, bit 8 is KEEP, and a write
with 0 or 3 there is ignored; no other bit is read (R170). -/
def engineCommand (e : Event) (value : Word32) : Instr :=
  if value.toNat % 4 = 1 then .start e (value.getLsbD 8)
  else if value.toNat % 4 = 2 then .halt e
  else .registerWriteIgnored e 0x04#32 value

/-- The command that a host write to the register space is, by its offset and value (R167). -/
def hostWrite (e : Event) (offset value : Word32) : Instr :=
  if offset = 0x04#32 then engineCommand e value
  else if offset = 0x08#32 then .prompt e value
  else if offset = 0x0C#32 then .attentionEnable e value
  else .registerWriteIgnored e offset value

end Sys2Proof
end

