-- ==== Sys2Proof/Config.lean ====
section
/-! DEFINITION. What the manual leaves open, as free values without a body: no proof can see what they are. -/

namespace Sys2Proof.Config

/-- FREE VALUE (log entry 5). What the receiver of a line reads at a data or parity bit sample when an edge of the
receive input falls on the very tick of that sample (R4 gives the ticks and says nothing of this). -/
opaque sampleOnEdge (line : LineIx) (tick : Nat) : Bool

/-- FREE VALUE (log entry 6). The length byte of an INPUT_CUT notice for a BREAK entry, by the entry's position:
R165 lists a length and the entry has one for KEYS only (section 8.2). -/
opaque breakEntryLength (position : Word32) : Byte

/-- FREE VALUE (log entry 8). The detail of an answer for which no rule names a number: R41, R42, R45, R47 and R48 give
the code only, and R201 says that every other detail is the number its rule names. By the line and the tick. -/
opaque unnamedDetail (line : LineIx) (tick : Nat) : Word32

end Sys2Proof.Config
end

