-- ==== Sys2Proof/Machine/State.lean ====
section
/-! DEFINITION. The state of the part, block by block as the manual's chapters own it, its values after part reset,
and the reasons a step can stop. Every field is plain data. -/

namespace Sys2Proof.Machine

/-! ## Line Control (chapter 3) -/

/-- The five line states (R38). -/
inductive LineState where | off | dark | seeking | live | checking
deriving DecidableEq, Repr

/-- The cause of the RATE record that last set the period value (R39). -/
inductive LockCause where | none | fixed | locked | changed | configure
deriving DecidableEq, Repr

inductive RateMode where | fixed | autoSnap | autoTrim
deriving DecidableEq, Repr

inductive Parity where | none | even | odd
deriving DecidableEq, Repr

/-- The frame settings of R2: 8 data bits or 7, the parity, 2 stop bits or 1. -/
structure Frame where
  eight : Bool
  parity : Parity
  twoStop : Bool
deriving DecidableEq, Repr

/-- The role of a line's pins (R17). -/
inductive Role where | dte | dce
deriving DecidableEq, Repr

inductive Flow where | none | soft | hard
deriving DecidableEq, Repr

inductive PresenceSource where | level | ready | either | always
deriving DecidableEq, Repr

inductive BreakPolicy where | never | holder | any
deriving DecidableEq, Repr

inductive EdgeSelect where | none | rise | fall | both
deriving DecidableEq, Repr

/-- The settings in force of a line: the 31 rows of R43, resolved and clamped. -/
structure Settings where
  rateMode : RateMode
  fixedPeriod : Nat
  mask : BitVec 16
  tolerance : Nat
  deglitch : Nat
  frame : Frame
  role : Role
  flow : Flow
  source : PresenceSource
  threshold : Nat
  settle : Nat
  darkBreak : Nat
  gap : Nat
  errorLimit : Nat
  paceGap : Nat
  lineEnd : Nat
  echoWait : Bool
  stallLimit : Nat
  breakPolicy : BreakPolicy
  breakDuration : Nat
  grantTimeout : Nat
  bootHold : Bool
  probeInterval : Nat
  probeEntry : Fin 16
  dataInterval : Nat
  readyEdges : EdgeSelect
  clearEdges : EdgeSelect
  quotaMin : Nat
  quotaMax : Nat
deriving DecidableEq, Repr

/-- The defaults of R43. -/
def Settings.default : Settings where
  rateMode := .fixed
  fixedPeriod := 5000
  mask := 0xFFFF#16
  tolerance := 40
  deglitch := 24
  frame := { eight := true, parity := .none, twoStop := false }
  role := .dte
  flow := .none
  source := .always
  threshold := 2
  settle := 250
  darkBreak := 0
  gap := 3
  errorLimit := 8
  paceGap := 0
  lineEnd := 0
  echoWait := false
  stallLimit := 0
  breakPolicy := .holder
  breakDuration := 300
  grantTimeout := 0
  bootHold := false
  probeInterval := 0
  probeEntry := 5
  dataInterval := 0
  readyEdges := .none
  clearEdges := .none
  quotaMin := 2
  quotaMax := 16

/-- What Line Control holds for a line (R38, R39, R54 to R56). `history` holds the verdicts, oldest first, true
for BAD; `windowChars` and `windowErrors` are the current window. -/
structure Control where
  state : LineState
  settings : Settings
  period : Nat
  lockCause : LockCause
  remembered : Option Nat
  windowChars : Nat
  windowErrors : Nat
  history : List Bool
  noisy : Bool
deriving DecidableEq, Repr

/-- The part reset column of R61. -/
def Control.reset : Control where
  state := .off
  settings := Settings.default
  period := 5000
  lockCause := .none
  remembered := none
  windowChars := 0
  windowErrors := 0
  history := []
  noisy := false

/-- The eight counters of R58, each stopping at FFFFFFFFh. -/
structure Counters where
  bytesReceived : Nat
  recordsClosed : Nat
  framingErrors : Nat
  parityErrors : Nat
  breaksReceived : Nat
  bytesSent : Nat
  entriesRefused : Nat
  blocksReclaimed : Nat
deriving DecidableEq, Repr

def Counters.zero : Counters := ⟨0, 0, 0, 0, 0, 0, 0, 0⟩

/-! ## Line Front End (chapter 2) -/

/-- What a start edge fixes for the low or character it begins (R3): its tick, and the period and frame then in
force. -/
structure StartEdge where
  edge : Nat
  period : Nat
  frame : Frame
deriving DecidableEq, Repr

/-- The edges of the receive input since a start edge, newest first: the tick, and true when the input rose. -/
abbrev Wave := List (Nat × Bool)

/-- The receiver states of R20, with what each remembers of the wire. In BREAK, `rise` is the rising edge that
began the high stretch now running, if one runs (R6). -/
inductive Receiver where
  | stopped
  | waitHigh
  | idle
  | candidate (c : StartEdge) (wave : Wave)
  | frame (c : StartEdge) (wave : Wave)
  | holding (c : StartEdge) (wave : Wave)
  | inBreak (c : StartEdge) (rise : Option Nat)
deriving DecidableEq, Repr

/-- A character or probe on the wire: its byte, the tick of its start bit, and the period and frame it is sent at
(R25). -/
structure SentItem where
  probe : Bool
  byte : Byte
  start : Nat
  period : Nat
  frame : Frame
deriving DecidableEq, Repr

/-- The transmitter states of R25. SPACING holds the first tick of space and the duration in ms (R26); RECOVERY
the tick its mark ends. -/
inductive Transmitter where
  | idle
  | sending (item : SentItem)
  | spacing (start duration : Nat)
  | recovery (ends : Nat)
deriving DecidableEq, Repr

/-- The idle time a line has running (R7): the tick it is measured from and the character time it is judged by. -/
structure IdleTime where
  since : Nat
  charTime : Nat
deriving DecidableEq, Repr

/-- The four readings of a 1 ms sample (R31): level ACTIVE, receive data at mark, device-ready, clear-to-send. -/
structure Readings where
  active : Bool
  mark : Bool
  deviceReady : Bool
  clearToSend : Bool
deriving DecidableEq, Repr

/-- The front end of one line. `mark` is the level of the receive data signal between its edges; `probeHanded` is
set while a probe handed to the transmitter has not begun (R164). -/
structure FrontEnd where
  receiver : Receiver
  mark : Bool
  idle : Option IdleTime
  transmitter : Transmitter
  probeHanded : Bool
  flowPause : Bool
  view : Bool
  contrary : Nat
  latch : Bool
  highRun : Nat
  readings : Readings
deriving DecidableEq, Repr

/-- The part reset column of R37. The presence view and contrary count have no effect until ENABLE. -/
def FrontEnd.reset : FrontEnd where
  receiver := .stopped
  mark := true
  idle := none
  transmitter := .idle
  probeHanded := false
  flowPause := false
  view := false
  contrary := 0
  latch := false
  highRun := 0
  readings := ⟨false, true, false, false⟩

/-! ## Rate Finder (chapter 4) -/

/-- The result of an evaluated window (R14). -/
inductive WindowResult where
  | entry (n : Fin 16)
  | noCandidate
deriving DecidableEq, Repr

/-- A channel that serves a line (R62). `collecting` is false in AWAIT_EDGE; `since` is the tick it entered
AWAIT_EDGE; `previousMultiples` are the k of R13, empty when the previous result was no entry. -/
structure Channel where
  line : LineIx
  collecting : Bool
  evaluated : Nat
  previous : Option WindowResult
  previousWidths : List Nat
  previousMultiples : List Nat
  current : List Nat
  lowStart : Option Nat
  timer : Nat
  since : Nat
deriving DecidableEq, Repr

/-- The measurement phases of R63. -/
inductive Phase where | none | edgeWait | queued | measuring
deriving DecidableEq, Repr

/-- The Rate Finder: four channels (none is FREE), the wait list, oldest first, and each line's phase. `joined` is the tick
at which a line last joined the wait list, and `granted` the tick at which it was last given a channel: the model's own
fields, by which the lines that join at one tick are put in ascending number (R64) and the joins and releases of a tick come
before its grants (R67). -/
structure RateFinder where
  channels : Vector (Option Channel) 4
  wait : List LineIx
  phase : Vector Phase 48
  joined : Vector (Option Nat) 48
  granted : Vector (Option Nat) 48
deriving DecidableEq, Repr

def RateFinder.reset : RateFinder where
  channels := Vector.replicate 4 none
  wait := []
  phase := Vector.replicate 48 .none
  joined := Vector.replicate 48 none
  granted := Vector.replicate 48 none

/-! ## Capture Store and Pin Unit (chapters 5 and 6) -/

/-- A block of a chain and what the part has written into its header (R84). `filling` is false once it is FILLED. -/
structure Block where
  index : Nat
  sequence : Word32
  filling : Bool
  firstRecord : Word32
  records : Nat
  fill : Nat
  firstTime : Nat
  lastTime : Nat
deriving DecidableEq, Repr

/-- The open DATA record (R94). -/
structure OpenRecord where
  bytes : List Byte
  time : Nat
  errors : Nat
  firstError : Nat
deriving DecidableEq, Repr

/-- A pin record (R106). A pin is OPEN while `remaining` is above 0 and CLOSED when it is 0, as R106 says of the two
states. -/
structure Pin where
  id : Nat
  pattern : Nat
  first : Word32
  last : Word32
  remaining : Nat
  truncated : Bool
  time : Nat
deriving DecidableEq, Repr

/-- What the Capture Store and the Pin Unit hold for a line: the chain, oldest first, the open record, the next
numbers and the pin list, oldest first. -/
structure Capture where
  chain : List Block
  openRecord : Option OpenRecord
  nextRecord : Word32
  nextSequence : Word32
  pins : List Pin
  nextPinId : Nat
deriving DecidableEq, Repr

/-- The part reset columns of R105 and R120. -/
def Capture.reset : Capture where
  chain := []
  openRecord := none
  nextRecord := 1#32
  nextSequence := 1#32
  pins := []
  nextPinId := 1

/-- A take of a block: the line, and whether its chain was at the quota max, where R88 leaves no choice. -/
structure Take where
  line : LineIx
  atMax : Bool
deriving DecidableEq, Repr

/-- What a tick that is run again is known to take: its takes in the order they come, and what lines have chosen ahead of their
commands, oldest first, each a block of the free list or, as none, no block of it. -/
structure Plan where
  takes : List Take
  chosen : List (LineIx × Option Nat)
deriving DecidableEq, Repr

def Plan.none : Plan := ⟨[], []⟩

/-- The pool: its size N in blocks, the free list, head first, and each line's capture. The other two are the model's own
fields, by which the lines that take at one tick choose in ascending number (R88): `takes` holds the takes of the present tick,
oldest first, and `plan` what a tick that is run again is known to take. -/
structure Pool where
  blocks : Nat
  free : List Nat
  takes : List Take
  lines : Vector Capture 48
  plan : Plan := Plan.none
deriving DecidableEq, Repr

def Pool.reset : Pool where
  blocks := 0
  free := []
  takes := []
  lines := Vector.replicate 48 Capture.reset

/-! ## Match Engine (chapter 7) -/

/-- The console states of R137. -/
inductive Console where | unknown | booting | prompt | monitor | fault
deriving DecidableEq, Repr

/-- A slot of the pattern table in force (R121); unused when `length` is 0. -/
structure Pattern where
  length : Nat
  bytes : List Byte
  fold : Bool
  lineStart : Bool
  filter : BitVec 8
  actNotice : Bool
  actMark : Bool
  actPin : Bool
  actState : Bool
  actHold : Bool
  actOpen : Bool
  before : Nat
  after : Nat
  target : Console
  mask : BitVec 64
deriving DecidableEq, Repr

def Pattern.unused : Pattern :=
  ⟨0, [], false, false, 0, false, false, false, false, false, false, 0, 0, .unknown, 0⟩

/-- A line's pattern progress, line-start flag and console state (R126 to R128, R137). -/
structure MatchLine where
  progress : Vector Nat 32
  lineStart : Bool
  console : Console
deriving DecidableEq, Repr

def MatchLine.reset : MatchLine := ⟨Vector.replicate 32 0, true, .unknown⟩

structure MatchEngine where
  table : Vector Pattern 32
  loads : Nat
  lines : Vector MatchLine 48
deriving DecidableEq, Repr

def MatchEngine.reset : MatchEngine where
  table := Vector.replicate 32 Pattern.unused
  loads := 0
  lines := Vector.replicate 48 MatchLine.reset

/-! ## Input Path (chapter 8) -/

/-- The hold reasons of a line's input gate (R150). -/
structure Gate where
  notLive : Bool
  boot : Bool
  pattern : Bool
  host : Bool
deriving DecidableEq, Repr

/-- The phases of the entry in flight (R153). LINE_END holds the tick its wait runs out; the paused phases hold the
tick the pause time began. -/
inductive EntryPhase where
  | ready
  | sending
  | lineEnd (ends : Nat)
  | pausedGate (since : Nat)
  | pausedFlow (since : Nat)
  | breaking
deriving DecidableEq, Repr

/-- The entry in flight (R153). `taken` is the tick of taking; `duration` is a BREAK's resolved duration in ms. -/
structure InFlight where
  isBreak : Bool
  tag : Nat
  position : Word32
  taken : Nat
  keys : List Byte
  duration : Nat
  sent : Nat
  phase : EntryPhase
deriving DecidableEq, Repr

/-- What the Input Path holds for a line. `produce` is the produce count last read; the grant timer has counted
`grantElapsed` ticks and runs since `grantSince`; `silence` is the tick the silence timer last restarted at. -/
structure InputLine where
  produce : Word32
  consume : Word32
  holder : Nat
  grantElapsed : Nat
  grantSince : Option Nat
  gate : Gate
  entry : Option InFlight
  lastKeyEnd : Option Nat
  silence : Nat
  armed : Bool
deriving DecidableEq, Repr

/-- The part reset column of R166. -/
def InputLine.reset : InputLine where
  produce := 0
  consume := 0
  holder := 0
  grantElapsed := 0
  grantSince := none
  gate := ⟨true, false, false, false⟩
  entry := none
  lastKeyEnd := none
  silence := 0
  armed := true

/-! ## Notice Unit (chapter 10) -/

/-- A notice summary (R188); empty when `count` is 0. -/
structure Summary where
  kinds : Word32
  count : Nat
  firstTime : Nat
deriving DecidableEq, Repr

/-- An empty summary. R188 gives its kind set and first folded time no meaning; the model holds both at 0, after a delivery and
after START as at part reset, and D8h and E0h of the line status show those zeros (DESIGN CHOICE, log entry 42). -/
def Summary.empty : Summary := ⟨0, 0, 0⟩

/-- A DATA timer (R190): the last DATA tick, the pending flag, the records count. -/
structure DataTimer where
  last : Option Nat
  pending : Bool
  count : Nat
deriving DecidableEq, Repr

def DataTimer.reset : DataTimer := ⟨none, false, 0⟩

/-- The Notice Unit and ATTENTION_ENABLE. `interrupts` counts the message-signalled interrupts sent: the model's own
field, so that raising attention can be seen in the state. -/
structure NoticeUnit where
  capacity : Option Nat
  produce : Word32
  consume : Word32
  summaries : Vector Summary 49
  data : Vector DataTimer 48
  attention : Bool
  interrupts : Nat
deriving DecidableEq, Repr

/-- The part reset column of R193. -/
def NoticeUnit.reset : NoticeUnit where
  capacity := none
  produce := 0
  consume := 0
  summaries := Vector.replicate 49 Summary.empty
  data := Vector.replicate 48 DataTimer.reset
  attention := false
  interrupts := 0

/-! ## Engine Port (chapter 9) -/

inductive EngineState where | halted | starting | running | halting
deriving DecidableEq, Repr

/-- The last command results of R168. -/
inductive CommandResult where
  | none | started | keptNothing | badDirectory | poolTooSmall | ignoredBusy | ignoredRunning | stopped
deriving DecidableEq, Repr

/-- A region of the shared region: its base offset and its limit, the size minus one. -/
structure Region where
  base : Nat
  limit : Nat
deriving DecidableEq, Repr

/-- The regions in force: entries 1 to 5 of the directory (R172). -/
structure Regions where
  lineTable : Region
  patterns : Region
  ring : Region
  inputs : Region
  pool : Region
deriving DecidableEq, Repr

/-- The answer codes of R180. -/
inductive AnswerCode where | none | done | badArgument | refusedState | noRoom | unknownRequest
deriving DecidableEq, Repr

/-- What the Engine Port holds for a line table entry: its answer, its status version (R176), its look deadline and
the tick its last look began (R178). `bracket` is the tick of its last version bracket: the model's own field, so
that all changes of one tick fall within one bracket. -/
structure PortEntry where
  answered : Word32
  code : AnswerCode
  detail : Nat
  version : Word32
  bracket : Option Nat
  deadline : Nat
  lastLook : Option Nat
deriving DecidableEq, Repr

def PortEntry.reset : PortEntry := ⟨0, .none, 0, 0, none, 0, none⟩

/-- A look in progress (R178). It is discarded when it ends if a HALT was taken meanwhile (R174). -/
structure Look where
  entry : EntryIx
  began : Nat
  discarded : Bool
deriving DecidableEq, Repr

/-- The copy of a request slot as the end of a look reads it (R179). -/
structure Request where
  entry : EntryIx
  number : Word32
  kind : Nat
  args : List Byte
deriving DecidableEq, Repr

/-- The Engine Port. `keepFlag` is the KEEP flag of the START being carried out; `lastPool` is entry 5 of the
directory at the last accepted START since part reset (R173); `sampled` is the tick of the last 1 ms sample; `readData` is
what the last read of TIME_LOW returned. -/
structure EnginePort where
  engine : EngineState
  result : CommandResult
  detail : Nat
  kept : Bool
  keepFlag : Bool
  regions : Option Regions
  lastPool : Option Region
  scan : Nat
  prompts : Vector Bool 49
  look : Option Look
  timeHigh : BitVec 16
  readData : Word32
  sampled : Option Nat
  entries : Vector PortEntry 49
deriving DecidableEq, Repr

/-- The values of R182. -/
def EnginePort.reset : EnginePort where
  engine := .halted
  result := .none
  detail := 0
  kept := false
  keepFlag := false
  regions := none
  lastPool := none
  scan := 3
  prompts := Vector.replicate 49 false
  look := none
  timeHigh := 0
  readData := 0
  sampled := none
  entries := Vector.replicate 49 PortEntry.reset

/-! ## The whole part -/

/-- The shared region: a list of address and byte pairs, addresses rising, listing no byte that is 0 (an unlisted
byte reads as 0, log entry 3) and no address beyond 32 MiB. -/
abbrev Mem := List Host.Cell

/-- What the blocks of the part hold, and the shared region. `now` counts ticks since part reset. -/
structure Part where
  now : Nat
  port : EnginePort
  control : Vector Control 48
  counters : Vector Counters 48
  front : Vector FrontEnd 48
  rate : RateFinder
  pool : Pool
  engine : MatchEngine
  input : Vector InputLine 48
  notice : NoticeUnit
  mem : Mem
deriving DecidableEq, Repr

/-- The part and the queue of the commands that wait. `ran` holds the commands that the present tick has carried out, in order,
and `start` the part as that tick found it: the model's own fields, by which a tick is run again where its takes of blocks need
another order (R88, log entry 25). -/
structure State extends Part where
  pending : List Instr
  ran : List Instr
  start : Part
deriving DecidableEq, Repr

/-- The part right after part reset. -/
def Part.reset : Part where
  now := 0
  port := EnginePort.reset
  control := Vector.replicate 48 Control.reset
  counters := Vector.replicate 48 Counters.zero
  front := Vector.replicate 48 FrontEnd.reset
  rate := RateFinder.reset
  pool := Pool.reset
  engine := MatchEngine.reset
  input := Vector.replicate 48 InputLine.reset
  notice := NoticeUnit.reset
  mem := []

/-- The state right after part reset, with no command waiting. -/
def State.reset : State where
  toPart := Part.reset
  pending := []
  ran := []
  start := Part.reset

/-- What stops the part. -/
inductive Fault where
  /-- Raised by a command that would reach the shared region while a region in force does not lie wholly in its
  32 MiB. Check 1 of R172 keeps every such region out of force, so no run from reset raises it. Safe. -/
  | outsideSharedRegion
deriving DecidableEq, Repr

/-- What the model refuses. -/
inductive Refusal where
  /-- The row of this mnemonic has no meaning yet. No arm answers so. Safe. -/
  | notModelled (mnemonic : String)
  /-- Raised by REGISTER_WRITE_IGNORED with a write that R167 and R170 do not ignore: the term is not well formed,
  the write belongs to another row. Safe. -/
  | notAnIgnoredWrite
deriving DecidableEq, Repr

end Sys2Proof.Machine
end

