-- ==== Sys2Proof/Machine/Timing.lean ====
section
/-! DEFINITION. Chapter 1: periods, frames, thresholds, units, the rate table and the evaluation of a window. The
arithmetic holds no state. -/

namespace Sys2Proof.Machine

/-- Ticks in one microsecond, millisecond and second (R8). -/
def ticksPerMicro : Nat := 48
def ticksPerMilli : Nat := 48000
def ticksPerSecond : Nat := 48000000

/-- The TIME value at a tick (R8, R169). -/
def timeAt (tick : Nat) : Nat := tick / 48 % 2 ^ 48

/-- A tick count as microseconds, stopping at FFFFFFFFh (R8). -/
def micros (ticks : Nat) : Nat := min (ticks / 48) 0xFFFFFFFF

/-- The number of data bits of a frame. -/
def Frame.dataBits (f : Frame) : Nat := if f.eight then 8 else 7

/-- The number of parity bits of a frame. -/
def Frame.parityBits (f : Frame) : Nat := if f.parity = .none then 0 else 1

/-- The frame bits F (R2). -/
def Frame.bits (f : Frame) : Nat := 1 + f.dataBits + f.parityBits + (if f.twoStop then 2 else 1)

/-- The character time C = F × P (R3). -/
def charTime (f : Frame) (period : Nat) : Nat := f.bits * period

/-- The sixteen rates of R9. -/
def rateTable : Vector Nat 16 :=
  #v[300, 600, 1200, 2400, 4800, 9600, 14400, 19200, 28800, 38400, 57600, 76800, 115200, 230400, 460800, 921600]

/-- Pt of a rate-table entry: 48,000,000 ÷ rate, rounded half up (R9). -/
def tablePeriod (n : Fin 16) : Nat := (2 * 48000000 + rateTable[n]) / (2 * rateTable[n])

/-- The entry reported with a period: 0 to 15, or 255 for CUSTOM (R9). -/
def reportedEntry (period : Nat) : Nat :=
  match (List.finRange 16).find? (fun n => tablePeriod n == period) with
  | some n => n.val
  | none => 255

/-- Whether the candidate mask enables an entry (R9). -/
def enabled (mask : BitVec 16) (n : Fin 16) : Bool := mask.getLsbD n.val

/-- The enabled entries, in rising order, so with falling Pt. -/
def enabledEntries (mask : BitVec 16) : List (Fin 16) := (List.finRange 16).filter (enabled mask)

/-- Pmax: the Pt of the enabled entry with the lowest number, 0 when none is enabled (R9). -/
def maxPeriod (mask : BitVec 16) : Nat :=
  match enabledEntries mask with
  | n :: _ => tablePeriod n
  | [] => 0

/-- |a − b|. -/
def distance (a b : Nat) : Nat := (a - b) + (b - a)

/-- Whether a measured width is accepted (R10). -/
def acceptsWidth (mask : BitVec 16) (deglitch width : Nat) : Bool :=
  decide (deglitch ≤ width) && decide (width ≤ 11 * maxPeriod mask)

/-- The smallest of the widths of a window (R11). -/
def minimumWidth : List Nat → Nat
  | [] => 0
  | [w] => w
  | w :: ws => min w (minimumWidth ws)

/-- The enabled entry whose Pt is nearest to `m`; the larger Pt wins a tie (R11). -/
def candidate (mask : BitVec 16) (m : Nat) : Option (Fin 16) :=
  (enabledEntries mask).foldl
    (fun best n =>
      match best with
      | none => some n
      | some b => if distance m (tablePeriod n) < distance m (tablePeriod b) then some n else some b)
    none

/-- The multiple k of a width for a period (R13). -/
def multiple (pt width : Nat) : Nat := max 1 ((2 * width + pt) / (2 * pt))

/-- The acceptance test of R12. -/
def accepted (tolerance pt m : Nat) : Bool := decide (distance m pt * 1000 ≤ tolerance * pt)

/-- The consistency check of one width (R13). -/
def consistent (tolerance pt width : Nat) : Bool :=
  decide (distance width (multiple pt width * pt) * 1000 ≤ tolerance * multiple pt width * pt)

/-- The result of a window (R14). -/
def windowResult (mask : BitVec 16) (tolerance : Nat) (widths : List Nat) : WindowResult :=
  match candidate mask (minimumWidth widths) with
  | none => .noCandidate
  | some n =>
    if accepted tolerance (tablePeriod n) (minimumWidth widths) && widths.all (consistent tolerance (tablePeriod n))
    then .entry n else .noCandidate

/-- The multiples kept with a window: those of R13 when the result is an entry. -/
def windowMultiples (r : WindowResult) (widths : List Nat) : List Nat :=
  match r with
  | .entry n => widths.map (multiple (tablePeriod n))
  | .noCandidate => []

/-- The TRIM period from the sums of widths and multiples, rounded half up and clamped (R15). -/
def trimPeriod (widths multiples : Nat) : Nat :=
  max 40 (min 1048575 ((2 * widths + multiples) / (2 * multiples)))

/-- The period proposed on a lock (R15). -/
def proposedPeriod (mode : RateMode) (n : Fin 16) (widths multiples : Nat) : Nat :=
  match mode with
  | .autoTrim => trimPeriod widths multiples
  | _ => tablePeriod n

/-- Whether a lock agrees with the period in force (R16). -/
def lockAgrees (mode : RateMode) (tolerance current proposed : Nat) : Bool :=
  match mode with
  | .autoTrim => decide (distance proposed current * 1000 ≤ tolerance * current)
  | _ => decide (proposed = current)

end Sys2Proof.Machine
end

