-- ==== Sys2Proof/Machine/Ops.lean ====
section
/-! DEFINITION. The named operations over the shared region and over the parts of the state that the blocks own. -/

namespace Sys2Proof.Machine

/-! ## The shared region -/

/-- The size of the shared region: 32 MiB (1.4). -/
def regionBytes : Nat := 0x2000000

/-- The canonical form of the shared region. -/
abbrev Mem.wf (m : Mem) : Prop :=
  m.Pairwise (fun a b => a.1 < b.1) ∧ ∀ c ∈ m, c.2 ≠ 0 ∧ c.1 < regionBytes

/-- The byte at an address; a byte that is not listed reads as 0 (log entry 3). -/
def Mem.read (m : Mem) (a : Nat) : Byte :=
  match m.find? (fun c => c.1 == a) with
  | some c => c.2
  | none => 0

/-- The cells that a run of bytes from an address makes: none for a 0 byte or beyond the shared region. -/
def Mem.cells (a : Nat) : List Byte → Mem
  | [] => []
  | b :: bs => if b = 0 ∨ regionBytes ≤ a then Mem.cells (a + 1) bs else (a, b) :: Mem.cells (a + 1) bs

/-- The region with a run of bytes stored from an address on. -/
def Mem.write (m : Mem) (a : Nat) (bs : List Byte) : Mem :=
  m.filter (fun c => c.1 < a) ++ Mem.cells a bs ++ m.filter (fun c => a + bs.length ≤ c.1)

/-- The bytes of a rising list of cells from an address on. -/
def Mem.run : Mem → Nat → Nat → List Byte
  | _, _, 0 => []
  | [], a, n + 1 => 0 :: Mem.run [] (a + 1) n
  | (x, b) :: m, a, n + 1 =>
    if x = a then b :: Mem.run m (a + 1) n else 0 :: Mem.run ((x, b) :: m) (a + 1) n

/-- `n` bytes from an address on. -/
def Mem.slice (m : Mem) (a n : Nat) : List Byte := Mem.run (m.filter (fun c => a ≤ c.1)) a n

/-- Host writes, in order. -/
def Mem.hostWrites (m : Mem) : List (BitVec 25 × Byte) → Mem
  | [] => m
  | (a, b) :: ws => Mem.hostWrites (m.write a.toNat [b]) ws

/-- The value of a little-endian field (R194). -/
def leValue : List Byte → Nat
  | [] => 0
  | b :: bs => b.toNat + 256 * leValue bs

/-- The `n` bytes of a little-endian field (R194). -/
def leBytes : Nat → Nat → List Byte
  | 0, _ => []
  | n + 1, v => BitVec.ofNat 8 v :: leBytes n (v / 256)

/-- A region lies wholly in the shared region (check 1 of R172). -/
def Region.inside (r : Region) : Bool := decide (r.base + r.limit < regionBytes)

/-- Every region in force lies wholly in the shared region. -/
def State.regionsInside (s : State) : Bool :=
  match s.port.regions with
  | none => true
  | some r => r.lineTable.inside && r.patterns.inside && r.ring.inside && r.inputs.inside && r.pool.inside

/-- Store bytes at an offset of a region in force; nothing is stored while no region is (R182). -/
def State.store (s : State) (region : Regions → Region) (offset : Nat) (bs : List Byte) : State :=
  match s.port.regions with
  | none => s
  | some r => { s with mem := s.mem.write ((region r).base + offset) bs }

/-- `n` bytes at an offset of a region in force; zeros while no region is. -/
def State.load (s : State) (region : Regions → Region) (offset n : Nat) : List Byte :=
  match s.port.regions with
  | none => List.replicate n 0
  | some r => s.mem.slice ((region r).base + offset) n

/-! ## Reading and changing what the blocks own -/

/-- TIME now (R169). -/
def State.time (s : State) : Nat := timeAt s.now

def State.ctl (s : State) (k : LineIx) : Control := s.control[k]
def State.cnt (s : State) (k : LineIx) : Counters := s.counters[k]
def State.fe (s : State) (k : LineIx) : FrontEnd := s.front[k]
def State.cap (s : State) (k : LineIx) : Capture := s.pool.lines[k]
def State.mat (s : State) (k : LineIx) : MatchLine := s.engine.lines[k]
def State.inp (s : State) (k : LineIx) : InputLine := s.input[k]
def State.cfg (s : State) (k : LineIx) : Settings := (s.ctl k).settings
def State.phaseOf (s : State) (k : LineIx) : Phase := s.rate.phase[k]

def State.modCtl (k : LineIx) (f : Control → Control) (s : State) : State :=
  { s with control := upd s.control k f }
def State.modCnt (k : LineIx) (f : Counters → Counters) (s : State) : State :=
  { s with counters := upd s.counters k f }
def State.modFe (k : LineIx) (f : FrontEnd → FrontEnd) (s : State) : State :=
  { s with front := upd s.front k f }
def State.modCap (k : LineIx) (f : Capture → Capture) (s : State) : State :=
  { s with pool := { s.pool with lines := upd s.pool.lines k f } }
def State.modMat (k : LineIx) (f : MatchLine → MatchLine) (s : State) : State :=
  { s with engine := { s.engine with lines := upd s.engine.lines k f } }
def State.modInp (k : LineIx) (f : InputLine → InputLine) (s : State) : State :=
  { s with input := upd s.input k f }
def State.modPort (f : EnginePort → EnginePort) (s : State) : State := { s with port := f s.port }
def State.modNotice (f : NoticeUnit → NoticeUnit) (s : State) : State := { s with notice := f s.notice }
def State.modRate (f : RateFinder → RateFinder) (s : State) : State := { s with rate := f s.rate }
def State.setPhase (k : LineIx) (p : Phase) (s : State) : State :=
  s.modRate fun r => { r with phase := upd r.phase k fun _ => p }

/-- `f` when a condition holds, nothing otherwise. -/
def State.ifThen (c : Bool) (f : State → State) (s : State) : State := if c then f s else s

/-! ## What a line state means (R38) -/

/-- LIVE and CHECKING: the receiver decodes. -/
def LineState.decoding : LineState → Bool
  | .live => true
  | .checking => true
  | _ => false

/-- SEEKING, LIVE and CHECKING. -/
def LineState.present : LineState → Bool
  | .seeking => true
  | .live => true
  | .checking => true
  | _ => false

/-- The rate mode is AUTO_SNAP or AUTO_TRIM. -/
def RateMode.auto : RateMode → Bool
  | .fixed => false
  | _ => true

/-- The gate is HELD: it holds a reason (R150). -/
def Gate.held (g : Gate) : Bool := g.notLive || g.boot || g.pattern || g.host

/-- Every line is OFF. -/
def State.allOff (s : State) : Bool := (List.finRange 48).all fun k => decide ((s.ctl k).state = .off)

end Sys2Proof.Machine
end

