-- ==== Sys2Proof/Machine/Operands.lean ====
section
/-! DEFINITION. Chapter 11: the numeric codes and the byte layouts of the structures the host and the part share, in
both directions, and the checks of the settings record (R43) and of a pattern slot (R123). -/

namespace Sys2Proof.Machine

/-! ## Codes (R199, R205, R207, R208) -/

def LineState.code : LineState → Nat
  | .off => 0 | .dark => 1 | .seeking => 2 | .live => 3 | .checking => 4

def Console.code : Console → Nat
  | .unknown => 0 | .booting => 1 | .prompt => 2 | .monitor => 3 | .fault => 4

/-- The console state of a code, if the code is one (R208). -/
def Console.ofCode : Nat → Option Console
  | 0 => some .unknown | 1 => some .booting | 2 => some .prompt | 3 => some .monitor | 4 => some .fault | _ => none

def Phase.code : Phase → Nat
  | .none => 0 | .edgeWait => 1 | .queued => 2 | .measuring => 3

def LockCause.code : LockCause → Nat
  | .none => 0 | .fixed => 1 | .locked => 2 | .changed => 3 | .configure => 4

/-- The causes of a LINE record (R91). -/
inductive LineCause where | enable | disable | halt | presenceGained | presenceLost | spaceHold
deriving DecidableEq, Repr

def LineCause.code : LineCause → Nat
  | .enable => 1 | .disable => 2 | .halt => 3 | .presenceGained => 4 | .presenceLost => 5 | .spaceHold => 6

/-- The close causes of a DATA record (R95). -/
inductive CloseCause where | gap | full | match | break | presence | stop | settings | rate | clear | record
deriving DecidableEq, Repr

def CloseCause.code : CloseCause → Nat
  | .gap => 0 | .full => 1 | .match => 2 | .break => 3 | .presence => 4 | .stop => 5 | .settings => 6 | .rate => 7
  | .clear => 8 | .record => 9

/-- The causes of a change of the grant holder (R147, R148). -/
inductive GrantCause where | take | give | steal | lapse
deriving DecidableEq, Repr

def GrantCause.code : GrantCause → Nat
  | .take => 1 | .give => 2 | .steal => 3 | .lapse => 4

/-- The reasons of a refusal of an entry (R146). -/
inductive RefuseReason where | badTag | badKind | notHolder | heldBy | notSupervisor | policy
deriving DecidableEq, Repr

def RefuseReason.code : RefuseReason → Nat
  | .badTag => 1 | .badKind => 2 | .notHolder => 3 | .heldBy => 4 | .notSupervisor => 5 | .policy => 6

/-- The reasons an entry in flight is cut (R157). -/
inductive CutReason where | stall | dark | disabled | halted
deriving DecidableEq, Repr

def CutReason.code : CutReason → Nat
  | .stall => 1 | .dark => 2 | .disabled => 3 | .halted => 4

/-- The reasons a pin is discarded (R114). -/
inductive DropReason where | overflow | budget | quota | cleared
deriving DecidableEq, Repr

def DropReason.code : DropReason → Nat
  | .overflow => 1 | .budget => 2 | .quota => 3 | .cleared => 4

def AnswerCode.code : AnswerCode → Nat
  | .none => 0 | .done => 1 | .badArgument => 2 | .refusedState => 3 | .noRoom => 4 | .unknownRequest => 5

/-- The notice kinds of R205. -/
inductive NoticeKind where
  | lineUp | lineDown | rateLocked | rateFailed | checkBegun | noisy | match | pinClosed | pinDropped | grant
  | inputRefused | inputCut | inputOverrun | signal | breakSeen | data | answer | summary
deriving DecidableEq, Repr

def NoticeKind.code : NoticeKind → Nat
  | .lineUp => 1 | .lineDown => 2 | .rateLocked => 3 | .rateFailed => 4 | .checkBegun => 5 | .noisy => 6
  | .match => 7 | .pinClosed => 8 | .pinDropped => 9 | .grant => 10 | .inputRefused => 11 | .inputCut => 12
  | .inputOverrun => 13 | .signal => 14 | .breakSeen => 15 | .data => 16 | .answer => 17 | .summary => 18

/-- The record kinds of R207. -/
inductive RecordKind where | data | input | breakIn | breakOut | line | rate | mark | grant
deriving DecidableEq, Repr

def RecordKind.code : RecordKind → Nat
  | .data => 1 | .input => 2 | .breakIn => 3 | .breakOut => 4 | .line => 5 | .rate => 6 | .mark => 7 | .grant => 8

/-- The request kinds of R199. -/
def kindEnable : Nat := 1
def kindDisable : Nat := 2
def kindConfigure : Nat := 3
def kindRelock : Nat := 4
def kindResetCounters : Nat := 5
def kindClearCapture : Nat := 6
def kindPinNow : Nat := 7
def kindUnpin : Nat := 8
def kindSetConsole : Nat := 9
def kindHoldInput : Nat := 10
def kindOpenInput : Nat := 11
def kindLoadPatterns : Nat := 16
def kindApplySettings : Nat := 17

/-- The entry kinds of R204. -/
def kindKeys : Nat := 1
def kindBreak : Nat := 2
def kindTake : Nat := 3
def kindGive : Nat := 4
def kindSteal : Nat := 5

/-! ## Fields of a structure -/

/-- The bytes of a field of a structure held as its bytes. -/
def field (bs : List Byte) (offset size : Nat) : Nat := leValue ((bs.drop offset).take size)

/-- One byte as a number. -/
def byteAt (bs : List Byte) (offset : Nat) : Nat := field bs offset 1

/-- One byte holding a number. -/
def byteOf (n : Nat) : Byte := BitVec.ofNat 8 n

/-! ## The settings record (R43, R198) -/

def rateModeOf : Nat → Option RateMode
  | 0 => some .fixed | 1 => some .autoSnap | 2 => some .autoTrim | _ => none

def parityOf : Nat → Option Parity
  | 0 => some .none | 1 => some .even | 2 => some .odd | _ => none

def roleOf : Nat → Option Role
  | 0 => some .dte | 1 => some .dce | _ => none

def flowOf : Nat → Option Flow
  | 0 => some .none | 1 => some .soft | 2 => some .hard | _ => none

def sourceOf : Nat → Option PresenceSource
  | 0 => some .level | 1 => some .ready | 2 => some .either | 3 => some .always | _ => none

def boolOf : Nat → Option Bool
  | 0 => some false | 1 => some true | _ => none

def breakPolicyOf : Nat → Option BreakPolicy
  | 0 => some .never | 1 => some .holder | 2 => some .any | _ => none

def edgeSelectOf : Nat → Option EdgeSelect
  | 0 => some .none | 1 => some .rise | 2 => some .fall | 3 => some .both | _ => none

/-- 7 or 8 data bits: true for 8. -/
def dataBitsOf : Nat → Option Bool
  | 7 => some false | 8 => some true | _ => none

/-- 1 or 2 stop bits: true for 2. -/
def stopBitsOf : Nat → Option Bool
  | 1 => some false | 2 => some true | _ => none

/-- A value clamped to a range (1.4). -/
def clamp (low high n : Nat) : Nat := max low (min high n)

/-- Row 13: clamped to 10–10,000, then rounded down to a multiple of 10. -/
def settleOf (n : Nat) : Nat := clamp 10 10000 n / 10 * 10

/-- Row 14: 0, or 100–10,000; 1–99 taken as 100. -/
def darkBreakOf (n : Nat) : Nat := if n = 0 then 0 else clamp 100 10000 n

/-- A row of R43 that refuses the record with its number, or the value it takes. -/
def row {α : Type} (n : Nat) : Option α → Except Nat α
  | some a => .ok a
  | none => .error n

/-- A row of R43 that only checks. -/
def rowCheck (n : Nat) (ok : Bool) : Except Nat Unit := if ok then .ok () else .error n

/-- The settings a record of 64 bytes resolves to, or the number of the first row of R43 that fails. -/
def parseSettings (b : List Byte) : Except Nat Settings := do
  let rateMode ← row 1 (rateModeOf (byteAt b 0x00))
  let fixedPeriod := field b 0x04 4 % 2 ^ 20
  rowCheck 2 (decide (40 ≤ fixedPeriod))
  let mask := BitVec.ofNat 16 (field b 0x08 2)
  rowCheck 3 (!(rateMode.auto && decide (mask = 0)))
  let eight ← row 6 (dataBitsOf (byteAt b 0x01))
  let parity ← row 7 (parityOf (byteAt b 0x02))
  let twoStop ← row 8 (stopBitsOf (byteAt b 0x03))
  let role ← row 9 (roleOf (byteAt b 0x0C))
  let flow ← row 10 (flowOf (byteAt b 0x0D))
  let source ← row 11 (sourceOf (byteAt b 0x0E))
  let threshold := byteAt b 0x0F
  rowCheck 12 (decide (1 ≤ threshold ∧ threshold ≤ 3))
  let echoWait ← row 19 (boolOf (byteAt b 0x1A))
  let breakPolicy ← row 21 (breakPolicyOf (byteAt b 0x1C))
  let bootHold ← row 24 (boolOf (byteAt b 0x1D))
  let readyEdges ← row 28 (edgeSelectOf (byteAt b 0x25))
  let clearEdges ← row 29 (edgeSelectOf (byteAt b 0x26))
  let quotaMin := clamp 2 4096 (field b 0x2A 2)
  let quotaMax := min 4096 (field b 0x2C 2)
  rowCheck 31 (decide (quotaMin ≤ quotaMax))
  return {
    rateMode, fixedPeriod, mask
    tolerance := clamp 5 100 (byteAt b 0x0A)
    deglitch := byteAt b 0x0B
    frame := { eight, parity, twoStop }
    role, flow, source, threshold
    settle := settleOf (field b 0x10 2)
    darkBreak := darkBreakOf (field b 0x12 2)
    gap := max 1 (byteAt b 0x14)
    errorLimit := max 1 (byteAt b 0x15)
    paceGap := field b 0x16 2
    lineEnd := field b 0x18 2
    echoWait
    stallLimit := byteAt b 0x1B
    breakPolicy
    breakDuration := clamp 10 4000 (field b 0x1E 2)
    grantTimeout := field b 0x20 2
    bootHold
    probeInterval := min 3600 (field b 0x22 2)
    probeEntry := Fin.ofNat 16 (byteAt b 0x24)
    dataInterval := min 1000 (field b 0x28 2)
    readyEdges, clearEdges, quotaMin, quotaMax }

/-! ## Pattern slots (R121, R123, R203) -/

/-- The number of the first check of R123 that a slot of 64 bytes fails; none when it is unused or passes. -/
def slotCheck (b : List Byte) : Option Nat :=
  let length := byteAt b 0x00
  let anchor := byteAt b 0x02
  let filter := byteAt b 0x03
  let actions := byteAt b 0x04
  if length = 0 then none
  else if 32 < length then some 1
  else if 1 < anchor then some 2
  else if filter = 0 ∨ 32 ≤ filter then some 3
  else if 64 ≤ actions ∨ (actions.testBit 4 ∧ actions.testBit 5) then some 4
  else if actions.testBit 3 ∧ (Console.ofCode (byteAt b 0x07)).isNone then some 5
  else none

/-- The slot as taken into force (R124): B and A clamped, the line mask cut to lines 1 to 48. -/
def parseSlot (b : List Byte) : Pattern :=
  let length := byteAt b 0x00
  let actions := byteAt b 0x04
  if length = 0 then Pattern.unused
  else {
    length
    bytes := (b.drop 0x10).take length
    fold := (byteAt b 0x01).testBit 0
    lineStart := decide (byteAt b 0x02 = 1)
    filter := BitVec.ofNat 8 (byteAt b 0x03)
    actNotice := actions.testBit 0
    actMark := actions.testBit 1
    actPin := actions.testBit 2
    actState := actions.testBit 3
    actHold := actions.testBit 4
    actOpen := actions.testBit 5
    before := min 15 (byteAt b 0x05)
    after := min 15 (byteAt b 0x06)
    target := (Console.ofCode (byteAt b 0x07)).getD .unknown
    mask := BitVec.ofNat 64 (field b 0x08 8 % 2 ^ 48) }

/-! ## Input entries (R204) -/

/-- An input entry as read: tag, kind, length, break duration and key bytes. -/
structure RingEntry where
  tag : Nat
  kind : Nat
  length : Nat
  duration : Nat
  keys : List Byte
deriving DecidableEq, Repr

def parseEntry (b : List Byte) : RingEntry where
  tag := byteAt b 0x00
  kind := byteAt b 0x01
  length := byteAt b 0x02
  duration := field b 0x04 2
  keys := (b.drop 0x08).take 56

/-! ## Notices and records -/

/-- A notice without its position: its kind, its entry, its time and its arguments (R205). -/
structure Notice where
  kind : NoticeKind
  entry : EntryIx
  time : Nat
  args : List Byte
deriving DecidableEq, Repr

/-- Bytes padded with zeros to a length. -/
def padTo (n : Nat) (bs : List Byte) : List Byte := bs ++ List.replicate (n - bs.length) 0

/-- The 32 bytes of a notice record at a position (R205). -/
def noticeBytes (position : Word32) (n : Notice) : List Byte :=
  leBytes 4 position.toNat ++ [byteOf n.kind.code, byteOf n.entry.val] ++ leBytes 2 0 ++ leBytes 8 (n.time % 2 ^ 48) ++
    padTo 16 n.args

/-- A record to be written: what R91 gives each kind. -/
structure Record where
  kind : RecordKind
  flags : Nat
  small : Nat
  payload : List Byte
  time : Nat
deriving DecidableEq, Repr

/-- A record's size: 16 + 4 × ⌈data length ÷ 4⌉ (R90). -/
def Record.size (r : Record) : Nat := 16 + 4 * ((r.payload.length + 3) / 4)

/-- The bytes of a record: header, payload, padding (R90, R207). -/
def recordBytes (number : Word32) (r : Record) : List Byte :=
  [byteOf r.kind.code, byteOf r.flags, byteOf r.payload.length, 0] ++ leBytes 4 number.toNat ++ leBytes 6 r.time ++
    leBytes 2 r.small ++ padTo (4 * ((r.payload.length + 3) / 4)) r.payload

/-- The flags of a record that may be CUT. -/
def cutFlag (cut : Bool) : Nat := if cut then 1 else 0

/-- A DATA record (R91, R94). -/
def dataRecord (o : OpenRecord) (cause : CloseCause) : Record :=
  ⟨.data, cause.code, o.errors + 256 * o.firstError, o.bytes, o.time⟩

/-- A LINE record with the state entered and the cause. -/
def lineRecord (state : LineState) (cause : LineCause) (time : Nat) : Record :=
  ⟨.line, 0, 0, [byteOf state.code, byteOf cause.code, 0, 0], time⟩

/-- A RATE record with the new period, its entry and the cause. -/
def rateRecord (period : Nat) (cause : LockCause) (time : Nat) : Record :=
  ⟨.rate, 0, 0, leBytes 4 period ++ [byteOf (reportedEntry period), byteOf cause.code, 0, 0], time⟩

/-- A BREAK_IN record of a duration in microseconds. -/
def breakInRecord (cut : Bool) (duration time : Nat) : Record :=
  ⟨.breakIn, cutFlag cut, 0, leBytes 4 duration, time⟩

/-- A BREAK_OUT record. -/
def breakOutRecord (cut : Bool) (tag duration time : Nat) : Record :=
  ⟨.breakOut, cutFlag cut, tag, leBytes 4 duration, time⟩

/-- An INPUT record of the key bytes sent; a cut carries CUT in bit 0 and its reason in bits 7 to 4. -/
def inputRecord (tag : Nat) (cut : Option CutReason) (keys : List Byte) (time : Nat) : Record :=
  ⟨.input, match cut with | some r => 1 + 16 * r.code | none => 0, tag, keys, time⟩

/-- The INPUT record of a probe: tag 0, PROBE in bit 1, the one byte 0Dh (R163). -/
def probeRecord (time : Nat) : Record := ⟨.input, 2, 0, [0x0D#8], time⟩

/-- A MARK record (R133). -/
def markRecord (slot : Nat) (console : Console) (pin time : Nat) : Record :=
  ⟨.mark, 0, 0, [byteOf slot, byteOf console.code, byteOf pin, 0], time⟩

/-- A GRANT record (R147). -/
def grantRecord (holder previous : Nat) (cause : GrantCause) (time : Nat) : Record :=
  ⟨.grant, 0, 0, [byteOf holder, byteOf previous, byteOf cause.code, 0], time⟩

end Sys2Proof.Machine
end

