-- ==== Sys2Proof/Machine/Notices.lean ====
section
/-! DEFINITION. The Notice Unit (chapter 10): room, appending and folding, summaries, DATA notices, attention. -/

namespace Sys2Proof.Machine

/-- Produce minus consume, modulo 2^32, by the consume count last taken in (R186). -/
def State.unconsumed (s : State) : Nat := (s.notice.produce - s.notice.consume).toNat

/-- The room of the ring: 0 when it is full, when the consume count is out of range, or when no ring is in force
(R186). -/
def State.room (s : State) : Nat :=
  match s.notice.capacity with
  | none => 0
  | some c => c - s.unconsumed

/-- Raise attention if it is enabled: one interrupt, and the enable is cleared (R191). -/
def raiseAttention (s : State) : State :=
  if s.notice.attention then s.modNotice fun n => { n with attention := false, interrupts := n.interrupts + 1 }
  else s

/-- Append a notice at the produce count (R185). -/
def appendNotice (n : Notice) (s : State) : State :=
  raiseAttention
    ((s.store Regions.ring (s.notice.produce.toNat % s.notice.capacity.getD 1 * 32)
        (noticeBytes s.notice.produce n)).modNotice fun u => { u with produce := u.produce + 1 })

/-- A summary with one more notice folded into it (R188). -/
def Summary.fold (n : Notice) (u : Summary) : Summary where
  kinds := (if u.count = 0 then 0 else u.kinds) ||| BitVec.ofNat 32 (2 ^ n.kind.code)
  count := satAdd u.count 1
  firstTime := if u.count = 0 then n.time else u.firstTime

/-- Fold a notice into its entry's summary (R188). -/
def foldNotice (n : Notice) (s : State) : State :=
  s.modNotice fun u => { u with summaries := upd u.summaries n.entry (Summary.fold n) }

/-- Post a notice: appended while there is room, folded otherwise (R187). -/
def post (n : Notice) (s : State) : State := if 0 < s.room then appendNotice n s else foldNotice n s

/-- Post a notice of a line at this tick. -/
def tell (k : LineIx) (kind : NoticeKind) (args : List Byte) (s : State) : State :=
  post ⟨kind, entryOf k, s.time, args⟩ s

/-- The SUMMARY notice of an entry (R189). -/
def summaryNotice (i : EntryIx) (u : Summary) (time : Nat) : Notice :=
  ⟨.summary, i, time, leBytes 4 u.kinds.toNat ++ leBytes 4 u.count ++ leBytes 8 (u.firstTime % 2 ^ 48)⟩

/-- Deliver one entry's summary if it is not empty and there is room (R189). -/
def deliverSummary (s : State) (i : EntryIx) : State :=
  if 0 < s.room ∧ 0 < s.notice.summaries[i].count then
    (appendNotice (summaryNotice i s.notice.summaries[i] s.time) s).modNotice
      fun u => { u with summaries := upd u.summaries i fun _ => Summary.empty }
  else s

/-- Deliver summaries in ascending entry number while there is room (R189). -/
def deliverSummaries (s : State) : State := (List.finRange 49).foldl deliverSummary s

/-- Post the DATA notice of a line: the last record's number and the records count; the timer starts again (R190). -/
def postData (k : LineIx) (s : State) : State :=
  (tell k .data
      (leBytes 4 ((s.cap k).nextRecord - 1).toNat ++ leBytes 4 s.notice.data[k].count) s).modNotice
    fun u => { u with data := upd u.data k fun _ => ⟨some s.now, false, 0⟩ }

/-- The tick at which a line's next DATA notice may be posted, when one has been posted before (R190). -/
def dataDueAt (last interval : Nat) : Nat := last + interval * ticksPerMilli

/-- A record was written for the line (R190). -/
def noteRecord (k : LineIx) (s0 : State) : State :=
  let s := s0.modNotice fun u => { u with data := upd u.data k fun d => { d with count := satAdd d.count 1 } }
  if (s.cfg k).dataInterval = 0 then s
  else match s.notice.data[k].last with
    | none => postData k s
    | some t =>
      if dataDueAt t (s.cfg k).dataInterval ≤ s.now then postData k s
      else s.modNotice fun u => { u with data := upd u.data k fun d => { d with pending := true } }

/-- The DATA timer's tick: a pending notice is posted once its interval has passed (R190). -/
def dataTimerTick (k : LineIx) (s : State) : State :=
  match s.notice.data[k].last with
  | none => s
  | some t =>
    if s.notice.data[k].pending ∧ (s.cfg k).dataInterval ≠ 0 ∧ dataDueAt t (s.cfg k).dataInterval ≤ s.now
    then postData k s else s

/-- A CONFIGURE changed the data notice interval (R190). -/
def dataIntervalChanged (k : LineIx) (s : State) : State :=
  if (s.cfg k).dataInterval = 0 then
    s.modNotice fun u => { u with data := upd u.data k fun d => { d with pending := false } }
  else dataTimerTick k s

end Sys2Proof.Machine
end

