-- ==== Sys2Proof/Machine/Flags.lean ====
section
/-! DEFINITION. The bit layouts of registers and status fields (R168, R200), and what a host read of the register
space returns (R167). -/

namespace Sys2Proof.Machine

def EngineState.code : EngineState → Nat
  | .halted => 0 | .starting => 1 | .running => 2 | .halting => 3

def CommandResult.code : CommandResult → Nat
  | .none => 0 | .started => 1 | .keptNothing => 2 | .badDirectory => 3 | .poolTooSmall => 4 | .ignoredBusy => 5
  | .ignoredRunning => 6 | .stopped => 7

/-- A flag as one bit. -/
def bit (b : Bool) : Nat := if b then 1 else 0

/-- The prompt set holds a number. -/
def EnginePort.prompted (p : EnginePort) : Bool := (List.finRange 49).any fun i => p.prompts[i]

/-- ENGINE_STATUS (R168). -/
def State.engineStatus (s : State) : Word32 :=
  BitVec.ofNat 32
    (s.port.engine.code + s.port.result.code * 2 ^ 4 + s.port.detail % 256 * 2 ^ 8 +
      bit (decide (0 < s.unconsumed)) * 2 ^ 16 + bit s.port.kept * 2 ^ 17 + bit s.port.prompted * 2 ^ 18)

/-- What a host read of an offset of the register space returns (R167 to R169). -/
def State.readRegister (s : State) (offset : Word32) : Word32 :=
  if offset = 0x00#32 then s.engineStatus
  else if offset = 0x0C#32 then BitVec.ofNat 32 (bit s.notice.attention)
  else if offset = 0x10#32 then BitVec.ofNat 32 s.time
  else if offset = 0x14#32 then s.port.timeHigh.setWidth 32
  else 0

/-- The gate reasons as at offset A0h of the line status (R200). -/
def Gate.bits (g : Gate) : Nat := bit g.notLive + 2 * bit g.boot + 4 * bit g.pattern + 8 * bit g.host

/-- The verdicts as at offset 9Dh: verdict i in bit i, 1 for BAD (R200). -/
def verdictBits : List Bool → Nat
  | [] => 0
  | v :: vs => bit v + 2 * verdictBits vs

/-- A pin is OPEN (R106). -/
def Pin.isOpen (p : Pin) : Bool := decide (0 < p.remaining)

/-- The flag byte of a pin record (R200). -/
def Pin.flags (p : Pin) : Nat := bit p.isOpen + 2 * bit p.truncated

end Sys2Proof.Machine
end

