-- ==== Sys2Proof/Machine/Pins.lean ====
section
/-! DEFINITION. The Pin Unit's part that needs no record: spans, the budget, discarding, extending and closing
(chapter 6). -/

namespace Sys2Proof.Machine

/-- A sequence lies within the span of a pin (R107). -/
def Pin.covers (p : Pin) (sequence : Word32) : Bool :=
  decide ((sequence - p.first).toNat ≤ (p.last - p.first).toNat)

/-- A block is pinned by a list of pins (R107). -/
def pinnedBy (pins : List Pin) (b : Block) : Bool := pins.any fun p => p.covers b.sequence

/-- The pinned count: the blocks of the chain that are pinned (R107). -/
def pinnedCount (pins : List Pin) (chain : List Block) : Nat := (chain.filter (pinnedBy pins)).length

def Capture.pinned (c : Capture) : Nat := pinnedCount c.pins c.chain

/-- The budget of a line: its quota min less 2 (R107). -/
def State.budget (s : State) (k : LineIx) : Nat := (s.cfg k).quotaMin - 2

/-- The arguments of PIN_CLOSED and PIN_DROPPED, with the byte that tells them apart (R205). -/
def pinArgs (p : Pin) (third : Nat) : List Byte :=
  [byteOf p.id, byteOf p.pattern, byteOf third, 0] ++ leBytes 4 p.first.toNat ++ leBytes 4 p.last.toNat

/-- Take a pin out of the line's list. -/
def removePin (k : LineIx) (p : Pin) (s : State) : State :=
  s.modCap k fun c => { c with pins := c.pins.erase p }

/-- Discard a pin (R114). -/
def dropPin (k : LineIx) (p : Pin) (reason : DropReason) (s : State) : State :=
  tell k .pinDropped (pinArgs p reason.code) (removePin k p s)

/-- Put a changed pin in the place of the pin with its id. -/
def replacePin (k : LineIx) (p : Pin) (s : State) : State :=
  s.modCap k fun c => { c with pins := c.pins.map fun q => if q.id = p.id then p else q }

/-- Close a pin or keep it open as its new fields say; a pin that stops being OPEN posts PIN_CLOSED (R114). -/
def settlePin (k : LineIx) (p : Pin) (s : State) : State :=
  let t := replacePin k p s
  if p.isOpen then t else tell k .pinClosed (pinArgs p (bit p.truncated)) t

/-- The pin `p` takes in the newest block (R112). -/
def Pin.takeIn (p : Pin) (sequence : Word32) : Pin := { p with last := sequence, remaining := p.remaining - 1 }

/-- The newest block fits under a pin: it is pinned already, or the pinned count is below the budget (R112). -/
def State.blockFits (s : State) (k : LineIx) (sequence : Word32) : Bool :=
  (s.cap k).pins.any (fun p => p.covers sequence) || decide ((s.cap k).pinned < s.budget k)

/-- Discard the oldest pins other than the one with this id until the newest block fits or none is left (R113). -/
def makeRoom (k : LineIx) (sequence : Word32) (id : Nat) : Nat → State → State
  | 0, s => s
  | fuel + 1, s =>
    if s.blockFits k sequence then s
    else match (s.cap k).pins.find? (fun q => q.id != id) with
      | none => s
      | some q => makeRoom k sequence id fuel (dropPin k q .budget s)

/-- Extend the OPEN pin with this id over the newest block, if it is still in the list (R112, R113). -/
def extendPin (k : LineIx) (sequence : Word32) (s : State) (id : Nat) : State :=
  match (s.cap k).pins.find? (fun p => p.id == id) with
  | none => s
  | some p =>
    if p.isOpen then
      let t := makeRoom k sequence id (s.cap k).pins.length s
      if t.blockFits k sequence then settlePin k (p.takeIn sequence) t
      else settlePin k { p with remaining := 0, truncated := true } t
    else s

/-- Extend the line's OPEN pins over the block it has just taken, newest first (R112). -/
def extendPins (k : LineIx) (sequence : Word32) (s : State) : State :=
  (((s.cap k).pins.filter Pin.isOpen).map Pin.id).reverse.foldl (extendPin k sequence) s

/-- Discard the oldest pins while the line's pinned count exceeds a number (R116). -/
def dropOver (k : LineIx) (limit : Nat) (reason : DropReason) : Nat → State → State
  | 0, s => s
  | fuel + 1, s =>
    if limit < (s.cap k).pinned then
      match (s.cap k).pins with
      | [] => s
      | p :: _ => dropOver k limit reason fuel (dropPin k p reason s)
    else s

/-- Discard every pin of the line, oldest first (R117). -/
def dropAllPins (k : LineIx) (reason : DropReason) (s : State) : State :=
  (s.cap k).pins.foldl (fun t p => dropPin k p reason t) s

/-- The id after an id: after 255 comes 1 (R108). -/
def nextId (id : Nat) : Nat := if id = 255 then 1 else id + 1

/-- The first id from `id` on that no pin of the list holds (R108). -/
def freeId (pins : List Pin) : Nat → Nat → Nat
  | 0, id => id
  | fuel + 1, id => if pins.any (fun p => p.id == id) then freeId pins fuel (nextId id) else id

end Sys2Proof.Machine
end

