-- ==== Sys2Proof/Machine/Capture.lean ====
section
/-! DEFINITION. The Capture Store (chapter 5): taking, unlinking and returning blocks, writing records, the open DATA
record, and the making of pins, which begins with a record. While a tick is run again, lines choose their blocks ahead of their
commands (R88, log entry 25); at all other times the plan is empty and no line does. -/

namespace Sys2Proof.Machine

/-! ## Blocks -/

/-- Payload bytes of a block (R79). -/
def payloadBytes : Nat := 2016

/-- The offset of a block in the pool region (R79). -/
def blockOffset (index : Nat) : Nat := (index - 1) * 2048

/-- Write one field of a block's header (R206), and with it the header's reserved bytes, as 0 (R194). -/
def writeHeader (index offset size value : Nat) (s : State) : State :=
  (s.store Regions.pool (blockOffset index + offset) (leBytes size value)).store Regions.pool (blockOffset index + 0x1E)
    (leBytes 2 0)

/-- The line's chain length, with the blocks that it has chosen ahead of its commands. -/
def State.lengthOf (s : State) (k : LineIx) : Nat :=
  (s.cap k).chain.length + (s.pool.plan.chosen.filter fun c => c.1 == k && c.2.isSome).length

/-- The free list without the blocks that lines have chosen ahead of their commands. -/
def State.freeLeft (s : State) : List Nat :=
  s.pool.free.filter fun index => !(s.pool.plan.chosen.any fun c => c.2 == some index)

/-- A line's unmet minimum (R81). -/
def State.unmet (s : State) (k : LineIx) : Nat :=
  if s.pool.blocks = 0 then 0 else (s.cfg k).quotaMin - s.lengthOf k

/-- The sum of a number over lines. -/
def sumLines (f : LineIx → Nat) : Nat := ((List.finRange 48).map f).sum

/-- The sum of the unmet minimums of the lines other than `k` (R88). -/
def State.unmetOthers (s : State) (k : LineIx) : Nat := sumLines fun j => if j = k then 0 else s.unmet j

/-- The sequences of a chain rise towards the next block sequence: the older a block, the further its sequence lies behind
(R82). -/
abbrev risesTo (next : Word32) (chain : List Block) : Prop :=
  chain.Pairwise fun a b => (next - b.sequence).toNat < (next - a.sequence).toNat

/-- The FILLING block of a chain: its newest block, while that is FILLING (R82, R83). -/
def fillingOf (chain : List Block) : Option Block :=
  match chain.getLast? with
  | some b => if b.filling then some b else none
  | none => none

/-- The index of the block that stands before a block in a chain, 0 if none. -/
def olderOf : List Block → Nat → Nat
  | a :: b :: bs, i => if b.index = i then a.index else olderOf (b :: bs) i
  | _, _ => 0

/-- The index of the block that stands after a block in a chain, 0 if none. -/
def newerOf : List Block → Nat → Nat
  | a :: b :: bs, i => if a.index = i then b.index else newerOf (b :: bs) i
  | _, _ => 0

/-- Unlink a block from the line's chain: its neighbours' links are written and it leaves the chain (R86). -/
def unlink (k : LineIx) (index : Nat) (s : State) : State :=
  let older := olderOf (s.cap k).chain index
  let newer := newerOf (s.cap k).chain index
  (((s.ifThen (older != 0) (writeHeader older 0x10 2 newer)).ifThen (newer != 0) (writeHeader newer 0x0E 2 older)).modCap k
    fun c => { c with chain := c.chain.filter fun b => b.index != index })

/-- Return a block to the tail of the free list (R86). -/
def returnBlock (k : LineIx) (s : State) (index : Nat) : State :=
  let t := writeHeader index 0x04 1 0 (unlink k index s)
  { t with pool := { t.pool with free := t.pool.free ++ [index] } }

/-- The oldest FILLED block of the line that no pin covers (R89). -/
def State.victim (s : State) (k : LineIx) : Option Nat :=
  ((s.cap k).chain.find? fun b => !b.filling && !pinnedBy (s.cap k).pins b).map Block.index

/-- The FILLING block becomes FILLED (step 1 of R85). -/
def sealFilling (k : LineIx) (s : State) : State :=
  match fillingOf (s.cap k).chain with
  | none => s
  | some b =>
    (writeHeader b.index 0x04 1 2 s).modCap k fun c => { c with chain := c.chain.map fun a => { a with filling := false } }

/-- The line has a spare block (R88). -/
def State.hasSpare (s : State) (k : LineIx) : Bool := decide (s.unmetOthers k + 1 ≤ s.freeLeft.length)

/-- The line's chain is at the quota max (R88). -/
def State.atMax (s : State) (k : LineIx) : Bool :=
  decide ((s.cfg k).quotaMin ≤ (s.cap k).chain.length) && decide ((s.cfg k).quotaMax ≤ (s.cap k).chain.length)

/-- The head of the free list, behind the blocks that lines have chosen ahead of their commands. -/
def State.freeHead (s : State) : Option Nat := (s.freeLeft ++ s.pool.free).head?

/-- The block of the free list that a take gives the line; none where it reclaims (R88). -/
def State.choice (s : State) (k : LineIx) (atMax : Bool) : Option Nat :=
  if atMax then none
  else if s.lengthOf k < (s.cfg k).quotaMin then s.freeHead
  else if s.hasSpare k then s.freeLeft.head? else none

/-- A line chooses ahead of its command. -/
def choose (s : State) (t : Take) : State :=
  { s with pool := { s.pool with plan := { s.pool.plan with
    chosen := s.pool.plan.chosen ++ [(t.line, s.choice t.line t.atMax)] } } }

/-- The takes behind the tick's `n`th that lines of a number below `k` are known to make and have not chosen for, in ascending
line number. -/
def Plan.ahead (p : Plan) (n : Nat) (k : LineIx) : List Take :=
  (List.finRange 48).flatMap fun j =>
    if j < k then
      ((p.takes.drop (n + 1)).filter fun t => t.line == j).drop (p.chosen.filter fun c => c.1 == j).length
    else []

/-- While a tick is run again, the lines of lower numbers that take behind line `k` choose before it (R88). -/
def chooseAhead (k : LineIx) (s : State) : State := (s.pool.plan.ahead s.pool.takes.length k).foldl choose s

/-- The block of the free list that the line's take gives it, by the choice that it made ahead or else by its choice now; none
where it reclaims (R88). -/
def State.grant (s : State) (k : LineIx) : Option Nat :=
  match s.pool.plan.chosen.lookup k with
  | none => s.choice k (s.atMax k)
  | some chosen =>
    let block := chosen.filter fun index => s.pool.free.contains index
    if s.atMax k then none
    else if (s.cap k).chain.length < (s.cfg k).quotaMin then block.or s.freeHead else block

/-- Join a block to the newest end of the line's chain: steps 3 and 4 of R85, then the OPEN pins are extended over
it (R112). -/
def joinBlock (k : LineIx) (index : Nat) (s : State) : State :=
  let sequence := (s.cap k).nextSequence
  let newest := match (s.cap k).chain.getLast? with | some b => b.index | none => 0
  let header := leBytes 4 sequence.toNat ++ [1, byteOf (lineNo k)] ++ leBytes 2 0 ++ leBytes 4 0 ++ leBytes 2 0 ++
    leBytes 2 newest ++ leBytes 2 0 ++ leBytes 6 0 ++ leBytes 6 0 ++ leBytes 2 0
  extendPins k sequence
    (((s.store Regions.pool (blockOffset index) header).ifThen (newest != 0) (writeHeader newest 0x10 2 index)).modCap k
      fun c => { c with
        chain := c.chain ++ [⟨index, sequence, true, 0, 0, 0, 0, 0⟩]
        nextSequence := c.nextSequence + 1 })

/-- A reclaim: the line's own block leaves its position and joins the newest end (R89). -/
def reclaimBlock (k : LineIx) (s : State) : State :=
  match s.victim k with
  | none => s
  | some index =>
    joinBlock k index ((unlink k index s).modCnt k fun c => { c with blocksReclaimed := satAdd c.blocksReclaimed 1 })

/-- The take that the line is about to make joins those of the tick, and the choice that it made ahead is spent. -/
def noteTake (k : LineIx) (s : State) : State :=
  { s with pool := { s.pool with
    takes := s.pool.takes ++ [⟨k, s.atMax k⟩]
    plan := { s.pool.plan with chosen := s.pool.plan.chosen.eraseP fun c => c.1 == k } } }

/-- The line takes a block (R85, R88, R89). Of lines that take at one tick the one of the lower number chooses first: that is
seen to when the tick ends (`endTick`). -/
def takeBlock (k : LineIx) (s0 : State) : State :=
  let s := chooseAhead k (sealFilling k s0)
  let t := noteTake k s
  match s.grant k with
  | some index => joinBlock k index { t with pool := { t.pool with free := t.pool.free.erase index } }
  | none => reclaimBlock k t

/-! ## Records -/

/-- The line needs a block for a record of this size (R87). -/
def State.needsBlock (s : State) (k : LineIx) (size : Nat) : Bool :=
  match fillingOf (s.cap k).chain with
  | none => true
  | some b => decide (payloadBytes - b.fill < size)

/-- A block after a record of this number and time was written into it (step 2 of R93). -/
def Block.withRecord (b : Block) (number : Word32) (r : Record) : Block :=
  { b with
    firstRecord := if b.records = 0 then number else b.firstRecord
    firstTime := if b.records = 0 then r.time else b.firstTime
    records := b.records + 1
    fill := b.fill + r.size
    lastTime := r.time }

/-- Change the newest block of a chain. -/
def onNewest (f : Block → Block) : List Block → List Block
  | [] => []
  | [b] => [f b]
  | b :: bs => b :: onNewest f bs

/-- Write a record into the line's FILLING block (steps 1 and 2 of R93). -/
def placeRecord (k : LineIx) (number : Word32) (r : Record) (s : State) : State :=
  match fillingOf (s.cap k).chain with
  | none => s
  | some b =>
    let c := b.withRecord number r
    let t := s.store Regions.pool (blockOffset b.index + 32 + b.fill) (recordBytes number r)
    let u := writeHeader b.index 0x18 6 c.lastTime (writeHeader b.index 0x0C 2 c.fill (writeHeader b.index 0x06 2 c.records t))
    let v := u.ifThen (b.records == 0)
      (fun w => writeHeader b.index 0x12 6 c.firstTime (writeHeader b.index 0x08 4 c.firstRecord.toNat w))
    v.modCap k fun p => { p with chain := onNewest (fun _ => c) p.chain }

/-- Number a record, take a block if it does not fit, and write it (R87, R92, R93). The open DATA record is not
touched. -/
def putRecord (k : LineIx) (r : Record) (s : State) : State :=
  let t := s.ifThen (s.needsBlock k r.size) (takeBlock k)
  let u := placeRecord k (t.cap k).nextRecord r t
  noteRecord k
    ((u.modCap k fun c => { c with nextRecord := c.nextRecord + 1 }).modCnt k
      fun c => { c with recordsClosed := satAdd c.recordsClosed 1 })

/-- Close the line's open DATA record, if one is open, and write it (R95). -/
def closeOpen (k : LineIx) (cause : CloseCause) (s : State) : State :=
  match (s.cap k).openRecord with
  | none => s
  | some o => putRecord k (dataRecord o cause) (s.modCap k fun c => { c with openRecord := none })

/-- Write a record of another kind: the open DATA record is closed first (R93, R96). -/
def record (k : LineIx) (r : Record) (s : State) : State := putRecord k r (closeOpen k .record s)

/-- The open record with a character appended (R94). -/
def OpenRecord.append (o : OpenRecord) (byte : Byte) (marks : Nat) : OpenRecord where
  bytes := o.bytes ++ [byte]
  time := o.time
  errors := min 255 (o.errors + marks)
  firstError := if o.errors = 0 ∧ marks ≠ 0 then o.bytes.length else o.firstError

/-- Append a character to the line's open DATA record, opening one if none is open (R94). -/
def appendChar (k : LineIx) (byte : Byte) (marks time : Nat) (s : State) : State :=
  s.modCap k fun c => { c with openRecord := some ((c.openRecord.getD ⟨[], time, 0, 0⟩).append byte marks) }

/-! ## CLEAR_CAPTURE and a lowered quota max -/

/-- The indices of the line's blocks that no pin covers, oldest first. -/
def State.unpinned (s : State) (k : LineIx) : List Nat :=
  ((s.cap k).chain.filter fun b => !pinnedBy (s.cap k).pins b).map Block.index

/-- Empty the line's history of what its pins do not protect; with `dropPins`, of everything (R98). The second part
is the number of blocks returned. -/
def clearCapture (k : LineIx) (dropPins : Bool) (s : State) : State × Nat :=
  let t := (closeOpen k .clear s).ifThen dropPins (dropAllPins k .cleared)
  ((t.unpinned k).foldl (returnBlock k) t, (t.unpinned k).length)

/-- Return the line's oldest unpinned FILLED blocks until its chain is no longer than `max` (R101). -/
def shrinkTo (k : LineIx) (max : Nat) : Nat → State → State
  | 0, s => s
  | fuel + 1, s =>
    if max < (s.cap k).chain.length then
      match s.victim k with
      | none => s
      | some index => shrinkTo k max fuel (returnBlock k s index)
    else s

/-- The quota changes of an accepted record, before it is in force (R44): pins for a lowered min, then blocks for a
lowered max. -/
def quotaChange (k : LineIx) (n : Settings) (s : State) : State :=
  let t := s.ifThen (decide (n.quotaMin < (s.cfg k).quotaMin))
    (dropOver k (n.quotaMin - 2) .quota (s.cap k).pins.length)
  shrinkTo k n.quotaMax (t.cap k).chain.length t

/-- The sum of all 48 unmet minimums with a new min for one line (R44). -/
def State.unmetWith (s : State) (k : LineIx) (newMin : Nat) : Nat :=
  sumLines fun j => if j = k then newMin - s.lengthOf k else s.unmet j

/-! ## Making a pin (R109, R110) -/

/-- The newest `n` blocks of a chain. -/
def newestBlocks (n : Nat) (chain : List Block) : List Block := chain.drop (chain.length - n)

/-- Discard the oldest pins while the new pin and the list pin more blocks than the budget (step 2 of R110). -/
def fitBudget (k : LineIx) (p : Pin) : Nat → State → State
  | 0, s => s
  | fuel + 1, s =>
    match (s.cap k).pins with
    | [] => s
    | q :: qs =>
      if s.budget k < pinnedCount (p :: q :: qs) (s.cap k).chain then fitBudget k p fuel (dropPin k q .budget s) else s

/-- Discard the oldest pin when the list holds four (step 1 of R110). -/
def dropOverflow (k : LineIx) (s : State) : State :=
  match (s.cap k).pins with
  | p :: ps => if 4 ≤ (p :: ps).length then dropPin k p .overflow s else s
  | [] => s

/-- Cut the new pin to the newest blocks the budget allows, when it stands alone and covers more (step 3 of R110). -/
def truncatePin (s : State) (k : LineIx) (p : Pin) : Pin :=
  if (s.cap k).pins.isEmpty && decide (s.budget k < pinnedCount [p] (s.cap k).chain) then
    match newestBlocks (s.budget k) (s.cap k).chain with
    | b :: _ => { p with first := b.sequence, truncated := true }
    | [] => { p with truncated := true }
  else p

/-- Make room for a new pin and place it (R110). -/
def placePin (k : LineIx) (p : Pin) (s : State) : State :=
  let t := dropOverflow k s
  let u := fitBudget k p (t.cap k).pins.length t
  u.modCap k fun c => { c with pins := c.pins ++ [truncatePin u k p] }

/-- The id the next pin of a line takes (R108). -/
def State.pinId (s : State) (k : LineIx) : Nat := freeId (s.cap k).pins 5 (s.cap k).nextPinId

/-- Create a pin with its MARK record (R109). The pattern is 0 for PIN_NOW. A chain that holds fewer blocks than the pin was asked
to cover leaves truncated clear, as the budget alone sets it (DESIGN CHOICE, log entry 38). -/
def createPin (k : LineIx) (pattern before after : Nat) (console : Console) (s : State) : State :=
  let id := s.pinId k
  let t := record k (markRecord pattern console id s.time) (s.modCap k fun c => { c with nextPinId := nextId id })
  match newestBlocks (before + 1) (t.cap k).chain, (t.cap k).chain.getLast? with
  | oldest :: _, some anchor =>
    placePin k ⟨id, pattern, oldest.sequence, anchor.sequence, after, false, s.time⟩ t
  | _, _ => t

end Sys2Proof.Machine
end

