-- ==== Sys2Proof/Machine/Front.lean ====
section
/-! DEFINITION. The Line Front End (chapter 2): roles and outputs, what the receiver reads of the wire, the
transmitter's output, and the cut of a received break. -/

namespace Sys2Proof.Machine

/-! ## Pins and roles (R17) -/

/-- What a data pin with no voltage driven onto it reads as: mark (R17), beyond no threshold (R31). -/
def undrivenData : DataPin := ⟨true, 0⟩

/-- What a signal pin with no voltage driven onto it reads as: deasserted (R17). -/
def undrivenSignal : Bool := false

/-- The receive data pin as it reads: B in role DTE, A in role DCE. -/
def receivePin (p : Pins) : Role → DataPin
  | .dte => p.b.getD undrivenData
  | .dce => p.a.getD undrivenData

/-- Device-ready as it reads: S3 in role DTE, S1 in role DCE. -/
def deviceReadyPin (p : Pins) : Role → Bool
  | .dte => p.s3.getD undrivenSignal
  | .dce => p.s1.getD undrivenSignal

/-- Clear-to-send as it reads: S4 in role DTE, S2 in role DCE. -/
def clearToSendPin (p : Pins) : Role → Bool
  | .dte => p.s4.getD undrivenSignal
  | .dce => p.s2.getD undrivenSignal

/-- The four readings of a sample, through the role and the threshold in force (R31). -/
def readPins (n : Settings) (p : Pins) : Readings where
  active := decide (n.threshold ≤ (receivePin p n.role).volts.val)
  mark := (receivePin p n.role).mark
  deviceReady := deviceReadyPin p n.role
  clearToSend := clearToSendPin p n.role

/-- Part-ready and request-to-send are asserted in every line state but OFF (R19). -/
def State.modemOutputs (s : State) (k : LineIx) : Bool := decide ((s.ctl k).state ≠ .off)

/-- The levels a line drives on its pins: A, B, S1 to S4, none for a pin it does not drive (R17, R19). `mark` is the
level of its transmit output. -/
structure DrivenPins where
  a : Option Bool
  b : Option Bool
  s1 : Option Bool
  s2 : Option Bool
  s3 : Option Bool
  s4 : Option Bool
deriving DecidableEq, Repr

/-! ## The transmit output -/

/-- The data bits of a byte, least significant first. -/
def bitsOf (b : Byte) : Nat → List Bool
  | 0 => []
  | n + 1 => bitsOf b n ++ [b.getLsbD n]

/-- How many of a list of bits are ones. -/
def ones (bits : List Bool) : Nat := (bits.filter id).length

/-- The parity bit sent after these data bits (R25). -/
def parityBit (p : Parity) (bits : List Bool) : List Bool :=
  match p with
  | .none => []
  | .even => [decide (ones bits % 2 = 1)]
  | .odd => [decide (ones bits % 2 = 0)]

/-- The levels of a character on the wire, one for each bit time: start, data, parity, stop (R25). -/
def characterBits (f : Frame) (byte : Byte) : List Bool :=
  [false] ++ bitsOf byte f.dataBits ++ parityBit f.parity (bitsOf byte f.dataBits) ++
    (if f.twoStop then [true, true] else [true])

/-- The level of the transmit output at a tick: mark unless a bit or a break stands at space (R17, R25, R26). -/
def Transmitter.level (t : Transmitter) (tick : Nat) : Bool :=
  match t with
  | .sending i => (characterBits i.frame i.byte).getD ((tick - i.start) / i.period) true
  | .spacing _ _ => false
  | _ => true

/-- What a line drives on its pins now (R17, R19). -/
def State.driven (s : State) (k : LineIx) : DrivenPins :=
  let level := (s.fe k).transmitter.level s.now
  let ready := s.modemOutputs k
  match (s.cfg k).role with
  | .dte => ⟨some level, none, some ready, some ready, none, none⟩
  | .dce => ⟨none, some level, none, none, some ready, some ready⟩

/-- The tick a character or probe ends: its start bit + F × P (R25). -/
def SentItem.ends (i : SentItem) : Nat := i.start + charTime i.frame i.period

/-- Change the transmitter of a line. -/
def setTransmitter (k : LineIx) (t : Transmitter) (s : State) : State := s.modFe k fun f => { f with transmitter := t }

/-! ## What the receiver reads -/

/-- The character time of a start edge. -/
def StartEdge.charTime (c : StartEdge) : Nat := Machine.charTime c.frame c.period

/-- The tick of the n-th bit's sample after the start bit; the start bit's own for 0 (R4). -/
def StartEdge.sampleAt (c : StartEdge) (n : Nat) : Nat := c.edge + c.period / 2 + n * c.period

/-- The tick of the first stop sample (R4). -/
def StartEdge.stopAt (c : StartEdge) : Nat := c.sampleAt (1 + c.frame.dataBits + c.frame.parityBits)

/-- The level of the input at a tick, from the edges since the start edge (true is mark). -/
def Wave.levelAt (w : Wave) (tick : Nat) : Bool :=
  match w.find? (fun e => decide (e.1 ≤ tick)) with
  | some e => e.2
  | none => false

/-- The input rose by a tick since the start edge. -/
def Wave.risenBy (w : Wave) (tick : Nat) : Bool := w.any fun e => e.2 && decide (e.1 ≤ tick)

/-- The input rose before a tick since the start edge. -/
def Wave.risenBefore (w : Wave) (tick : Nat) : Bool := w.any fun e => e.2 && decide (e.1 < tick)

/-- What a bit sample inside the frame reads; a free value when an edge falls on its very tick (log entry 5). -/
def bitSample (k : LineIx) (w : Wave) (tick : Nat) : Bool :=
  if w.any (fun e => e.1 == tick) then Config.sampleOnEdge k tick else w.levelAt tick

/-- The data samples, in the order they arrive (R4). -/
def dataSamples (k : LineIx) (c : StartEdge) (w : Wave) : List Bool :=
  (List.range c.frame.dataBits).map fun n => bitSample k w (c.sampleAt (n + 1))

/-- The parity sample, if the frame has one. -/
def paritySamples (k : LineIx) (c : StartEdge) (w : Wave) : List Bool :=
  (List.range c.frame.parityBits).map fun n => bitSample k w (c.sampleAt (c.frame.dataBits + 1 + n))

/-- The byte of data samples, least significant first (R21). -/
def byteOfBits : List Bool → Nat
  | [] => 0
  | b :: bs => bit b + 2 * byteOfBits bs

/-- The parity-error mark of data and parity samples (R21). -/
def parityError (p : Parity) (bits : List Bool) : Bool :=
  match p with
  | .none => false
  | .even => decide (ones bits % 2 = 1)
  | .odd => decide (ones bits % 2 = 0)

/-- A delivered character: its byte, its marks and the tick of its start edge (R21). -/
structure Character where
  byte : Byte
  parityError : Bool
  framingError : Bool
  edge : Nat
deriving DecidableEq, Repr

/-- The character the receiver assembles (R21). -/
def assemble (k : LineIx) (c : StartEdge) (w : Wave) (framingError : Bool) : Character where
  byte := byteOf (byteOfBits (dataSamples k c w))
  parityError := parityError c.frame.parity (dataSamples k c w ++ paritySamples k c w)
  framingError := framingError
  edge := c.edge

/-- The error marks a character carries. -/
def Character.marks (c : Character) : Nat := bit c.framingError + bit c.parityError

/-- Change the receiver of a line. -/
def setReceiver (k : LineIx) (r : Receiver) (s : State) : State := s.modFe k fun f => { f with receiver := r }

/-- The receiver begins to decode: IDLE at mark, WAIT_HIGH at space (R18, R20). -/
def Receiver.fresh (mark : Bool) : Receiver := if mark then .idle else .waitHigh

/-- The idle time of the line ends (R7). -/
def stopIdle (k : LineIx) (s : State) : State := s.modFe k fun f => { f with idle := none }

/-- The end of a received break: BREAK_IN and BREAK_SEEN, timed at the falling edge (R24, R57). -/
def reportBreak (k : LineIx) (c : StartEdge) (ended : Nat) (cut : Bool) (s : State) : State :=
  tell k .breakSeen (leBytes 8 (timeAt c.edge) ++ leBytes 4 (micros (ended - c.edge)))
    (record k (breakInRecord cut (micros (ended - c.edge)) (timeAt c.edge)) s)

/-- A received break in progress is cut off now (R6, R24). -/
def cutBreak (k : LineIx) (s : State) : State :=
  match (s.fe k).receiver with
  | .inBreak c _ => reportBreak k c s.now true (setReceiver k .waitHigh s)
  | _ => s

/-! ## Presence (R33) -/

/-- The raw presence from the readings of a sample, leaving the space-hold latch aside. -/
def rawPresence (source : PresenceSource) (r : Readings) : Bool :=
  match source with
  | .level => r.active
  | .ready => r.deviceReady
  | .either => r.active || r.deviceReady
  | .always => true

/-- Space hold takes effect: the latch is set and the view becomes absent (R35). -/
def setSpaceHold (k : LineIx) (s : State) : State :=
  s.modFe k fun f => { f with latch := true, view := false, contrary := 0, highRun := 0 }

/-- The tick at which space hold may act on a break, when the limit is nonzero (R35). -/
def State.spaceHoldDue (s : State) (k : LineIx) : Bool :=
  match (s.fe k).receiver with
  | .inBreak c rise =>
    let due := c.edge + (s.cfg k).darkBreak * ticksPerMilli
    (s.cfg k).darkBreak != 0 && decide (due ≤ s.now) &&
      (match rise with | none => true | some r => decide (due ≤ r + c.period))
  | _ => false

end Sys2Proof.Machine
end

