-- ==== Sys2Proof/Machine/Input.lean ====
section
/-! DEFINITION. The Input Path (chapter 8): the gate, the entry in flight, the hand-off, ends and cuts, the grant and
its timer, probes, and the reading of ring entries. -/

namespace Sys2Proof.Machine

/-! ## The grant timer (R148) -/

/-- The elapsed time of the grant timer, in ticks. -/
def State.grantTime (s : State) (k : LineIx) : Nat :=
  match (s.inp k).grantSince with
  | none => (s.inp k).grantElapsed
  | some t => (s.inp k).grantElapsed + (s.now - t)

/-- The grant timer should run: a timeout, a holder, an OPEN gate and no entry in flight. -/
def State.grantRuns (s : State) (k : LineIx) : Bool :=
  (s.cfg k).grantTimeout != 0 && (s.inp k).holder != 0 && !(s.inp k).gate.held && (s.inp k).entry.isNone

/-- The elapsed time becomes 0. -/
def restartGrant (k : LineIx) (s : State) : State :=
  s.modInp k fun i => { i with grantElapsed := 0, grantSince := i.grantSince.map fun _ => s.now }

/-- Start or stop the grant timer as its conditions now stand; with no timeout its elapsed time is 0. -/
def reviewGrant (k : LineIx) (s : State) : State :=
  s.modInp k fun i => { i with
    grantElapsed := if (s.cfg k).grantTimeout = 0 then 0 else if s.grantRuns k then i.grantElapsed else s.grantTime k
    grantSince := if s.grantRuns k then (match i.grantSince with | some t => some t | none => some s.now) else none }

/-- The grant has timed out: the timer runs and has reached the timeout. -/
def State.lapseDue (s : State) (k : LineIx) : Bool :=
  s.grantRuns k && decide ((s.cfg k).grantTimeout * ticksPerSecond ≤ s.grantTime k)

/-- Change the grant holder, with its GRANT record and notice (R147). -/
def changeHolder (k : LineIx) (holder : Nat) (cause : GrantCause) (s : State) : State :=
  let previous := (s.inp k).holder
  let t := (s.modInp k fun i => { i with holder := holder }).ifThen (holder != 0) (restartGrant k)
  tell k .grant [byteOf holder, byteOf previous, byteOf cause.code] (record k (grantRecord holder previous cause s.time) t)

/-! ## Probes (R162 to R164) -/

/-- The silence timer restarts. -/
def restartSilence (k : LineIx) (s : State) : State := s.modInp k fun i => { i with silence := s.now }

/-- The conditions of R162. -/
def State.probeConditions (s : State) (k : LineIx) : Bool :=
  (s.cfg k).probeInterval != 0 && (s.inp k).armed &&
    decide ((s.inp k).silence + (s.cfg k).probeInterval * ticksPerSecond ≤ s.now) && (s.inp k).entry.isNone &&
    (match (s.ctl k).state with
     | .live => decide ((s.mat k).console = .unknown) && !(s.inp k).gate.held
     | .seeking => decide ((s.inp k).gate = ⟨true, false, false, false⟩)
     | _ => false)

/-- A probe of the line is on the wire. -/
def State.probeOnWire (s : State) (k : LineIx) : Bool :=
  match (s.fe k).transmitter with
  | .sending i => i.probe
  | _ => false

/-- The period a probe is sent at: on a SEEKING line the Pt of the probe entry, otherwise the period in force
(R163). -/
def State.probePeriod (s : State) (k : LineIx) : Nat :=
  if (s.ctl k).state = .seeking then tablePeriod (s.cfg k).probeEntry else (s.ctl k).period

/-- The transmitter can start a character: it is IDLE and no flow pause stands (R25). -/
def State.canStart (s : State) (k : LineIx) : Bool :=
  decide ((s.fe k).transmitter = .idle) && !(s.fe k).flowPause

/-- A handed probe begins. -/
def startProbe (k : LineIx) (s : State) : State :=
  s.modFe k fun f => { f with
    probeHanded := false
    transmitter := .sending ⟨true, 0x0D#8, s.now, s.probePeriod k, (s.cfg k).frame⟩ }

/-- A handed probe is withdrawn; it stays armed and the silence timer restarts (R164). -/
def withdrawProbe (k : LineIx) (s : State) : State :=
  if (s.fe k).probeHanded then restartSilence k (s.modFe k fun f => { f with probeHanded := false }) else s

/-- A handed probe is withdrawn when a condition has ceased to hold, and begins when it can (R163, R164). -/
def reviewProbe (k : LineIx) (s : State) : State :=
  if (s.fe k).probeHanded then
    if s.probeConditions k then s.ifThen (s.canStart k) (startProbe k) else withdrawProbe k s
  else s

/-! ## The hand-off (R153, R155) -/

/-- Set the phase of the entry in flight. -/
def setEntryPhase (k : LineIx) (p : EntryPhase) (s : State) : State :=
  s.modInp k fun i => { i with entry := i.entry.map fun e => { e with phase := p } }

/-- The next key byte of an entry. -/
def InFlight.nextKey (e : InFlight) : Byte := e.keys.getD e.sent 0

/-- Hand the next item of an entry to the transmitter, where it begins at once (R153). -/
def handItem (k : LineIx) (e : InFlight) (s : State) : State :=
  if e.isBreak then setEntryPhase k .breaking (setTransmitter k (.spacing s.now e.duration) s)
  else setEntryPhase k .sending
    (setTransmitter k (.sending ⟨false, e.nextKey, s.now, (s.ctl k).period, (s.cfg k).frame⟩) s)

/-- Judge a hand-off: the gate first, then for a key byte the flow pause (R155). The pause time counts from
`since`. -/
def judgeHandOff (k : LineIx) (e : InFlight) (since : Nat) (s : State) : State :=
  if (s.inp k).gate.held then setEntryPhase k (.pausedGate since) s
  else if !e.isBreak && (s.fe k).flowPause then setEntryPhase k (.pausedFlow since) s
  else handItem k e s

/-- The pace gap before the next key byte has passed (R154). -/
def State.paced (s : State) (k : LineIx) : Bool :=
  match (s.inp k).lastKeyEnd with
  | none => true
  | some t => decide (t + (s.cfg k).paceGap * ticksPerMicro ≤ s.now)

/-- The waits before an entry's hand-off have ended and the transmitter is IDLE (R153). -/
def State.handOffReady (s : State) (k : LineIx) (e : InFlight) : Bool :=
  decide ((s.fe k).transmitter = .idle) && (e.isBreak || s.paced k)

/-- The tick the pause time of a paused entry began. -/
def EntryPhase.pausedSince : EntryPhase → Option Nat
  | .pausedGate t => some t
  | .pausedFlow t => some t
  | _ => none

/-- A paused entry reacts to the gate and the flow pause as they now stand (R155). Where a wait has been lengthened
while it was paused, it goes back to READY (log entry 13). -/
def resumeEntry (k : LineIx) (s : State) : State :=
  match (s.inp k).entry with
  | none => s
  | some e =>
    match e.phase.pausedSince with
    | none => s
    | some t =>
      if (s.inp k).gate.held || (!e.isBreak && (s.fe k).flowPause) || s.handOffReady k e then judgeHandOff k e t s
      else setEntryPhase k .ready s

/-- What a change of the gate, the flow pause, the console or the settings does to the line's input (R152, R155,
R164), once the change stands. -/
def settle (k : LineIx) (s : State) : State := reviewGrant k (reviewProbe k (resumeEntry k s))

/-! ## The end of an entry (R158, R161) -/

/-- The line has no entry in flight; the grant and silence timers restart (R148, R158, R162). -/
def dropEntry (k : LineIx) (s : State) : State :=
  restartSilence k (restartGrant k (s.modInp k fun i => { i with entry := none }))

/-- A KEYS entry ends with its INPUT record; one of length 0 writes none (R158). -/
def endKeys (k : LineIx) (e : InFlight) (cut : Option CutReason) (s : State) : State :=
  s.ifThen (!e.keys.isEmpty) (record k (inputRecord e.tag cut (e.keys.take e.sent) (timeAt e.taken)))

/-- The length an INPUT_CUT notice carries; a free value for a BREAK (log entry 6). -/
def InFlight.lengthByte (e : InFlight) : Byte :=
  if e.isBreak then Config.breakEntryLength e.position else byteOf e.keys.length

/-- Post INPUT_CUT for an entry (R165). -/
def tellCut (k : LineIx) (e : InFlight) (reason : CutReason) (s : State) : State :=
  tell k .inputCut
    (leBytes 4 e.position.toNat ++
      [byteOf e.tag, byteOf (if e.isBreak then kindBreak else kindKeys), byteOf e.sent, e.lengthByte, byteOf reason.code]) s

/-- A break on the wire is cut short: mark, RECOVERY, and the BREAK_OUT record with CUT (R27, R161). -/
def cutSentBreak (k : LineIx) (e : InFlight) (s : State) : State :=
  match (s.fe k).transmitter with
  | .spacing start _ =>
    record k (breakOutRecord true e.tag (micros (s.now - start)) (timeAt start))
      (setTransmitter k (.recovery (s.now + (s.ctl k).period)) s)
  | _ => s

/-- A character or probe on the wire is stopped (R27). A stopped probe stays armed; the silence timer restarts
(log entry 14). -/
def stopSending (k : LineIx) (s : State) : State :=
  match (s.fe k).transmitter with
  | .sending i => (setTransmitter k .idle s).ifThen i.probe (restartSilence k)
  | _ => s

/-- Cut the entry in flight, with what stands on the wire of it (R157, R158, R161). -/
def cutEntry (k : LineIx) (reason : CutReason) (s : State) : State :=
  match (s.inp k).entry with
  | none => stopSending k s
  | some e =>
    if e.isBreak then dropEntry k (tellCut k e reason (cutSentBreak k e s))
    else dropEntry k (tellCut k e reason (endKeys k e (some reason) (stopSending k s)))

/-- An entry ends complete. -/
def completeKeys (k : LineIx) (e : InFlight) (s : State) : State := dropEntry k (endKeys k e none s)

/-- After a key byte or a LINE_END: READY if bytes remain, otherwise the entry ends (R154). -/
def nextKeyOrEnd (k : LineIx) (e : InFlight) (s : State) : State :=
  if e.sent < e.keys.length then setEntryPhase k .ready s else completeKeys k e s

/-- The pause time of the entry in flight has reached the stall limit (R156). -/
def State.stallDue (s : State) (k : LineIx) : Bool :=
  match (s.inp k).entry with
  | none => false
  | some e =>
    match e.phase.pausedSince with
    | none => false
    | some t => (s.cfg k).stallLimit != 0 && decide (t + (s.cfg k).stallLimit * ticksPerSecond ≤ s.now)

/-! ## Ring entries (R142, R143, R145) -/

/-- The pending count (R143). -/
def State.pendingEntries (s : State) (k : LineIx) : Nat := ((s.inp k).produce - (s.inp k).consume).toNat

/-- The entry at the head of the line's ring, as the shared region now holds it (R142). -/
def State.head (s : State) (k : LineIx) : RingEntry :=
  parseEntry (s.load Regions.inputs (k.val * 2048 + (s.inp k).consume.toNat % 32 * 64) 64)

/-- The head is considered (R145). -/
def State.considers (s : State) (k : LineIx) : Bool :=
  decide (s.port.engine = .running) && decide ((s.ctl k).state ≠ .off) && decide (0 < s.pendingEntries k) &&
    (s.inp k).entry.isNone && !s.probeOnWire k

/-- The tag of an entry is good (R145). -/
def RingEntry.tagOk (r : RingEntry) : Bool := decide (1 ≤ r.tag ∧ r.tag ≤ 15)

/-- The entry at the head is consumed. -/
def consumeHead (k : LineIx) (s : State) : State := s.modInp k fun i => { i with consume := i.consume + 1 }

/-- The entry at the head is refused: consumed, counted and reported (R146). -/
def refuseHead (k : LineIx) (r : RingEntry) (reason : RefuseReason) (s : State) : State :=
  tell k .inputRefused
    (leBytes 4 (s.inp k).consume.toNat ++
      [byteOf r.tag, byteOf r.kind, byteOf reason.code, byteOf (if reason = .heldBy then (s.inp k).holder else 0)])
    ((consumeHead k s).modCnt k fun c => { c with entriesRefused := satAdd c.entriesRefused 1 })

/-- The entry at the head is taken as the entry in flight; a handed probe is withdrawn (R145, R164). -/
def takeHead (k : LineIx) (e : InFlight) (s : State) : State :=
  restartGrant k (consumeHead k ((withdrawProbe k s).modInp k fun i => { i with entry := some e }))

/-- The break policy allows a break of the holder (R160). -/
def policyAllows (p : BreakPolicy) (c : Console) : Bool :=
  match p with
  | .never => false
  | .holder => decide (c ≠ .prompt)
  | .any => true

/-- The resolved duration of a BREAK entry (R160). -/
def breakDurationOf (n : Settings) (duration : Nat) : Nat :=
  if duration = 0 then n.breakDuration else clamp 10 4000 duration

end Sys2Proof.Machine
end

