-- ==== Sys2Proof/Machine/Rate.lean ====
section
/-! DEFINITION. The Rate Finder (chapter 4): the wait list, giving and releasing channels, edges seen by a channel,
and the evaluation of a window. -/

namespace Sys2Proof.Machine

/-- 2,000 ms in ticks: the window timer (R62, R68). -/
def windowTicks : Nat := 96000000

/-- A channel just given to a line, or restarted (R62, R75). -/
def Channel.awaiting (k : LineIx) (now : Nat) : Channel where
  line := k
  collecting := false
  evaluated := 0
  previous := none
  previousWidths := []
  previousMultiples := []
  current := []
  lowStart := none
  timer := now + windowTicks
  since := now

/-- The FREE channel with the lowest number. -/
def State.freeChannel (s : State) : Option (Fin 4) := (List.finRange 4).find? fun i => s.rate.channels[i].isNone

/-- A channel serves this line. -/
def servesLine (k : LineIx) : Option Channel → Bool
  | some c => decide (c.line = k)
  | none => false

/-- The channel that serves a line. -/
def State.channelOf (s : State) (k : LineIx) : Option (Fin 4) :=
  (List.finRange 4).find? fun i => servesLine k s.rate.channels[i]

/-- Set a channel. -/
def setChannel (i : Fin 4) (c : Option Channel) (s : State) : State :=
  s.modRate fun r => { r with channels := upd r.channels i fun _ => c }

/-- Give the lowest FREE channel to the head of the wait list, while both exist (R67). -/
def grantChannels : Nat → State → State
  | 0, s => s
  | fuel + 1, s =>
    match s.freeChannel, s.rate.wait with
    | some i, k :: rest =>
      grantChannels fuel
        ((setChannel i (some (Channel.awaiting k s.now))
          (s.modRate fun r => { r with wait := rest, granted := upd r.granted k fun _ => some s.now })).setPhase k .measuring)
    | _, _ => s

/-- The grants of one tick: at most one for each channel. -/
def grants (s : State) : State := grantChannels 4 s

/-- Line `k` stands before line `j` on the wait list: it joined earlier, or at the same tick with the lower number (R64). -/
def State.standsBefore (s : State) (k j : LineIx) : Bool :=
  match s.rate.joined[k], s.rate.joined[j] with
  | some t, some u => decide (t < u) || decide (t = u) && decide (k < j)
  | _, _ => false

/-- A wait list with `k` put before the first line that it stands before, at the tail if there is none. -/
def insertWaiting (before : LineIx → Bool) (k : LineIx) : List LineIx → List LineIx
  | [] => [k]
  | j :: js => if before j then k :: j :: js else j :: insertWaiting before k js

/-- A line stands at its place on the wait list, and is QUEUED (R63, R64). -/
def standInLine (k : LineIx) (s : State) : State :=
  (s.modRate fun r => { r with wait := insertWaiting (s.standsBefore k) k r.wait }).setPhase k .queued

/-- A line joins the tail of the wait list, in ascending number among the lines that join at this tick (R64). -/
def queueUp (k : LineIx) (s : State) : State :=
  standInLine k (s.modRate fun r => { r with joined := upd r.joined k fun _ => some s.now })

/-- A channel given at this tick is FREE again, and its line stands on the wait list where it stood. -/
def takeBack (s : State) (i : Fin 4) : State :=
  match s.rate.channels[i] with
  | none => s
  | some c =>
    s.ifThen (decide (s.rate.granted[c.line] = some s.now) && !s.rate.wait.contains c.line) fun t =>
      standInLine c.line (setChannel i none t)

/-- The grants of this tick are undone: a channel given at this tick has measured nothing yet. All joins and releases of a tick
come before its grants, so that their order has no effect (R67; log entry 25). -/
def takeBacks (s : State) : State := (List.finRange 4).foldl takeBack s

/-- A line joins the wait list and channels are given (R64, R65, R67). A line that stands on the list keeps its place. -/
def joinTail (k : LineIx) (s : State) : State :=
  let t := takeBacks s
  grants (if k ∈ t.rate.wait then t.setPhase k .queued else queueUp k t)

/-- The line's channel becomes FREE. -/
def releaseChannel (k : LineIx) (s : State) : State :=
  match s.channelOf k with
  | none => s
  | some i => setChannel i none s

/-- The line leaves measurement, from the wait list or its channel, with the phase it enters, and channels are given (R67, R70,
R72 to R74). -/
def leaveMeasurement (k : LineIx) (p : Phase) (s : State) : State :=
  grants (((releaseChannel k (takeBacks s)).modRate fun r => { r with wait := r.wait.filter fun j => j ≠ k }).setPhase k p)

/-- A RELOCK restarts a measurement (R75). -/
def restartMeasurement (k : LineIx) (s : State) : State :=
  match s.phaseOf k with
  | .measuring =>
    match s.channelOf k with
    | none => s
    | some i => setChannel i (some (Channel.awaiting k s.now)) s
  | .edgeWait => joinTail k s
  | _ => s

/-- A falling edge in a channel: it starts a window after the tick AWAIT_EDGE was entered, or is the low start
(R68, R69). -/
def Channel.falling (c : Channel) (now : Nat) : Channel :=
  if c.collecting then { c with lowStart := some now }
  else if c.since < now then
    { c with collecting := true, current := [], lowStart := some now, timer := now + windowTicks }
  else c

/-- A rising edge in a channel: the low is judged and, if accepted, appended (R10, R69). A complete window takes no
more. -/
def Channel.rising (c : Channel) (n : Settings) (now : Nat) : Channel :=
  if c.collecting then
    match c.lowStart with
    | none => c
    | some t =>
      { c with
        lowStart := none
        current := if acceptsWidth n.mask n.deglitch (now - t) && decide (c.current.length < 12)
          then c.current ++ [now - t] else c.current }
  else c

/-- Change the channel that serves a line. -/
def onChannel (k : LineIx) (f : Channel → Channel) (s : State) : State :=
  match s.channelOf k with
  | none => s
  | some i => setChannel i (s.rate.channels[i].map f) s

/-- What an evaluated window decides (R71). -/
inductive Verdict where
  | lock (period : Nat)
  | failure
  | continue
deriving DecidableEq, Repr

/-- The result of the complete window of a channel, under the settings in force (R71). -/
def Channel.result (c : Channel) (n : Settings) : WindowResult := windowResult n.mask n.tolerance c.current

/-- The decision of R71 on a complete window. -/
def Channel.verdict (c : Channel) (n : Settings) : Verdict :=
  match c.result n, c.previous with
  | .entry a, some (.entry b) =>
    if a = b then
      .lock (proposedPeriod n.rateMode a (c.previousWidths.sum + c.current.sum)
        (c.previousMultiples.sum + (windowMultiples (.entry a) c.current).sum))
    else if 6 ≤ c.evaluated + 1 then .failure else .continue
  | _, _ => if 6 ≤ c.evaluated + 1 then .failure else .continue

/-- The channel after a window that decides nothing (step 3 of R71). -/
def Channel.continued (c : Channel) (n : Settings) (now : Nat) : Channel :=
  { c with
    collecting := false
    evaluated := c.evaluated + 1
    previous := some (c.result n)
    previousWidths := c.current
    previousMultiples := windowMultiples (c.result n) c.current
    current := []
    lowStart := none
    timer := now + windowTicks
    since := now }

end Sys2Proof.Machine
end

