-- ==== Sys2Proof/Machine/Match.lean ====
section
/-! DEFINITION. The Match Engine (chapter 7): byte equality, progress, activity, console states and the handling of
completions. -/

namespace Sys2Proof.Machine

/-- A byte with its letter case folded: 41h–5Ah become 61h–7Ah (R125). -/
def foldCase (b : Byte) : Byte := if 0x41 ≤ b.toNat ∧ b.toNat ≤ 0x5A then b + 0x20#8 else b

/-- The equality of a slot (R125). -/
def Pattern.same (p : Pattern) (a b : Byte) : Bool :=
  if p.fold then decide (foldCase a = foldCase b) else decide (a = b)

/-- Two byte strings are equal under the slot's equality. -/
def Pattern.sameAll (p : Pattern) : List Byte → List Byte → Bool
  | [], [] => true
  | a :: as, b :: bs => p.same a b && p.sameAll as bs
  | _, _ => false

/-- The largest q up to a bound for which the pattern's first q bytes end the text (R126). -/
def Pattern.longest (p : Pattern) (text : List Byte) : Nat → Nat
  | 0 => 0
  | q + 1 =>
    if p.sameAll (p.bytes.take (q + 1)) (text.drop (text.length - (q + 1))) then q + 1 else p.longest text q

/-- One step of an ANYWHERE pattern: the new progress, and whether it completes (R126). The last bytes of the history
are the pattern's own first bytes, so the text is those and the byte. -/
def Pattern.stepAnywhere (p : Pattern) (progress : Nat) (byte : Byte) : Nat × Bool :=
  let text := p.bytes.take progress ++ [byte]
  if progress + 1 = p.length ∧ p.sameAll p.bytes text then (0, true)
  else (p.longest text (min (progress + 1) (p.length - 1)), false)

/-- One step of a LINE_START pattern (R127). -/
def Pattern.stepLineStart (p : Pattern) (progress : Nat) (lineStart : Bool) (byte : Byte) : Nat × Bool :=
  if 0 < progress ∧ p.same (p.bytes.getD progress 0) byte then
    if progress + 1 = p.length then (0, true) else (progress + 1, false)
  else if lineStart ∧ p.same (p.bytes.getD 0 0) byte then
    if p.length = 1 then (0, true) else (1, false)
  else (0, false)

/-- The console state is in the pattern's filter (R121). -/
def Pattern.holds (p : Pattern) (c : Console) : Bool := p.filter.getLsbD c.code

/-- The pattern is active on a line in a console state (R122). -/
def Pattern.active (p : Pattern) (k : LineIx) (c : Console) : Bool :=
  p.length != 0 && p.mask.getLsbD k.val && p.holds c

/-- One pattern advanced over a byte of a line; an inactive one stays at 0 (R122, R130). -/
def advanceSlot (p : Pattern) (k : LineIx) (m : MatchLine) (progress : Nat) (byte : Byte) : Nat × Bool :=
  if p.active k m.console then
    if p.lineStart then p.stepLineStart progress m.lineStart byte else p.stepAnywhere progress byte
  else (0, false)

/-- What each slot makes of a byte (R130). -/
def State.advanced (s : State) (k : LineIx) (byte : Byte) (i : Fin 32) : Nat × Bool :=
  advanceSlot s.engine.table[i] k (s.mat k) (s.mat k).progress[i] byte

/-- The slots that complete on a byte, in ascending number (R131). -/
def State.completing (s : State) (k : LineIx) (byte : Byte) : List (Fin 32) :=
  (List.finRange 32).filter fun i => (s.advanced k byte i).2

/-- The progress of every slot over a byte (R130). -/
def advanceAll (k : LineIx) (byte : Byte) (s : State) : State :=
  s.modMat k fun m => { m with progress := tab fun i => (s.advanced k byte i).1 }

/-- The line's progress is reset for every pattern (R129). -/
def resetProgress (k : LineIx) (s : State) : State :=
  s.modMat k fun m => { m with progress := Vector.replicate 32 0 }

/-- The line-start flag becomes true (R128). -/
def setLineStart (k : LineIx) (s : State) : State := s.modMat k fun m => { m with lineStart := true }

/-- The BOOT reason stands as the console state and the boot hold setting say (R138). -/
def reviewBoot (k : LineIx) (s : State) : State :=
  s.modInp k fun i => { i with gate := { i.gate with
    boot := decide ((s.mat k).console = .booting) && (s.cfg k).bootHold } }

/-- The console state is set (R137): progress of patterns that leave their filter is reset, and BOOT follows. -/
def setConsoleState (k : LineIx) (c : Console) (s : State) : State :=
  if (s.mat k).console = c then s
  else reviewBoot k (s.modMat k fun m => { m with
    console := c
    progress := tab fun i =>
      if s.engine.table[i].holds m.console && !s.engine.table[i].holds c then 0 else m.progress[i] })

/-- The reason PATTERN is added or removed (R135). -/
def setPatternHold (k : LineIx) (hold : Bool) (s : State) : State :=
  s.modInp k fun i => { i with gate := { i.gate with pattern := hold } }

/-- The console state a completed pattern leaves (R133). -/
def Pattern.consoleAfter (p : Pattern) (c : Console) : Console := if p.actState then p.target else c

/-- The MARK record and the pin of a completed pattern (R111, R133). The second part is the pin's id, 0 for none. -/
def markCompletion (k : LineIx) (i : Fin 32) (p : Pattern) (s : State) : State × Nat :=
  let console := p.consoleAfter (s.mat k).console
  if p.actPin && s.budget k != 0 then (createPin k (i.val + 1) p.before p.after console s, s.pinId k)
  else if p.actPin || p.actMark then (record k (markRecord (i.val + 1) console 0 s.time) s, 0)
  else (s, 0)

/-- The actions of one completed pattern, in the order of R132. -/
def handleCompletion (k : LineIx) (number : Word32) (s : State) (i : Fin 32) : State :=
  let p := s.engine.table[i]
  let marked := markCompletion k i p s
  let t := marked.1.ifThen p.actState (setConsoleState k p.target)
  let u := (t.ifThen p.actHold (setPatternHold k true)).ifThen p.actOpen (setPatternHold k false)
  u.ifThen p.actNotice
    (tell k .match ([byteOf (i.val + 1), byteOf (u.mat k).console.code, byteOf marked.2, 0] ++ leBytes 4 number.toNat))

/-- The flag after a delivered byte: true after CR and LF (R128). -/
def endsLine (byte : Byte) : Bool := decide (byte = 0x0D#8) || decide (byte = 0x0A#8)

/-- The Match Engine advances the line's patterns over a byte that stands in the open record, closes the record when
one completes, carries out the completions and, when none completes, closes a full record (R95, R130 to R136). -/
def matchByte (k : LineIx) (byte : Byte) (s : State) : State :=
  let done := s.completing k byte
  let t := (advanceAll k byte s).modMat k fun m => { m with lineStart := endsLine byte }
  match done with
  | [] =>
    match (t.cap k).openRecord with
    | some o => t.ifThen (decide (240 ≤ o.bytes.length)) (closeOpen k .full)
    | none => t
  | _ :: _ => done.foldl (handleCompletion k (t.cap k).nextRecord) (closeOpen k .match t)

end Sys2Proof.Machine
end

