-- ==== Sys2Proof/Machine/Control.lean ====
section
/-! DEFINITION. Line Control (chapter 3): line states and their choice, locks and failures, error windows, presence,
delivered characters, and what a CONFIGURE does. -/

namespace Sys2Proof.Machine

/-! ## States, periods, records -/

/-- The line enters a line state (R19, R20, R38, R150, R162): the gate reason NOT_LIVE and the receiver follow, and the
silence timer restarts on entry into LIVE or SEEKING. A break in progress is cut by the caller beforehand. -/
def enterState (k : LineIx) (state : LineState) (s : State) : State :=
  ((s.modCtl k fun c => { c with state := state }).modInp k fun i =>
    { i with
      gate := { i.gate with notLive := !state.decoding }
      silence := if (state = .live ∨ state = .seeking) ∧ state ≠ (s.ctl k).state then s.now else i.silence }).modFe k
    fun f =>
      if state.decoding then
        if (s.ctl k).state.decoding then f else { f with receiver := Receiver.fresh f.mark, idle := none }
      else { f with receiver := .stopped, idle := none }

/-- Write a LINE record (R59). -/
def writeLine (k : LineIx) (state : LineState) (cause : LineCause) (s : State) : State :=
  record k (lineRecord state cause s.time) s

/-- The period value becomes `p`, with its lock cause and its RATE record (R39). -/
def setPeriod (k : LineIx) (p : Nat) (cause : LockCause) (s : State) : State :=
  record k (rateRecord p cause s.time) (s.modCtl k fun c => { c with period := p, lockCause := cause })

/-- The error history and the current window are emptied (R54). -/
def emptyHistory (k : LineIx) (s : State) : State :=
  s.modCtl k fun c => { c with windowChars := 0, windowErrors := 0, history := [] }

/-- A rate change on the Match Engine's side: progress is reset and the line-start flag set (R39, R128, R129). -/
def rateChanged (k : LineIx) (s : State) : State := setLineStart k (resetProgress k s)

/-- The line comes to a present state from OFF or DARK: histories are emptied, the line-start flag is set and the
probe is re-armed (R40, R128, R164). A line that comes to CHECKING is re-armed too, though R164 says "on either" of a LIVE and a
SEEKING line (DESIGN CHOICE, log entry 45). -/
def becomePresent (k : LineIx) (s : State) : State :=
  (setLineStart k (emptyHistory k s)).modInp k fun i => { i with armed := true }

/-- Post LINE_UP or LINE_DOWN (R59). -/
def tellLine (k : LineIx) (kind : NoticeKind) (state : LineState) (cause : LineCause) (s : State) : State :=
  tell k kind [byteOf state.code, byteOf cause.code] s

/-- Choose the line's state, with the LINE record of the event, any RATE record, and LINE_UP (R40, R41, R50). -/
def chooseState (k : LineIx) (cause : LineCause) (s : State) : State :=
  if (s.fe k).view then
    match (s.cfg k).rateMode.auto, (s.ctl k).remembered with
    | false, _ =>
      tellLine k .lineUp .live cause
        (setPeriod k (s.cfg k).fixedPeriod .fixed (writeLine k .live cause (enterState k .live (becomePresent k s))))
    | true, some p =>
      tellLine k .lineUp .checking cause
        (joinTail k (setPeriod k p .locked (writeLine k .checking cause (enterState k .checking (becomePresent k s)))))
    | true, none =>
      tellLine k .lineUp .seeking cause
        ((writeLine k .seeking cause
          ((enterState k .seeking (becomePresent k s)).modCtl k fun c => { c with lockCause := .none })).setPhase k .edgeWait)
  else writeLine k .dark cause (enterState k .dark s)

/-! ## Leaving a state (R42, R49, R60) -/

/-- Steps 1 to 4 of R42: the break is cut, the open record closed, the entry cut, the flow pause cleared, the
measurement abandoned. -/
def cleanUp (k : LineIx) (close : CloseCause) (cut : CutReason) (s : State) : State :=
  leaveMeasurement k .none
    ((cutEntry k cut (closeOpen k close (cutBreak k s))).modFe k fun f => { f with flowPause := false })

/-- The line goes to OFF or DARK: clean-up, the state, its LINE record, and LINE_DOWN if it was present. R42, R49 and R158 put the
record of the cut entry before the LINE record. At HALT, where R60 lists the two without an order, the model keeps that one
(DESIGN CHOICE, log entry 43). -/
def leaveLine (k : LineIx) (left : LineState) (cause : LineCause) (close : CloseCause) (cut : CutReason) (s : State) :
    State :=
  (writeLine k left cause (resetProgress k (enterState k left (cleanUp k close cut s)))).ifThen (s.ctl k).state.present
    (tellLine k .lineDown left cause)

/-- A presence lost report (R49). -/
def losePresence (k : LineIx) (cause : LineCause) (s : State) : State :=
  s.ifThen (s.ctl k).state.present (leaveLine k .dark cause .presence .dark)

/-- A presence gained report (R50). -/
def gainPresence (k : LineIx) (s : State) : State :=
  s.ifThen (decide ((s.ctl k).state = .dark)) fun s => chooseState k .presenceGained (setConsoleState k .unknown s)

/-! ## Measurements (R45, R47, R51 to R53) -/

/-- A LIVE line enters CHECKING: CHECK_BEGUN with its cause (0 ERRORS, 1 RELOCK, 2 CONFIGURE), and the tail of the wait
list (R45, R47, R55). -/
def beginCheck (k : LineIx) (cause : Nat) (s : State) : State :=
  joinTail k
    (tell k .checkBegun (leBytes 4 (s.ctl k).period ++ [byteOf cause])
      (emptyHistory k (enterState k .checking s)))

/-- Post RATE_LOCKED with the period in force and the outcome (0 LOCKED, 1 CONFIRMED, 2 CHANGED) (R59). -/
def tellLocked (k : LineIx) (outcome : Nat) (s : State) : State :=
  tell k .rateLocked
    (leBytes 4 (s.ctl k).period ++ [byteOf (reportedEntry (s.ctl k).period), byteOf outcome]) s

/-- The remembered lock becomes the period in force (R56). -/
def rememberLock (k : LineIx) (s : State) : State := s.modCtl k fun c => { c with remembered := some c.period }

/-- A lock for the line (R51, R52). -/
def lockLine (k : LineIx) (proposed : Nat) (s : State) : State :=
  match (s.ctl k).state with
  | .seeking =>
    tellLocked k 0
      (rateChanged k (emptyHistory k (rememberLock k (setPeriod k proposed .locked (enterState k .live s)))))
  | .checking =>
    if lockAgrees (s.cfg k).rateMode (s.cfg k).tolerance (s.ctl k).period proposed then
      tellLocked k 1 (rememberLock k (enterState k .live s))
    else
      tellLocked k 2
        (rateChanged k (emptyHistory k (rememberLock k
          (setPeriod k proposed .changed (closeOpen k .rate (enterState k .live s))))))
  | _ => s

/-- A failure for the line (R53, R73): the phase follows the state, and RATE_FAILED is posted. -/
def failLine (k : LineIx) (s : State) : State :=
  let t := match (s.ctl k).state with
    | .checking => enterState k .live s
    | _ => s
  tell k .rateFailed (leBytes 4 (t.ctl k).period ++ [byteOf (t.ctl k).state.code]) t

/-! ## Error windows (R54, R55) -/

/-- Post NOISY, on or off, with an error count. -/
def tellNoisy (k : LineIx) (on : Bool) (errors : Nat) (s : State) : State :=
  tell k .noisy ([byteOf (bit on), 0] ++ leBytes 2 errors) s

/-- How many verdicts are BAD. -/
def badCount (history : List Bool) : Nat := (history.filter id).length

/-- The test of R55 after a verdict, decided by a window of `errors` errors. -/
def testHistory (k : LineIx) (errors : Nat) (s : State) : State :=
  let c := s.ctl k
  if c.state = .live then
    if c.settings.rateMode.auto then s.ifThen (decide (2 ≤ badCount c.history)) (beginCheck k 0)
    else if 2 ≤ badCount c.history ∧ c.noisy = false then
      tellNoisy k true errors (s.modCtl k fun c => { c with noisy := true })
    else if c.history = [false, false, false] ∧ c.noisy = true then
      tellNoisy k false errors (s.modCtl k fun c => { c with noisy := false })
    else s
  else s

/-- The history with a verdict appended: the last three are kept (R54). -/
def appendVerdict (history : List Bool) (bad : Bool) : List Bool :=
  (history ++ [bad]).drop ((history ++ [bad]).length - 3)

/-- A character is counted and its marks join the current window, which is judged at 256 characters (R54, R58). -/
def countCharacter (k : LineIx) (c : Character) (s0 : State) : State :=
  let s := (s0.modCnt k fun n => { n with
      bytesReceived := satAdd n.bytesReceived 1
      framingErrors := satAdd n.framingErrors (bit c.framingError)
      parityErrors := satAdd n.parityErrors (bit c.parityError) }).modCtl k
    fun l => { l with windowChars := l.windowChars + 1, windowErrors := l.windowErrors + c.marks }
  if 256 ≤ (s.ctl k).windowChars then
    let errors := (s.ctl k).windowErrors
    testHistory k errors (s.modCtl k fun l => { l with
      windowChars := 0
      windowErrors := 0
      history := appendVerdict l.history (decide (l.settings.errorLimit ≤ errors)) })
  else s

/-! ## Delivered characters (R22) -/

/-- The character is absorbed by SOFT flow control: XOFF or XON without a mark (R22). -/
def absorbed (flow : Flow) (c : Character) : Bool :=
  decide (flow = .soft) && decide (c.marks = 0) && (decide (c.byte = 0x13#8) || decide (c.byte = 0x11#8))

/-- A delivered CR or LF ends a LINE_END under echo wait (R154). -/
def echoSeen (k : LineIx) (byte : Byte) (s : State) : State :=
  match (s.inp k).entry with
  | none => s
  | some e =>
    match e.phase with
    | .lineEnd _ => s.ifThen ((s.cfg k).echoWait && endsLine byte) (nextKeyOrEnd k e)
    | _ => s

/-- A delivered character goes to flow handling, or is counted, captured and matched, in that order (R22). The idle
time restarts in both cases, at the later of edge + C and this tick (R7); of a frame held back too, which R7 would time from
this tick alone (DEDUCED, log entry 27). The records of completed patterns come before the INPUT record of an entry whose
echo wait the byte ends (DESIGN CHOICE, log entry 34). -/
def deliver (k : LineIx) (c : Character) (charTime : Nat) (s : State) : State :=
  let t := s.modFe k fun f => { f with idle := some ⟨max (c.edge + charTime) s.now, charTime⟩ }
  if absorbed (s.cfg k).flow c then t.modFe k fun f => { f with flowPause := decide (c.byte = 0x13#8) }
  else
    (echoSeen k c.byte
      (matchByte k c.byte (appendChar k c.byte c.marks (timeAt c.edge) (countCharacter k c t)))).ifThen
      (decide ((s.ctl k).state = .live)) fun u => u.modInp k fun i => { i with armed := true }

/-! ## The 1 ms sample (R31 to R36) -/

/-- An edge selection includes a rise or a fall (R32). -/
def EdgeSelect.includes (e : EdgeSelect) (rise : Bool) : Bool :=
  match e with
  | .none => false
  | .rise => rise
  | .fall => !rise
  | .both => true

/-- Post SIGNAL for one input if it changed and the selection includes the edge (R32). -/
def tellSignal (k : LineIx) (signal : Nat) (selection : EdgeSelect) (before after : Bool) (r : Readings) (s : State) :
    State :=
  s.ifThen (before != after && selection.includes after)
    (tell k .signal [byteOf signal, byteOf (if after then 1 else 2),
      byteOf (bit r.deviceReady + 2 * bit r.clearToSend + 4 * bit r.active)])

/-- Compare the modem inputs with the previous sample, if there is one and the line is not OFF (R32). -/
def sampleSignals (k : LineIx) (r : Readings) (s : State) : State :=
  let p := (s.fe k).readings
  s.ifThen (s.port.sampled.isSome && decide ((s.ctl k).state ≠ .off)) fun t =>
    tellSignal k 1 (s.cfg k).clearEdges p.clearToSend r.clearToSend r
      (tellSignal k 0 (s.cfg k).readyEdges p.deviceReady r.deviceReady r t)

/-- HARD flow follows clear-to-send while the line is not OFF (R29). -/
def sampleFlow (k : LineIx) (r : Readings) (s : State) : State :=
  s.ifThen (decide ((s.cfg k).flow = .hard) && decide ((s.ctl k).state ≠ .off))
    fun t => t.modFe k fun f => { f with flowPause := !r.clearToSend }

/-- The view takes a value and the change is reported (R34, R36). -/
def changeView (k : LineIx) (present : Bool) (s : State) : State :=
  let t := s.modFe k fun f => { f with view := present, contrary := 0 }
  if present then gainPresence k t else losePresence k .presenceLost t

/-- The presence filter at a sample, while no space hold stands (R34). -/
def samplePresence (k : LineIx) (r : Readings) (s : State) : State :=
  let raw := rawPresence (s.cfg k).source r
  if raw = (s.fe k).view then s.modFe k fun f => { f with contrary := 0 }
  else if (s.cfg k).settle ≤ (s.fe k).contrary + 1 then changeView k raw s
  else s.modFe k fun f => { f with contrary := f.contrary + 1 }

/-- Recovery from space hold at a sample (R36). -/
def sampleLatch (k : LineIx) (r : Readings) (s : State) : State :=
  let run := if r.mark then (s.fe k).highRun + 1 else 0
  if (s.cfg k).settle ≤ run then
    let t := s.modFe k fun f => { f with latch := false, highRun := 0, contrary := 0 }
    t.ifThen (rawPresence (s.cfg k).source r) (changeView k true)
  else s.modFe k fun f => { f with highRun := run, contrary := 0 }

/-- One line's part of the 1 ms sample. -/
def sampleLine (p : Vector Pins 48) (s : State) (k : LineIx) : State :=
  let r := readPins (s.cfg k) p[k]
  let t := sampleFlow k r ((sampleSignals k r s).modFe k fun f => { f with readings := r })
  settle k
    (if (t.ctl k).state = .off then t else if (t.fe k).latch then sampleLatch k r t else samplePresence k r t)

/-! ## CONFIGURE (R43 to R46) -/

/-- The settings record of a line, as the shared region now holds it (R175). -/
def State.settingsRecord (s : State) (k : LineIx) : List Byte := s.load Regions.lineTable ((k.val + 1) * 512) 64

/-- The settings a record resolves to, or the refusal and its detail (R43, R44). -/
def State.checkSettings (s : State) (k : LineIx) : Except (AnswerCode × Nat) Settings :=
  match parseSettings (s.settingsRecord k) with
  | .error n => .error (.badArgument, n)
  | .ok n =>
    if (s.cfg k).quotaMin < n.quotaMin ∧ s.freeLeft.length < s.unmetWith k n.quotaMin then
      .error (.noRoom, s.unmetWith k n.quotaMin - s.freeLeft.length)
    else .ok n

/-- Settings are taken into force after their quota changes (R44, R45); BOOT follows boot hold (R138). -/
def takeSettings (k : LineIx) (n : Settings) (s : State) : State :=
  reviewBoot k ((quotaChange k n s).modCtl k fun c => { c with settings := n })

/-- The flow pause after a CONFIGURE on a line that is not OFF (R30). -/
def flowAfter (old new : Flow) (pause clearToSend : Bool) : Bool :=
  match new with
  | .none => false
  | .soft => if old = .soft then pause else false
  | .hard => !clearToSend

/-- A change of role stops the character or probe being sent and cuts the break being sent; a stopped key byte remains
the entry's next (R18, R27). -/
def stopForRole (k : LineIx) (s : State) : State :=
  match (s.fe k).transmitter, (s.inp k).entry with
  | .spacing _ _, some e => dropEntry k (cutSentBreak k e s)
  | .sending i, some _ => (stopSending k s).ifThen (!i.probe) (setEntryPhase k .ready)
  | _, _ => stopSending k s

/-- What a change of role does on the wire (R18): the break received is cut, the item sent is stopped or cut, the
receiver starts afresh on the new signal, and a channel starts its measurement again (R75). A new signal that reads space
where the old read mark makes no falling edge for the Input Path (DESIGN CHOICE, log entry 30). The BREAK_IN record of the break
received comes before the BREAK_OUT record of the break sent, which no rule orders (DESIGN CHOICE, log entry 37). -/
def changeRole (k : LineIx) (mark : Bool) (s : State) : State :=
  let u := stopForRole k (cutBreak k s)
  let v := u.modFe k fun f => { f with
    mark := mark
    idle := none
    receiver := if (u.ctl k).state.decoding then Receiver.fresh mark else f.receiver }
  v.ifThen (decide (v.phaseOf k = .measuring)) (restartMeasurement k)

/-- The reaction of the line's state and rate mode (R45). -/
def configureRate (k : LineIx) (oldMode : RateMode) (s : State) : State :=
  let n := s.cfg k
  let changed := decide ((s.ctl k).period ≠ n.fixedPeriod)
  match (s.ctl k).state, oldMode.auto, n.rateMode.auto with
  | .seeking, _, false =>
    setPeriod k n.fixedPeriod .configure (enterState k .live (leaveMeasurement k .none s))
  | .checking, _, false =>
    (enterState k .live (leaveMeasurement k .none s)).ifThen changed (setPeriod k n.fixedPeriod .configure)
  | .live, _, false => s.ifThen changed (setPeriod k n.fixedPeriod .configure)
  | .live, false, true => beginCheck k 2 s
  | _, _, _ => s

/-- The remembered lock and the noisy flag under a CONFIGURE (R45, R55, R56). Every CONFIGURE to FIXED clears the remembered
lock, also one from FIXED, as R56 words it (DEDUCED, log entry 32). -/
def configureMode (k : LineIx) (oldMode : RateMode) (s : State) : State :=
  match oldMode.auto, (s.cfg k).rateMode.auto with
  | _, false => s.modCtl k fun c => { c with remembered := none }
  | false, true =>
    s.ifThen (s.ctl k).noisy fun t => tellNoisy k false 0 (t.modCtl k fun c => { c with noisy := false })
  | true, true => s

/-- The effects of a change of period, frame or role on a decoding line, before any RATE record (R46). -/
def configureDecoding (k : LineIx) (period frame role : Bool) (s : State) : State :=
  s.ifThen ((s.ctl k).state.decoding && (period || frame || role)) fun t =>
    ((resetProgress k (closeOpen k .settings t)).ifThen (period || frame) (emptyHistory k)).ifThen period (setLineStart k)

/-- The effects of changed settings on the front end: the flow pause and the presence filter (R30, R34). -/
def configureFront (k : LineIx) (o : Settings) (s : State) : State :=
  let n := s.cfg k
  s.modFe k fun f => { f with
    flowPause := if (s.ctl k).state = .off then false else flowAfter o.flow n.flow f.flowPause f.readings.clearToSend
    contrary := if o.source = n.source ∧ o.threshold = n.threshold ∧ o.settle = n.settle then f.contrary else 0 }

/-- The timers whose limit a CONFIGURE may have passed: space hold, stall, the grant, the DATA notice (R35, R148, R156,
R190). Space hold acts after the reaction of R45 (DESIGN CHOICE, log entry 33), and a passed stall limit cuts the entry
before the end of its pause is judged (DESIGN CHOICE, log entry 35). The records come in the order RATE, INPUT, GRANT (DESIGN
CHOICE, log entry 37). A new DATA interval acts on the timer behind the records that the settings,
the role and the rate bring (the DATA record closed, BREAK_IN, BREAK_OUT, RATE), which meet the new interval, and before those of
the limits that have passed (of space hold, with its LINE record; INPUT of the stall; GRANT) (DESIGN CHOICE, log entry 41). -/
def configureTimers (k : LineIx) (o : Settings) (s : State) : State :=
  let t := s.ifThen (decide (o.dataInterval ≠ (s.cfg k).dataInterval)) (dataIntervalChanged k)
  let u := t.ifThen (decide (o.darkBreak ≠ (s.cfg k).darkBreak) && t.spaceHoldDue k)
    fun v => losePresence k .spaceHold (setSpaceHold k v)
  let w := settle k (u.ifThen (decide (o.stallLimit ≠ (s.cfg k).stallLimit) && u.stallDue k) (cutEntry k .stall))
  w.ifThen (decide (o.grantTimeout ≠ (s.cfg k).grantTimeout) && w.lapseDue k)
    fun v => settle k (changeHolder k 0 .lapse v)

/-- An accepted CONFIGURE (R45, R46). A change of role acts on the wire before the period value changes, so that the RECOVERY
of a break it cuts runs the old period (DESIGN CHOICE, log entry 29). The settings are in force first: the records it writes
meet the new DATA interval before that acts on the timer (DESIGN CHOICE, log entry 41). -/
def configureLine (k : LineIx) (mark : Bool) (n : Settings) (s : State) : State :=
  let o := s.cfg k
  let t := takeSettings k n s
  let period := (t.ctl k).state.present && !n.rateMode.auto && decide ((t.ctl k).period ≠ n.fixedPeriod)
  let role := decide (o.role ≠ n.role)
  let u := (configureDecoding k period (decide (o.frame ≠ n.frame)) role t).ifThen role (changeRole k mark)
  configureTimers k o (configureFront k o (configureMode k o.rateMode (configureRate k o.rateMode u)))

/-- An accepted ENABLE (R41). The raw presence at the latest sample is found by the new source alone, from the readings of that
sample, taken under the old role and threshold, whether or not the space-hold latch of R33 stood then (DESIGN CHOICE, log entry
31). The DATA timer stays as it is where the record changes the interval, its pending flag too: R190 speaks of CONFIGURE only
(DESIGN CHOICE, log entry 36). -/
def enableLine (k : LineIx) (mark : Bool) (n : Settings) (s : State) : State :=
  let t := (takeSettings k n s).modFe k fun f => { f with
    mark := mark
    view := rawPresence n.source f.readings
    contrary := 0
    latch := false
    highRun := 0 }
  settle k (chooseState k .enable t)

end Sys2Proof.Machine
end

