-- ==== Sys2Proof/Machine/Port.lean ====
section
/-! DEFINITION. The Engine Port (chapter 9): the beginning of looks, the hand-over of counts, START, and the status records
with their versions. -/

namespace Sys2Proof.Machine

/-! ## Status records (R175, R176, R200, R202) -/

/-- A part-written field of a line table entry: its offset, its size in bytes and its value. -/
structure StatusField where
  offset : Nat
  size : Nat
  value : Nat
deriving DecidableEq, Repr

/-- The answer fields of an entry (R200, R202). -/
def answerFields (p : PortEntry) : List StatusField :=
  [⟨0x84, 4, p.answered.toNat⟩, ⟨0x88, 1, p.code.code⟩, ⟨0x8C, 4, p.detail⟩]

/-- The part-written fields of the control entry (R202). -/
def State.controlFields (s : State) : List StatusField :=
  answerFields s.port.entries[(0 : EntryIx)] ++
    [⟨0x90, 4, s.pool.blocks⟩, ⟨0x94, 4, s.pool.free.length⟩, ⟨0x98, 4, s.engine.loads⟩]

/-- One pin record at its place in the pin list (R200). -/
def pinFields (base : Nat) (p : Pin) : List StatusField :=
  [⟨base, 1, p.id⟩, ⟨base + 1, 1, p.pattern⟩, ⟨base + 2, 1, p.remaining⟩, ⟨base + 3, 1, p.flags⟩,
    ⟨base + 4, 4, p.first.toNat⟩, ⟨base + 8, 4, p.last.toNat⟩, ⟨base + 0x10, 8, p.time⟩]

/-- A pin slot at or beyond the pin count is written 0 (R194). -/
def noPin : Pin := ⟨0, 0, 0, 0, 0, false, 0⟩

/-- The four slots of the pin list (R200). -/
def pinListFields (pins : List Pin) : List StatusField :=
  pinFields 0x100 (pins.getD 0 noPin) ++ pinFields 0x118 (pins.getD 1 noPin) ++ pinFields 0x130 (pins.getD 2 noPin) ++
    pinFields 0x148 (pins.getD 3 noPin)

/-- The index of a block that may be absent; 0 names no block (R79). -/
def indexOf : Option Block → Nat
  | some b => b.index
  | none => 0

/-- The channel shown for a line, 0 for none (R63). -/
def State.channelNumber (s : State) (k : LineIx) : Nat :=
  match s.channelOf k with
  | some i => i.val + 1
  | none => 0

/-- The windows evaluated count shown for a line (R63). -/
def State.windowsShown (s : State) (k : LineIx) : Nat :=
  match s.channelOf k with
  | some i => match s.rate.channels[i] with | some c => c.evaluated | none => 0
  | none => 0

/-- The eight counters, in the order of R58. -/
def counterFields (c : Counters) : List StatusField :=
  [⟨0xB8, 4, c.bytesReceived⟩, ⟨0xBC, 4, c.recordsClosed⟩, ⟨0xC0, 4, c.framingErrors⟩, ⟨0xC4, 4, c.parityErrors⟩,
    ⟨0xC8, 4, c.breaksReceived⟩, ⟨0xCC, 4, c.bytesSent⟩, ⟨0xD0, 4, c.entriesRefused⟩, ⟨0xD4, 4, c.blocksReclaimed⟩]

/-- What Line Control and the Rate Finder show of a line (R200, 90h to 9Eh). -/
def State.rateFields (s : State) (k : LineIx) : List StatusField :=
  let c := s.ctl k
  [⟨0x90, 1, c.state.code⟩, ⟨0x91, 1, (s.mat k).console.code⟩, ⟨0x92, 1, reportedEntry c.period⟩,
    ⟨0x93, 1, c.lockCause.code⟩, ⟨0x94, 4, c.period⟩, ⟨0x98, 1, bit c.remembered.isSome⟩,
    ⟨0x99, 1, (s.phaseOf k).code⟩, ⟨0x9A, 1, s.channelNumber k⟩, ⟨0x9B, 1, s.windowsShown k⟩,
    ⟨0x9C, 1, c.history.length⟩, ⟨0x9D, 1, verdictBits c.history⟩, ⟨0x9E, 1, bit c.noisy⟩]

/-- What the Input Path and the Capture Store show of a line (R200, 9Fh to B7h). -/
def State.captureFields (s : State) (k : LineIx) : List StatusField :=
  let i := s.inp k
  let c := s.cap k
  [⟨0x9F, 1, i.holder⟩, ⟨0xA0, 1, i.gate.bits⟩, ⟨0xA1, 1, c.pins.length⟩, ⟨0xA2, 2, c.pinned⟩,
    ⟨0xA4, 4, i.consume.toNat⟩, ⟨0xA8, 2, indexOf c.chain.head?⟩, ⟨0xAA, 2, indexOf c.chain.getLast?⟩,
    ⟨0xAC, 2, c.chain.length⟩, ⟨0xB0, 4, c.nextRecord.toNat⟩, ⟨0xB4, 4, c.nextSequence.toNat⟩]

/-- A line's notice summary (R188, R200). -/
def summaryFields (u : Summary) : List StatusField :=
  [⟨0xD8, 4, u.kinds.toNat⟩, ⟨0xDC, 4, u.count⟩, ⟨0xE0, 8, u.firstTime⟩]

/-- The part-written fields of a line's entry, but for its version (R200). -/
def State.lineFields (s : State) (k : LineIx) : List StatusField :=
  answerFields s.port.entries[entryOf k] ++ s.rateFields k ++ s.captureFields k ++ counterFields (s.cnt k) ++
    summaryFields s.notice.summaries[entryOf k] ++ pinListFields (s.cap k).pins

/-- The part-written fields of an entry, but for its version, in rising offsets. -/
def State.statusFields (s : State) (i : EntryIx) : List StatusField :=
  if h : i.val = 0 then s.controlFields else s.lineFields ⟨i.val - 1, by omega⟩

/-- The bytes of a part-written area from an offset to its end at 200h: a field that `fresh` says is written holds its
value, another the bytes it held, and bytes of no field are 0 (R194). `old` is what stands from the offset on. -/
def layFields (fresh : StatusField → Bool) : Nat → List Byte → List StatusField → List Byte
  | here, _, [] => List.replicate (0x200 - here) 0
  | here, old, f :: fs =>
    let held := old.drop (f.offset - here)
    List.replicate (f.offset - here) 0 ++ (if fresh f then leBytes f.size f.value else held.take f.size) ++
      layFields fresh (f.offset + f.size) (held.drop f.size) fs

/-- The version an entry shows after a change at this tick: one bracket for all changes of a tick (R176). -/
def PortEntry.versionAt (p : PortEntry) (now : Nat) : Word32 :=
  if p.bracket = some now then p.version else p.version + 2

/-- The line an entry belongs to; none for the control entry. -/
def lineOf (i : EntryIx) : Option LineIx := if h : i.val = 0 then none else some ⟨i.val - 1, by omega⟩

/-- A field of a slot of the pin list at or beyond the pin count: every write of the status writes it, as 0 (R194). -/
def State.beyondPins (s : State) (i : EntryIx) (f : StatusField) : Bool :=
  match lineOf i with
  | none => false
  | some k => decide (0x100 + 24 * (s.cap k).pins.length ≤ f.offset)

/-- Write an entry's status within a version bracket: the fields that `fresh` names, the slots beyond the pin count, and the
version (R176, R194). -/
def writeStatus (fresh : StatusField → Bool) (i : EntryIx) (s : State) : State :=
  let version := s.port.entries[i].versionAt s.now
  let fields := ⟨0x80, 4, version.toNat⟩ :: s.statusFields i
  let old := s.load Regions.lineTable (i.val * 512 + 0x80) 0x180
  (s.store Regions.lineTable (i.val * 512 + 0x80)
      (layFields (fun f => decide (f.offset = 0x80) || fresh f || s.beyondPins i f) 0x80 old fields)).modPort
    fun p => { p with entries := upd p.entries i fun q => { q with version := version, bracket := some s.now } }

/-- The request slot of an entry as memory now holds it (R199). -/
def State.requestSlot (s : State) (i : EntryIx) : Request :=
  let b := s.load Regions.lineTable (i.val * 512 + 0x40) 32
  ⟨i, BitVec.ofNat 32 (field b 0 4), byteAt b 4, b.drop 8⟩

/-- The control answer is new and DONE, and its request is LOAD_PATTERNS: a load was accepted (R124). -/
def State.loadAccepted (before s : State) : Bool :=
  decide (before.port.entries[(0 : EntryIx)].answered ≠ s.port.entries[(0 : EntryIx)].answered) &&
    decide (s.port.entries[(0 : EntryIx)].code = .done) && (before.requestSlot 0).kind == kindLoadPatterns

/-- A field that its event writes even where its value stays: the code and the detail of an answer (R179), the ends and the
length of a chain that a block has joined or left (R85, R86), the next record number and the records-closed counter behind a
record (R93), the pin count, the pinned count and the pin list with every change of a pin (R106, R110, R114, R119), a notice
summary with every change of it (R188, R189), and the load count behind every accepted load (R124). -/
def State.rewritten (before s : State) (i : EntryIx) (f : StatusField) : Bool :=
  decide (before.port.entries[i].answered ≠ s.port.entries[i].answered) && [0x88, 0x8C].contains f.offset ||
    match lineOf i with
    | none => before.loadAccepted s && f.offset == 0x98
    | some k =>
      decide ((before.cap k).chain.map Block.index ≠ (s.cap k).chain.map Block.index) &&
          [0xA8, 0xAA, 0xAC].contains f.offset ||
        decide ((before.cap k).nextRecord ≠ (s.cap k).nextRecord) && [0xB0, 0xBC].contains f.offset ||
        decide ((before.cap k).pins ≠ (s.cap k).pins) &&
          ([0xA1, 0xA2].contains f.offset || decide (0x100 ≤ f.offset)) ||
        decide (before.notice.summaries[i] ≠ s.notice.summaries[i]) && [0xD8, 0xDC, 0xE0].contains f.offset

/-- Write the fields of one entry that differ from what they were in `before` (R176), and those that an event of the command
writes again. A field that changes and changes back within the command counts as unchanged (DESIGN CHOICE, log entry 9). -/
def publishEntry (before : State) (s : State) (i : EntryIx) : State :=
  if before.statusFields i = s.statusFields i then s
  else writeStatus (fun f => !(before.statusFields i).contains f || before.rewritten s i f) i s

/-- The status records follow what a command changed, while a line table is in force. -/
def publish (before after : State) : State :=
  if after.port.regions.isSome then (List.finRange 49).foldl (publishEntry before) after else after

/-! ## Looks (R177, R178, R181) -/

/-- The scan period in ticks (R181). -/
def scanTicks (selector : Nat) : Nat := 2 ^ selector * ticksPerMilli

/-- The entry among two whose look comes first: the earlier deadline, then the lower number. -/
def earlier (s : State) (best : Option EntryIx) (i : EntryIx) : Option EntryIx :=
  if s.port.entries[i].deadline ≤ s.now then
    match best with
    | none => some i
    | some b => if s.port.entries[i].deadline < s.port.entries[b].deadline then some i else some b
  else best

/-- The entry the look reader takes: the earliest deadline reached, otherwise the lowest number of the prompt set
(R178). -/
def State.nextLook (s : State) : Option EntryIx :=
  match (List.finRange 49).foldl (earlier s) none with
  | some i => some i
  | none => (List.finRange 49).find? fun i => s.port.prompts[i]

/-- The look reader is free: RUNNING, and no look in progress (R178). -/
def State.readerFree (s : State) : Bool := decide (s.port.engine = .running) && s.port.look.isNone

/-- A look at an entry begins (R178). -/
def beginLook (i : EntryIx) (s : State) : State :=
  s.modPort fun p => { p with
    look := some ⟨i, s.now, false⟩
    prompts := upd p.prompts i fun _ => false
    entries := upd p.entries i fun q => { q with deadline := s.now + scanTicks p.scan, lastLook := some s.now } }

/-- A produce count as a look read it: more than 32 pending entries resynchronise the ring (R143, R144). -/
def handProduce (k : LineIx) (count : Word32) (s : State) : State :=
  let t := s.modInp k fun i => { i with produce := count }
  if 32 < t.pendingEntries k then
    (tell k .inputOverrun (leBytes 4 count.toNat ++ leBytes 4 (s.inp k).consume.toNat) t).modInp k
      fun i => { i with consume := count }
  else t

/-- The notice consume count as a look read it; summaries are delivered (R186, R189). -/
def handConsume (count : Word32) (s : State) : State :=
  deliverSummaries (s.modNotice fun n => { n with consume := count })

/-- The count a look read goes to its block (R178). -/
def handCount (i : EntryIx) (count : Word32) (s : State) : State :=
  match lineOf i with
  | none => handConsume count s
  | some k => handProduce k count s

/-- A 32-bit field of an entry of the line table. -/
def State.entryWord (s : State) (i : EntryIx) (offset : Nat) : Word32 :=
  BitVec.ofNat 32 (leValue (s.load Regions.lineTable (i.val * 512 + offset) 4))

/-! ## START (R171 to R173) -/

/-- One entry of the region directory (R196). -/
def directoryEntry (b : List Byte) (n : Nat) : Region := ⟨field b (8 * n) 4, field b (8 * n + 4) 4⟩

/-- Two regions share a byte. -/
def Region.meets (a b : Region) : Bool := decide (a.base ≤ b.base + b.limit) && decide (b.base ≤ a.base + a.limit)

/-- The bytes 0 to 63 of the directory itself. -/
def directoryRegion : Region := ⟨0, 63⟩

/-- The notice capacities of R172. -/
def goodCapacity (n : Nat) : Bool := [256, 512, 1024, 2048, 4096].contains n

/-- The first check of R172 that an entry fails. `lower` holds the regions of the lower-numbered entries, and
`smallest` is none for entry 5. -/
def checkEntry (r : Region) (align : Nat) (capacityOk : Bool) (smallest : Option Nat) (lower : List Region) :
    Option Nat :=
  if regionBytes ≤ r.base + r.limit then some 1
  else if r.base % align ≠ 0 then some 2
  else if !capacityOk then some 3
  else if (match smallest with | some n => decide (r.limit + 1 < n) | none => false) then some 4
  else if r.meets directoryRegion || lower.any r.meets then some 5
  else none

/-- The checks of all entries in ascending order: the entry and check that fail first (R172). -/
def checkDirectory (r : Regions) (capacity : Nat) : Option (Nat × Nat) :=
  [ (1, checkEntry r.lineTable 512 true (some 25088) []),
    (2, checkEntry r.patterns 64 true (some 2048) [r.lineTable]),
    (3, checkEntry r.ring 32 (goodCapacity capacity) (some (capacity * 32)) [r.lineTable, r.patterns]),
    (4, checkEntry r.inputs 2048 true (some 98304) [r.lineTable, r.patterns, r.ring]),
    (5, checkEntry r.pool 2048 true none [r.lineTable, r.patterns, r.ring, r.inputs]) ].findSome?
    fun c => c.2.map fun check => (c.1, check)

/-- The regions the directory at offset 0 gives. -/
def State.directory (s : State) : Regions :=
  let b := s.mem.slice 0 64
  ⟨directoryEntry b 1, directoryEntry b 2, directoryEntry b 3, directoryEntry b 4, directoryEntry b 5⟩

/-- The pool size N of a pool region (R79). -/
def poolBlocks (r : Region) : Nat := min 15872 ((r.limit + 1) / 2048)

/-- The notice capacity as the control entry of a line table holds it (R202). -/
def State.capacityAt (s : State) (table : Region) : Nat := leValue (s.mem.slice (table.base + 4) 4)

/-- The scan selector as the control entry of a line table holds it, above 7 taken as 7 (R181, R202). -/
def State.selectorAt (s : State) (table : Region) : Nat := min 7 (leValue (s.mem.slice table.base 1))

/-- The refusal of a directory: the result and its detail; none when it is accepted (R172). -/
def State.startRefusal (s : State) : Option (CommandResult × Nat) :=
  let r := s.directory
  match checkDirectory r (s.capacityAt r.lineTable) with
  | some (entry, check) => some (.badDirectory, entry + 16 * check)
  | none => if poolBlocks r.pool < 128 then some (.poolTooSmall, poolBlocks r.pool) else none

/-- The front end at START (R37). -/
def FrontEnd.started (f : FrontEnd) : FrontEnd :=
  { f with receiver := .stopped, idle := none, transmitter := .idle, probeHanded := false, flowPause := false }

/-- Line Control at a START that keeps (R61). -/
def Control.kept (c : Control) : Control :=
  { c with state := .off, windowChars := 0, windowErrors := 0, history := [] }

/-- The Capture Store and the Pin Unit at a fresh START (R103, R120). -/
def Pool.fresh (blocks : Nat) : Pool where
  blocks := blocks
  free := List.range' 1 blocks
  takes := []
  lines := Vector.replicate 48 Capture.reset

/-- The Match Engine's line at a START that keeps (R141). -/
def MatchLine.kept (m : MatchLine) : MatchLine := { m with progress := Vector.replicate 32 0, lineStart := true }

/-- The Input Path's line at a START (R166): both counts at the count read, and the silence timer at 0. -/
def InputLine.started (count : Word32) (now : Nat) : InputLine :=
  { InputLine.reset with produce := count, consume := count, silence := now }

/-- What a START that keeps leaves of the Input Path's line (R166). -/
def InputLine.kept (i : InputLine) (boot : Bool) (count : Word32) (now : Nat) : InputLine :=
  { InputLine.started count now with holder := i.holder, gate := { i.gate with notLive := true, boot := boot } }

/-- The columns of START without KEEP (R37, R61, R78, R105, R120, R141, R166). -/
def freshBlocks (blocks : Nat) (s : State) : State :=
  { s with
    control := Vector.replicate 48 Control.reset
    counters := Vector.replicate 48 Counters.zero
    front := tab fun k => (s.fe k).started
    rate := RateFinder.reset
    pool := Pool.fresh blocks
    engine := MatchEngine.reset
    input := tab fun k => InputLine.started (s.entryWord (entryOf k) 0x60) s.now }

/-- The columns of START with KEEP. -/
def keptBlocks (s : State) : State :=
  { s with
    control := tab fun k => (s.ctl k).kept
    front := tab fun k => (s.fe k).started
    rate := RateFinder.reset
    pool := { s.pool with lines := tab fun k => { s.cap k with openRecord := none } }
    engine := { s.engine with lines := tab fun k => (s.mat k).kept }
    input := tab fun k =>
      (s.inp k).kept (decide ((s.mat k).console = .booting) && (s.cfg k).bootHold) (s.entryWord (entryOf k) 0x60) s.now }

/-- The Notice Unit at an accepted START (R193). -/
def NoticeUnit.started (n : NoticeUnit) (capacity : Nat) (count : Word32) : NoticeUnit :=
  { NoticeUnit.reset with
    capacity := some capacity
    produce := count
    consume := count
    attention := n.attention
    interrupts := n.interrupts }

/-- An entry of the Engine Port at an accepted START (R171 step 5, R184). The looks of an earlier run are forgotten (DESIGN
CHOICE, log entry 39). -/
def PortEntry.started (p : PortEntry) (number : Word32) (now : Nat) : PortEntry :=
  { p with answered := number, code := .none, detail := 0, deadline := now, lastLook := none }

/-- The Engine Port once a START is accepted (R171, R173, R184). A look that a HALT discarded and that has not ended is over
(DESIGN CHOICE, log entry 40). -/
def EnginePort.started (p : EnginePort) (r : Regions) (keeps : Bool) (selector : Nat) (number : EntryIx → Word32)
    (now : Nat) : EnginePort :=
  { p with
    engine := .running
    result := if p.keepFlag && !keeps then .keptNothing else .started
    detail := 0
    kept := keeps
    regions := some r
    lastPool := some r.pool
    scan := selector
    prompts := Vector.replicate 49 false
    look := none
    entries := tab fun i => p.entries[i].started (number i) now }

/-- A START being carried out keeps the capture (R173). -/
def State.startKeeps (s : State) : Bool := s.port.keepFlag && decide (s.port.lastPool = some s.directory.pool)

/-- What an accepted START makes of the state, but for the status records it writes (R171). The regions are in force
first, so that the line table is read through them. -/
def startedState (s : State) : State :=
  let r := s.directory
  let t := s.modPort fun p => { p with regions := some r }
  let u := if s.startKeeps then keptBlocks t else freshBlocks (poolBlocks r.pool) t
  { u with
    notice := u.notice.started (s.capacityAt r.lineTable) (t.entryWord 0 0x60)
    port := s.port.started r s.startKeeps (s.selectorAt r.lineTable) (fun i => t.entryWord i 0x40) s.now }

/-- An accepted START, steps 2 to 7 of R171: every status record is written. -/
def acceptStart (s : State) : State :=
  (List.finRange 49).foldl (fun t i => writeStatus (fun _ => true) i t) (startedState s)

/-- STARTING ends (R171). The record of the tick begins anew behind a START that does not keep, which leaves no take of before. -/
def endStarting (s : State) : State :=
  match s.startRefusal with
  | some (result, detail) => s.modPort fun p => { p with engine := .halted, result := result, detail := detail }
  | none =>
    let t := acceptStart s
    if s.startKeeps then t else { t with ran := [], start := t.toPart }

/-- HALTING ends once every line is OFF (R174). -/
def endHalting (s : State) : State :=
  s.ifThen s.allOff fun t => t.modPort fun p => { p with engine := .halted, result := .stopped, detail := 0 }

end Sys2Proof.Machine
end

