-- ==== Sys2Proof/Machine/Lifecycle.lean ====
section
/-! DEFINITION. The work of the commands of the registers, the resets, START and HALT, and the beginning of a look (chapter 9, R60, R182
to R184, R192). -/

namespace Sys2Proof.Machine

/-- The last command result becomes `r`, the detail stays (R170). -/
def ignoreCommand (r : CommandResult) (s : State) : State := s.modPort fun p => { p with result := r }

/-- START, by the engine state (R170, R171). -/
def startEngine (keep : Bool) (s : State) : State :=
  match s.port.engine with
  | .halted => s.modPort fun p => { p with engine := .starting, keepFlag := keep }
  | .running => ignoreCommand .ignoredRunning s
  | _ => ignoreCommand .ignoredBusy s

/-- HALTING begins: a look in progress will be discarded when it ends, and with every line OFF HALTING ends at once (R174). -/
def beginHalting (s : State) : State :=
  endHalting (s.modPort fun p => { p with
    engine := .halting
    look := p.look.map fun l => { l with discarded := true } })

/-- HALT, by the engine state (R170, R174). -/
def haltEngine (s : State) : State :=
  match s.port.engine with
  | .halted => s
  | .running => beginHalting s
  | _ => ignoreCommand .ignoredBusy s

/-- A line is taken to OFF while HALTING (R60). -/
def haltLine (k : LineIx) (s : State) : State :=
  if s.port.engine = .halting ∧ (s.ctl k).state ≠ .off then
    endHalting (settle k (leaveLine k .off .halt .stop .halted s))
  else s

/-- A value written to PROMPT joins the prompt set; one above 48 is ignored (R177). -/
def addPrompt (value : Word32) (s : State) : State :=
  if h : value.toNat < 49 then
    s.modPort fun p => { p with prompts := upd p.prompts ⟨value.toNat, h⟩ fun _ => true }
  else s

/-- A write of ATTENTION_ENABLE: bit 0 is stored, and a write of 1 with notices unconsumed raises attention (R192). -/
def writeAttention (value : Word32) (s : State) : State :=
  let t := s.modNotice fun n => { n with attention := value.getLsbD 0 }
  t.ifThen (value.getLsbD 0 && decide (0 < t.unconsumed)) raiseAttention

/-- A read of TIME_LOW returns bits 31 to 0 of TIME and latches bits 47 to 32 (R169). -/
def readTimeLow (s : State) : State :=
  s.modPort fun p => { p with
    readData := BitVec.ofNat 32 s.time
    timeHigh := BitVec.ofNat 16 (s.time / 2 ^ 32) }

/-- The look reader, when free, takes the entry that is due (R178). -/
def takeLook (s : State) : State :=
  if s.readerFree then
    match s.nextLook with
    | some i => beginLook i s
    | none => s
  else s

end Sys2Proof.Machine
end

