-- ==== Sys2Proof/Machine/Measure.lean ====
section
/-! DEFINITION. The work of the commands of the Rate Finder (R70 to R73). -/

namespace Sys2Proof.Machine

/-- The channel that serves a line. -/
def State.servedBy (s : State) (k : LineIx) : Option Channel := (s.channelOf k).bind fun i => s.rate.channels[i]

/-- A window is complete: twelve accepted widths (R69). -/
def Channel.complete (c : Channel) : Bool := c.collecting && decide (12 ≤ c.current.length)

/-- The phase of a line whose measurement failed: EDGE_WAIT while SEEKING, NONE otherwise (R73). -/
def failedPhase (state : LineState) : Phase := if state = .seeking then .edgeWait else .none

/-- A complete window is evaluated and the measurement locks, fails or goes on (R71 to R73). -/
def evaluate (k : LineIx) (c : Channel) (s : State) : State :=
  match c.verdict (s.cfg k) with
  | .lock period => lockLine k period (leaveMeasurement k .none s)
  | .failure => failLine k (leaveMeasurement k (failedPhase (s.ctl k).state) s)
  | .continue => onChannel k (fun c => c.continued (s.cfg k) s.now) s

/-- The window of the channel that serves a line is evaluated, if it is complete. -/
def evaluateWindow (k : LineIx) (s : State) : State :=
  match s.servedBy k with
  | none => s
  | some c => s.ifThen c.complete fun t => settle k (evaluate k c t)

/-- The window timer of the channel that serves a line runs out: the line waits for an edge (R53, R70). A window that is
complete is evaluated and no longer timed out: its twelfth acceptance came first (R70). -/
def windowTimedOut (k : LineIx) (s : State) : State :=
  match s.servedBy k with
  | none => s
  | some c => s.ifThen (decide (c.timer ≤ s.now) && !c.complete) (leaveMeasurement k .edgeWait)

end Sys2Proof.Machine
end

