-- ==== Sys2Proof/Machine/Receive.lean ====
section
/-! DEFINITION. The work of the commands of the receive side: edges, the receiver's decisions, delivered characters, breaks, space
hold and the 1 ms sample (R4 to R7, R20 to R36, R66 to R69). -/

namespace Sys2Proof.Machine

/-! ## Edges of the receive data signal -/

/-- The receiver sees a falling edge (R20). In BREAK it ends a high stretch shorter than P (R6). -/
def Receiver.falling (c : StartEdge) : Receiver → Receiver
  | .idle => .candidate c []
  | .candidate d w => .candidate d ((c.edge, false) :: w)
  | .frame d w => .frame d ((c.edge, false) :: w)
  | .holding d w => .holding d ((c.edge, false) :: w)
  | .inBreak d (some r) => .inBreak d (if c.edge < r + d.period then none else some r)
  | .inBreak d none => .inBreak d none
  | .waitHigh => .waitHigh
  | .stopped => .stopped

/-- The receiver sees a rising edge: WAIT_HIGH ends, a low shorter than D was a glitch, and in BREAK a high stretch
begins (R4, R6, R20). -/
def Receiver.rising (deglitch now : Nat) : Receiver → Receiver
  | .waitHigh => .idle
  | .candidate c w => if w = [] ∧ now < c.edge + deglitch then .idle else .candidate c ((now, true) :: w)
  | .frame c w => .frame c ((now, true) :: w)
  | .holding c w => .holding c ((now, true) :: w)
  | .inBreak c _ => .inBreak c (some now)
  | .idle => .idle
  | .stopped => .stopped

/-- A start edge now, at the period and frame in force (R3). -/
def State.startEdge (s : State) (k : LineIx) : StartEdge := ⟨s.now, (s.ctl k).period, (s.cfg k).frame⟩

/-- What a falling edge does to the line's measurement (R66, R68, R69). -/
def fallMeasured (k : LineIx) (s : State) : State :=
  match s.phaseOf k with
  | .edgeWait => joinTail k s
  | .measuring => onChannel k (fun c => c.falling s.now) s
  | _ => s

/-- What a falling edge does to probes: a handed one is withdrawn, the silence timer restarts, and a SEEKING line is
re-armed (R162, R164). -/
def fallHeard (k : LineIx) (s : State) : State :=
  let t := restartSilence k (withdrawProbe k s)
  t.modInp k fun i => { i with armed := i.armed || decide ((t.ctl k).state = .seeking) }

/-- A falling edge of the receive data signal (R20, R22, R23, R66). -/
def fallEdge (k : LineIx) (s : State) : State :=
  if (s.fe k).mark then
    let t := s.modFe k fun f => { f with mark := false, receiver := f.receiver.falling (s.startEdge k) }
    t.ifThen (decide ((s.ctl k).state ≠ .off)) fun u => fallHeard k (fallMeasured k u)
  else s

/-- A rising edge of the receive data signal (R20, R69). -/
def riseEdge (k : LineIx) (s : State) : State :=
  if (s.fe k).mark then s
  else onChannel k (fun c => c.rising (s.cfg k) s.now)
    (s.modFe k fun f => { f with mark := true, receiver := f.receiver.rising (s.cfg k).deglitch s.now })

/-! ## The receiver's samples -/

/-- The tick at which a candidate is judged: edge + ⌊P/2⌋, or edge + D when D is greater (R4). A candidate whose low has
ended was no glitch by the D of that edge, so that only its sample is left to judge it, whatever D has become since (DEDUCED,
log entry 19). -/
def StartEdge.judgedAt (c : StartEdge) (w : Wave) (deglitch : Nat) : Nat :=
  c.edge + if w.isEmpty then max (c.period / 2) deglitch else c.period / 2

/-- The confirming sample of a candidate finds the input low (R4). Where D exceeds ⌊P/2⌋ an input low to edge + D was low at
that sample too. -/
def confirms (k : LineIx) (c : StartEdge) (w : Wave) : Bool := !bitSample k w (c.sampleAt 0)

/-- The receiver after a sample that was high, a false start or a stop: IDLE, or CANDIDATE when a falling edge has come
since that sample (R4, R20). `next` gives the period and frame now in force. -/
def afterHigh (next : StartEdge) (sampled : Nat) (w : Wave) : Receiver :=
  match w with
  | (t, false) :: _ => if sampled ≤ t then .candidate { next with edge := t } [] else .waitHigh
  | _ => .idle

/-- The confirming sample: a confirmed start stops the idle time (R4, R7). -/
def confirmStart (k : LineIx) (s : State) : State :=
  match (s.fe k).receiver with
  | .candidate c w =>
    if c.judgedAt w (s.cfg k).deglitch ≤ s.now then
      if confirms k c w then stopIdle k (setReceiver k (.frame c w) s)
      else setReceiver k (afterHigh (s.startEdge k) (c.sampleAt 0) w) s
    else s
  | _ => s

/-- The first stop sample of a frame (R4). -/
def stopSample (k : LineIx) (c : StartEdge) (w : Wave) : Bool := bitSample k w c.stopAt

/-- At the first stop sample, a low throughout since the start edge holds the frame back (R5). -/
def holdBack (k : LineIx) (s : State) : State :=
  match (s.fe k).receiver with
  | .frame c w =>
    s.ifThen (decide (c.stopAt ≤ s.now) && !stopSample k c w && !w.risenBy c.stopAt) (setReceiver k (.holding c w))
  | _ => s

/-- The receiver after a character with a framing error: WAIT_HIGH until the input has risen, IDLE when it stands high
already (R4, R20). -/
def Wave.resting (w : Wave) : Receiver :=
  match w with
  | (_, true) :: _ => .idle
  | _ => .waitHigh

/-- The character that the receiver of a line delivers now, if it does, with the character time of its start edge and
the receiver's next state (R5, R20, R21). -/
def State.delivered (s : State) (k : LineIx) : Option (Character × Nat × Receiver) :=
  match (s.fe k).receiver with
  | .frame c w =>
    if c.stopAt ≤ s.now then
      if stopSample k c w then some (assemble k c w false, c.charTime, afterHigh (s.startEdge k) c.stopAt w)
      else if w.risenBy c.stopAt then some (assemble k c w true, c.charTime, w.resting)
      else none
    else none
  | .holding c w =>
    if w.risenBefore (c.edge + 2 * c.charTime) then some (assemble k c w true, c.charTime, w.resting) else none
  | _ => none

/-- The receiver delivers a character (R21, R22). -/
def deliverNow (k : LineIx) (s : State) : State :=
  match s.delivered k with
  | none => s
  | some (c, charTime, next) => settle k (deliver k c charTime (setReceiver k next s))

/-! ## The record gap (R7) -/

/-- The receiver awaits a confirming sample or holds a confirmed start. -/
def Receiver.busy : Receiver → Bool
  | .candidate _ _ => true
  | .frame _ _ => true
  | .holding _ _ => true
  | _ => false

/-- The line's idle time has reached G × C (R7). While a candidate start is judged the gap waits, and so it does where the
candidate proves a glitch: till the glitch's rising edge (DESIGN CHOICE, log entry 28). A falling edge taken at the very tick of a
confirming sample that is high begins the next candidate at once, and a gap that waited for that sample waits on for the new
candidate, in place of being reached at the sample's tick (DESIGN CHOICE, log entry 28). -/
def State.gapDue (s : State) (k : LineIx) : Bool :=
  match (s.fe k).idle with
  | none => false
  | some i =>
    (s.cap k).openRecord.isSome && decide (i.since + (s.cfg k).gap * i.charTime ≤ s.now) && !(s.fe k).receiver.busy

/-! ## Received breaks (R5, R6, R24, R57) -/

/-- The high stretch that runs at the end of a wave, if one does. -/
def Wave.highSince (w : Wave) : Option Nat :=
  match w with
  | (t, true) :: _ => some t
  | _ => none

/-- A break begins: the counter rises and the open DATA record closes (R57). -/
def beginBreak (k : LineIx) (s : State) : State :=
  match (s.fe k).receiver with
  | .holding c w =>
    s.ifThen (decide (c.edge + 2 * c.charTime ≤ s.now) && !w.risenBefore (c.edge + 2 * c.charTime)) fun t =>
      closeOpen k .break
        ((setReceiver k (.inBreak c w.highSince) t).modCnt k
          fun n => { n with breaksReceived := satAdd n.breaksReceived 1 })
  | _ => s

/-- A break ends once the input has been high for P ticks (R6, R57). -/
def endBreak (k : LineIx) (s : State) : State :=
  match (s.fe k).receiver with
  | .inBreak c (some r) =>
    s.ifThen (decide (r + c.period ≤ s.now)) fun t =>
      reportBreak k c r false (setReceiver k (Receiver.fresh (s.fe k).mark) t)
  | _ => s

/-! ## The 1 ms sample (R31) -/

/-- A sample falls on this tick and has not been taken (R31). -/
def State.sampleDue (s : State) : Bool :=
  decide (0 < s.now) && decide (s.now % ticksPerMilli = 0) && decide (s.port.sampled ≠ some s.now)

/-- The sample of all lines, in ascending number (R31, R64). -/
def sampleAll (pins : Vector Pins 48) (s : State) : State :=
  ((List.finRange 48).foldl (sampleLine pins) s).modPort fun p => { p with sampled := some s.now }

end Sys2Proof.Machine
end

