-- ==== Sys2Proof/Machine/Entries.lean ====
section
/-! DEFINITION. The work of the commands that consider the entry at the head of a line's input ring (R142 to R149, R160). Each
acts on a head of its kind. -/

namespace Sys2Proof.Machine

/-- Consider a head of one kind: it is read, dealt with, and the line's input settles (R145). -/
def onHead (k : LineIx) (kind : Nat) (act : RingEntry → State → State) (s : State) : State :=
  if s.considers k && (s.head k).tagOk && decide ((s.head k).kind = kind) then settle k (act (s.head k) s) else s

/-- A KEYS entry as taken now: a length above 56 is taken as 56 (R145). -/
def State.keysTaken (s : State) (k : LineIx) (r : RingEntry) : InFlight :=
  ⟨false, r.tag, (s.inp k).consume, s.now, r.keys.take (min 56 r.length), 0, 0, .ready⟩

/-- KEYS at the head, read as `r`; one of length 0 ends at once (R145, R158). -/
def considerKeys (k : LineIx) (r : RingEntry) (s : State) : State :=
  if (s.inp k).gate.held then s
  else if (s.inp k).holder ≠ r.tag then refuseHead k r .notHolder s
  else (takeHead k (s.keysTaken k r) s).ifThen (decide (r.length = 0)) (completeKeys k (s.keysTaken k r))

/-- A BREAK entry as taken now, its duration resolved (R145, R160). -/
def State.breakTaken (s : State) (k : LineIx) (r : RingEntry) : InFlight :=
  ⟨true, r.tag, (s.inp k).consume, s.now, [], breakDurationOf (s.cfg k) r.duration, 0, .ready⟩

/-- BREAK at the head, read as `r` (R145, R160). -/
def considerBreak (k : LineIx) (r : RingEntry) (s : State) : State :=
  if (s.inp k).gate.held then s
  else if (s.inp k).holder ≠ r.tag then refuseHead k r .notHolder s
  else if policyAllows (s.cfg k).breakPolicy (s.mat k).console then takeHead k (s.breakTaken k r) s
  else refuseHead k r .policy s

/-- TAKE at the head (R147). -/
def considerTake (k : LineIx) (r : RingEntry) (s : State) : State :=
  if (s.inp k).holder = 0 then changeHolder k r.tag .take (consumeHead k s)
  else if (s.inp k).holder = r.tag then restartGrant k (consumeHead k s)
  else refuseHead k r .heldBy s

/-- GIVE at the head (R147). -/
def considerGive (k : LineIx) (r : RingEntry) (s : State) : State :=
  if (s.inp k).holder = r.tag then changeHolder k 0 .give (consumeHead k s) else refuseHead k r .notHolder s

/-- STEAL at the head (R147). -/
def considerSteal (k : LineIx) (r : RingEntry) (s : State) : State :=
  if r.tag ≠ 15 then refuseHead k r .notSupervisor s
  else if (s.inp k).holder = 15 then restartGrant k (consumeHead k s)
  else changeHolder k 15 .steal (consumeHead k s)

/-- The kind of an entry is one of the five (R204). -/
def RingEntry.kindOk (r : RingEntry) : Bool := decide (kindKeys ≤ r.kind ∧ r.kind ≤ kindSteal)

/-- A head with a bad tag, or an unknown kind under a good tag, is refused (R145, R146). -/
def refuseBadHead (k : LineIx) (s : State) : State :=
  if s.considers k then
    if (s.head k).tagOk = false then refuseHead k (s.head k) .badTag s
    else if (s.head k).kindOk = false then refuseHead k (s.head k) .badKind s
    else s
  else s

end Sys2Proof.Machine
end

