-- ==== Sys2Proof/Machine/Looks.lean ====
section
/-! DEFINITION. The end of a look (R178 to R180): the order of the count and the request that it read, and the taking, carrying
out and answering of the request. -/

namespace Sys2Proof.Machine

/-! ## The end of a look (R145, R178) -/

/-- The look in progress is over. -/
def lookOver (s : State) : State := s.modPort fun p => { p with look := none }

/-- The head of a line's ring is considered, whatever it holds (R145). -/
def considerHead (k : LineIx) (s : State) : State :=
  if (s.head k).tagOk && (s.head k).kindOk then
    if (s.head k).kind = kindKeys then onHead k kindKeys (considerKeys k) s
    else if (s.head k).kind = kindBreak then onHead k kindBreak (considerBreak k) s
    else if (s.head k).kind = kindTake then onHead k kindTake (considerTake k) s
    else if (s.head k).kind = kindGive then onHead k kindGive (considerGive k) s
    else onHead k kindSteal (considerSteal k) s
  else refuseBadHead k s

/-- The heads of a line's ring are considered one after another, at most `n` of them, until one is not consumed (R143,
R145). -/
def considerHeads (k : LineIx) : Nat → State → State
  | 0, s => s
  | n + 1, s =>
    let t := considerHead k s
    if (t.inp k).consume = (s.inp k).consume then t else considerHeads k n t

/-- The count of a look is taken before the request of the look: it is handed over, and the entries of a line's ring that it
makes pending are considered as far as they go (R143 to R145, R178). -/
def takeCount (i : EntryIx) (count : Word32) (s : State) : State :=
  match lineOf i with
  | none => handCount i count s
  | some k => considerHeads k 32 (handCount i count s)

/-- What the end of a look that takes a request does: `deal` carries the request out, and the count the look read is taken,
either of the two first, each on the state the other leaves (R178). Where the request comes first, the entries that the count
makes pending are left to the rows of the entries. Where the count comes first and a KEYS or BREAK entry is taken, R153 does not
hand that entry off before the request, though both fall at one tick: a DISABLE then cuts a BREAK that was never on the wire,
with no BREAK_OUT record and no RECOVERY (DESIGN CHOICE, log entry 7). -/
def State.lookOrder (s : State) (i : EntryIx) (requestFirst : Bool) (deal : State → State) : State :=
  if requestFirst then handCount i (s.entryWord i 0x60) (deal s) else deal (takeCount i (s.entryWord i 0x60) s)

/-- A look at an entry ends with a request (R178, R179). -/
def endLook (i : EntryIx) (requestFirst : Bool) (deal : State → State) (s : State) : State :=
  (lookOver s).lookOrder i requestFirst deal

/-! ## Requests and answers (R179, R180) -/

/-- The entry whose look ends with this tick's reads: the one in progress, unless a HALT discarded it (R174, R178). -/
def State.looking (s : State) : Option EntryIx :=
  match s.port.look with
  | some l => if l.discarded = false ∧ s.port.engine = .running then some l.entry else none
  | none => none

/-- The request in an entry's slot, if its number differs from the entry's answered number: a copy of the whole slot as the
look reads it (R179). -/
def State.newRequest (s : State) (i : EntryIx) : Option Request :=
  if (s.requestSlot i).number = s.port.entries[i].answered then none else some (s.requestSlot i)

/-- The request of a kind that the look in progress at an entry takes as it ends (R179). -/
def State.takenAt (s : State) (i : EntryIx) (kind : Nat) : Option Request :=
  if s.looking = some i then (s.newRequest i).filter fun r => decide (r.kind = kind) else none

/-- The arguments of an ANSWER notice (R205). -/
def answerArgs (r : Request) (code : AnswerCode) (detail : Nat) : List Byte :=
  leBytes 4 r.number.toNat ++ [byteOf r.kind, byteOf code.code, 0, 0] ++ leBytes 4 detail

/-- Answer a taken request: the code, the detail and the answered number are set and ANSWER is posted (R179). -/
def answer (r : Request) (code : AnswerCode) (detail : Nat) (s : State) : State :=
  let t := s.modPort fun p => { p with
    entries := upd p.entries r.entry fun q => { q with answered := r.number, code := code, detail := detail } }
  post ⟨.answer, r.entry, s.time, answerArgs r code detail⟩ t

/-- The state a request leaves, with its answer's code and detail. -/
structure Reply where
  state : State
  code : AnswerCode
  detail : Nat

/-- Carry out a taken request and answer it, at one tick (R179). -/
def carryOut (r : Request) (act : Request → State → Reply) (s : State) : State :=
  answer r (act r s).code (act r s).detail (act r s).state

/-- The look in progress at an entry ends with a new request of a kind, which is carried out and answered as the look ends;
without such a look and request nothing happens. -/
def onRequest (i : EntryIx) (kind : Nat) (requestFirst : Bool) (act : Request → State → Reply) (s : State) : State :=
  match s.takenAt i kind with
  | none => s
  | some r => endLook i requestFirst (carryOut r act) s

/-- The kind has an owner in the slot it was taken from (R180). -/
def Request.owned (r : Request) : Bool :=
  if r.entry.val = 0 then decide (r.kind = kindLoadPatterns ∨ r.kind = kindApplySettings)
  else decide (kindEnable ≤ r.kind ∧ r.kind ≤ kindOpenInput)

/-- The request that the look in progress takes as it ends and that no owner takes (R180). -/
def State.takenUnknown (s : State) : Option Request :=
  match s.looking with
  | some i => (s.newRequest i).filter fun r => !r.owned
  | none => none

/-- An argument byte of a request (R199). -/
def Request.arg (r : Request) (n : Nat) : Nat := byteAt r.args n

end Sys2Proof.Machine
end

