-- ==== Sys2Proof/Machine/Requests.lean ====
section
/-! DEFINITION. The work of the requests: each row ends a look that finds a new request of its kind, carried out and answered at
that tick (R41 to R48, R98, R118, R119, R124, R140, R151, R179 to R181). -/

namespace Sys2Proof.Machine

/-- An answer of DONE. -/
def done (detail : Nat) (s : State) : Reply := ⟨s, .done, detail⟩

/-- The detail of an answer whose rule names none: a free value (log entry 8). -/
def State.unnamedDetail (s : State) (k : LineIx) : Nat := (Config.unnamedDetail k s.now).toNat

/-- ENABLE of a line (R41). -/
def enableRequest (k : LineIx) (mark : Bool) (s : State) : Reply :=
  if (s.ctl k).state = .off then
    match s.checkSettings k with
    | .error (code, detail) => ⟨s, code, detail⟩
    | .ok n => done (s.unnamedDetail k) (enableLine k mark n s)
  else done (s.unnamedDetail k) s

/-- DISABLE of a line (R42). -/
def disableRequest (k : LineIx) (s : State) : Reply :=
  if (s.ctl k).state = .off then done (s.unnamedDetail k) s
  else done (s.unnamedDetail k) (settle k (leaveLine k .off .disable .stop .disabled s))

/-- CONFIGURE of a line (R45, R46). -/
def configureRequest (k : LineIx) (mark : Bool) (s : State) : Reply :=
  match s.checkSettings k with
  | .error (code, detail) => ⟨s, code, detail⟩
  | .ok n => done (s.unnamedDetail k) (configureLine k mark n s)

/-- RELOCK of a line (R47). -/
def relockRequest (k : LineIx) (s : State) : Reply :=
  if (s.cfg k).rateMode.auto then
    match (s.ctl k).state with
    | .live => done (s.unnamedDetail k) (settle k (beginCheck k 1 s))
    | .seeking => done (s.unnamedDetail k) (restartMeasurement k s)
    | .checking => done (s.unnamedDetail k) (restartMeasurement k s)
    | _ => ⟨s, .refusedState, s.unnamedDetail k⟩
  else ⟨s, .refusedState, s.unnamedDetail k⟩

/-- RESET_COUNTERS of a line (R48). -/
def resetCountersRequest (k : LineIx) (s : State) : Reply := done (s.unnamedDetail k) (s.modCnt k fun _ => Counters.zero)

/-- CLEAR_CAPTURE of a line; the argument's bit 0 is DROP_PINS (R98). -/
def clearCaptureRequest (k : LineIx) (r : Request) (s : State) : Reply :=
  done (clearCapture k ((r.arg 0).testBit 0) s).2 (clearCapture k ((r.arg 0).testBit 0) s).1

/-- PIN_NOW on a line; the arguments are B and A (R118). -/
def pinNowRequest (k : LineIx) (r : Request) (s : State) : Reply :=
  if s.budget k = 0 then ⟨s, .noRoom, 0⟩
  else done (s.pinId k) (createPin k 0 (min 15 (r.arg 0)) (min 15 (r.arg 1)) (s.mat k).console s)

/-- UNPIN on a line; the argument is the pin id (R119). -/
def unpinRequest (k : LineIx) (r : Request) (s : State) : Reply :=
  match (s.cap k).pins.find? fun p => p.id == r.arg 0 with
  | none => ⟨s, .badArgument, r.arg 0⟩
  | some p => done ((s.cap k).pinned - ((removePin k p s).cap k).pinned) (removePin k p s)

/-- SET_CONSOLE on a line; the argument is the console state (R140). -/
def setConsoleRequest (k : LineIx) (r : Request) (s : State) : Reply :=
  match Console.ofCode (r.arg 0) with
  | none => ⟨s, .badArgument, r.arg 0⟩
  | some c => done (s.mat k).console.code (settle k (setConsoleState k c s))

/-- The gate reason HOST is added or removed; with OPEN_INPUT, PATTERN is removed too (R151). -/
def setHostHold (k : LineIx) (hold : Bool) (s : State) : State :=
  s.modInp k fun i => { i with gate := { i.gate with host := hold, pattern := hold && i.gate.pattern } }

/-- HOLD_INPUT on a line: the detail is the reasons that stand afterwards (R151, R201). -/
def holdInputRequest (k : LineIx) (s : State) : Reply :=
  done ((settle k (setHostHold k true s)).inp k).gate.bits (settle k (setHostHold k true s))

/-- OPEN_INPUT on a line (R151, R201). -/
def openInputRequest (k : LineIx) (s : State) : Reply :=
  done ((settle k (setHostHold k false s)).inp k).gate.bits (settle k (setHostHold k false s))

/-- The bytes of a pattern slot as the pattern region now holds them (R203). -/
def State.slotBytes (s : State) (i : Fin 32) : List Byte := s.load Regions.patterns (i.val * 64) 64

/-- The first slot that fails a check, with the check's number (R123). -/
def State.badSlot (s : State) : Option (Fin 32 × Nat) :=
  (List.finRange 32).findSome? fun i => (slotCheck (s.slotBytes i)).map fun check => (i, check)

/-- The pattern table as the region gives it (R124). -/
def State.loadedTable (s : State) : Vector Pattern 32 := tab fun i => parseSlot (s.slotBytes i)

/-- The table is replaced, every progress becomes 0, and the load count rises (R124). -/
def takeTable (table : Vector Pattern 32) (s : State) : State :=
  { s with engine :=
    { table := table
      loads := satAdd s.engine.loads 1
      lines := tab fun k => { s.mat k with progress := Vector.replicate 32 0 } } }

/-- The number of used slots of a table. -/
def usedSlots (table : Vector Pattern 32) : Nat := ((List.finRange 32).filter fun i => table[i].length != 0).length

/-- LOAD_PATTERNS of the part: a refusal names the slot and the check (R123, R124, R201). -/
def loadPatternsRequest (s : State) : Reply :=
  match s.badSlot with
  | some (i, check) => ⟨s, .badArgument, i.val + 1 + 256 * check⟩
  | none => done (usedSlots s.loadedTable) (takeTable s.loadedTable s)

/-- The scan selector as the control entry now holds it, above 7 taken as 7 (R181). -/
def State.selector (s : State) : Nat := min 7 (leValue (s.load Regions.lineTable 0 1))

/-- An entry's deadline under a new scan period (R181). An entry with no look since RUNNING was entered keeps its deadline, the
tick of that entry (DESIGN CHOICE, log entry 39). -/
def PortEntry.rescanned (p : PortEntry) (selector : Nat) : PortEntry :=
  match p.lastLook with
  | some t => { p with deadline := t + scanTicks selector }
  | none => p

/-- The scan selector is taken into force (R181). -/
def takeSelector (selector : Nat) (s : State) : State :=
  s.modPort fun p => { p with scan := selector, entries := tab fun i => p.entries[i].rescanned selector }

/-- APPLY_SETTINGS of the part (R181). -/
def applySettingsRequest (s : State) : Reply := done s.selector (takeSelector s.selector s)

/-- A request that no owner takes: nothing changes but the answer (R180). -/
def unknownRequest (r : Request) (s : State) : Reply := ⟨s, .unknownRequest, r.kind⟩

/-- The look in progress ends with a request that no owner takes, which is answered so. -/
def answerUnknown (requestFirst : Bool) (s : State) : State :=
  match s.takenUnknown with
  | none => s
  | some r => endLook r.entry requestFirst (carryOut r unknownRequest) s

/-! ## LOOK_END -/

/-- What the owner of a request of a line slot does with it (R180). -/
def lineRequest (k : LineIx) (mark : Bool) (r : Request) (s : State) : Reply :=
  if r.kind = kindEnable then enableRequest k mark s
  else if r.kind = kindDisable then disableRequest k s
  else if r.kind = kindConfigure then configureRequest k mark s
  else if r.kind = kindRelock then relockRequest k s
  else if r.kind = kindResetCounters then resetCountersRequest k s
  else if r.kind = kindClearCapture then clearCaptureRequest k r s
  else if r.kind = kindPinNow then pinNowRequest k r s
  else if r.kind = kindUnpin then unpinRequest k r s
  else if r.kind = kindSetConsole then setConsoleRequest k r s
  else if r.kind = kindHoldInput then holdInputRequest k s
  else if r.kind = kindOpenInput then openInputRequest k s
  else unknownRequest r s

/-- What the owner of a request of the control slot does with it (R180). -/
def controlRequest (r : Request) (s : State) : Reply :=
  if r.kind = kindLoadPatterns then loadPatternsRequest s
  else if r.kind = kindApplySettings then applySettingsRequest s
  else unknownRequest r s

/-- What the owner of a request taken from an entry's slot does with it (R180). -/
def ownerActs (i : EntryIx) (mark : Bool) (r : Request) (s : State) : Reply :=
  match lineOf i with
  | some k => lineRequest k mark r s
  | none => controlRequest r s

/-- The look in progress ends, with the request it takes if there is one (R178, R179); one that a HALT discarded leaves
nothing (R174). -/
def finishLook (requestFirst mark : Bool) (s : State) : State :=
  match s.looking with
  | none => lookOver s
  | some i =>
    match s.newRequest i with
    | none => handCount i (s.entryWord i 0x60) (lookOver s)
    | some r => endLook i requestFirst (carryOut r (ownerActs i mark)) s

end Sys2Proof.Machine
end

