-- ==== Sys2Proof/Machine/Transmit.lean ====
section
/-! DEFINITION. The work of the commands of the transmit side: hand-offs, the ends of items and waits, cuts by STALL, lapses and
probes (R25, R26, R148, R153 to R164). -/

namespace Sys2Proof.Machine

/-- The hand-off of a READY entry whose waits have ended (R153, R155). -/
def handOff (k : LineIx) (s : State) : State :=
  match (s.inp k).entry with
  | none => s
  | some e => s.ifThen (decide (e.phase = .ready) && s.handOffReady k e) (judgeHandOff k e s.now)

/-- One more byte was sent on the line (R58). -/
def countSent (k : LineIx) (s : State) : State := s.modCnt k fun c => { c with bytesSent := satAdd c.bytesSent 1 }

/-- A probe has been sent: it is disarmed, recorded at its start bit, and the silence timer restarts (R163). -/
def probeSent (k : LineIx) (i : SentItem) (s : State) : State :=
  restartSilence k (record k (probeRecord (timeAt i.start)) (s.modInp k fun p => { p with armed := false }))

/-- After its CR the entry enters LINE_END when the line-end wait is above 0; otherwise it goes on or ends (R154). -/
def afterKey (k : LineIx) (byte : Byte) (e : InFlight) (s : State) : State :=
  if byte = 0x0D#8 ∧ (s.cfg k).lineEnd ≠ 0 then
    setEntryPhase k (.lineEnd (s.now + (s.cfg k).lineEnd * ticksPerMilli)) s
  else nextKeyOrEnd k e s

/-- A key byte has been sent: the entry's bytes sent rises and the last key end is now (R154). -/
def keySent (k : LineIx) (i : SentItem) (s : State) : State :=
  match (s.inp k).entry with
  | none => s
  | some e =>
    let sent := { e with sent := e.sent + 1 }
    afterKey k i.byte sent (s.modInp k fun p => { p with entry := some sent, lastKeyEnd := some s.now })

/-- The character or probe on the wire ends (R25). -/
def endCharacter (k : LineIx) (s : State) : State :=
  match (s.fe k).transmitter with
  | .sending i =>
    if i.ends ≤ s.now then
      let t := countSent k (setTransmitter k .idle s)
      settle k (if i.probe then probeSent k i t else keySent k i t)
    else s
  | _ => s

/-- The line-end wait runs out (R154). -/
def endLineEnd (k : LineIx) (s : State) : State :=
  match (s.inp k).entry with
  | none => s
  | some e =>
    match e.phase with
    | .lineEnd ends => s.ifThen (decide (ends ≤ s.now)) fun t => settle k (nextKeyOrEnd k e t)
    | _ => s

/-- The pause time reaches the stall limit (R156). -/
def stallEntry (k : LineIx) (s : State) : State := s.ifThen (s.stallDue k) fun t => settle k (cutEntry k .stall t)

/-- The grant timer reaches its timeout (R148). -/
def lapseGrant (k : LineIx) (s : State) : State :=
  s.ifThen (s.lapseDue k) fun t => settle k (changeHolder k 0 .lapse t)

/-- A break has been sent: mark and RECOVERY, the BREAK_OUT record, and the entry's end (R26, R161). The entry ends here, at the
break sent report, and BREAKING does not last over the mark after the space, as the table of R153 may be read (DESIGN CHOICE, log
entry 44). -/
def breakIsSent (k : LineIx) (start duration : Nat) (s : State) : State :=
  let t := setTransmitter k (.recovery (s.now + (s.ctl k).period)) s
  match (s.inp k).entry with
  | none => t
  | some e => dropEntry k (record k (breakOutRecord false e.tag (duration * 1000) (timeAt start)) t)

/-- The space of a break reaches its duration (R26). -/
def endSpace (k : LineIx) (s : State) : State :=
  match (s.fe k).transmitter with
  | .spacing start duration =>
    s.ifThen (decide (start + duration * ticksPerMilli ≤ s.now)) fun t => settle k (breakIsSent k start duration t)
  | _ => s

/-- The mark after a break runs out (R26). -/
def endRecovery (k : LineIx) (s : State) : State :=
  match (s.fe k).transmitter with
  | .recovery ends => s.ifThen (decide (ends ≤ s.now)) fun t => settle k (setTransmitter k .idle t)
  | _ => s

/-- A probe falls due and is handed to an IDLE transmitter, where it begins unless a flow pause stands (R162, R163). -/
def handProbe (k : LineIx) (s : State) : State :=
  s.ifThen (s.probeConditions k && decide ((s.fe k).transmitter = .idle) && !(s.fe k).probeHanded) fun t =>
    settle k (t.modFe k fun f => { f with probeHanded := true })

end Sys2Proof.Machine
end

