-- ==== Sys2Proof/Machine/Acts.lean ====
section
/-! DEFINITION. What each command does once its event has arrived: one act for each constructor, the work of the family that
owns it, and whether the status records are published behind it. -/

namespace Sys2Proof.Machine

/-- The event of a command. -/
def eventOf : Instr → Event
  | .partReset e => e
  | .hostLinkReset e => e
  | .start e _ => e
  | .halt e => e
  | .startingEnd e => e
  | .lineHalt e _ => e
  | .prompt e _ => e
  | .attentionEnable e _ => e
  | .timeLow e => e
  | .registerWriteIgnored e _ _ => e
  | .lookBegin e => e
  | .lookEnd e _ => e.toEvent
  | .enable e _ _ => e.toEvent
  | .disable e _ => e.toEvent
  | .configure e _ _ => e.toEvent
  | .relock e _ => e.toEvent
  | .resetCounters e _ => e.toEvent
  | .clearCapture e _ => e.toEvent
  | .pinNow e _ => e.toEvent
  | .unpin e _ => e.toEvent
  | .setConsole e _ => e.toEvent
  | .holdInput e _ => e.toEvent
  | .openInput e _ => e.toEvent
  | .loadPatterns e => e.toEvent
  | .applySettings e => e.toEvent
  | .unknownRequest e => e.toEvent
  | .keysEntry e _ => e
  | .breakEntry e _ => e
  | .takeEntry e _ => e
  | .giveEntry e _ => e
  | .stealEntry e _ => e
  | .refusedEntry e _ => e
  | .handOff e _ => e
  | .characterSent e _ => e
  | .lineEndExpiry e _ => e
  | .stall e _ => e
  | .lapse e _ => e
  | .breakSent e _ => e
  | .recoveryEnd e _ => e
  | .probeDue e _ => e
  | .characterDelivered e _ => e
  | .recordGap e _ => e
  | .breakBegun e _ => e
  | .breakEnded e _ => e
  | .spaceHold e _ => e
  | .sample e _ => e
  | .joinEvent e _ => e
  | .windowEvaluated e _ => e
  | .windowTimeout e _ => e
  | .dataTimer e _ => e
  | .receiveRisingEdge e _ => e
  | .confirmingSample e _ => e
  | .frameHeldBack e _ => e

/-- The act of a command on the state that its event meets. PART_RESET meets none, and an ignored write does nothing. -/
def actOf : Instr → State → State
  | .partReset _ => fun s => { State.reset with pending := s.pending }
  | .hostLinkReset _ =>
    fun t => { t with
      notice := { t.notice with attention := false }
      port := { t.port with prompts := Vector.replicate 49 false } }
  | .start _ keep => startEngine keep
  | .halt _ => haltEngine
  | .startingEnd _ => fun t => t.ifThen (decide (t.port.engine = .starting)) endStarting
  | .lineHalt _ k => haltLine k
  | .prompt _ value => addPrompt value
  | .attentionEnable _ value => writeAttention value
  | .timeLow _ => readTimeLow
  | .registerWriteIgnored _ _ _ => id
  | .lookBegin _ => takeLook
  | .lookEnd e mark => finishLook e.requestFirst mark
  | .enable e k mark => onRequest (entryOf k) kindEnable e.requestFirst fun _ => enableRequest k mark
  | .disable e k => onRequest (entryOf k) kindDisable e.requestFirst fun _ => disableRequest k
  | .configure e k mark => onRequest (entryOf k) kindConfigure e.requestFirst fun _ => configureRequest k mark
  | .relock e k => onRequest (entryOf k) kindRelock e.requestFirst fun _ => relockRequest k
  | .resetCounters e k => onRequest (entryOf k) kindResetCounters e.requestFirst fun _ => resetCountersRequest k
  | .clearCapture e k => onRequest (entryOf k) kindClearCapture e.requestFirst (clearCaptureRequest k)
  | .pinNow e k => onRequest (entryOf k) kindPinNow e.requestFirst (pinNowRequest k)
  | .unpin e k => onRequest (entryOf k) kindUnpin e.requestFirst (unpinRequest k)
  | .setConsole e k => onRequest (entryOf k) kindSetConsole e.requestFirst (setConsoleRequest k)
  | .holdInput e k => onRequest (entryOf k) kindHoldInput e.requestFirst fun _ => holdInputRequest k
  | .openInput e k => onRequest (entryOf k) kindOpenInput e.requestFirst fun _ => openInputRequest k
  | .loadPatterns e => onRequest 0 kindLoadPatterns e.requestFirst fun _ => loadPatternsRequest
  | .applySettings e => onRequest 0 kindApplySettings e.requestFirst fun _ => applySettingsRequest
  | .unknownRequest e => answerUnknown e.requestFirst
  | .keysEntry _ k => onHead k kindKeys (considerKeys k)
  | .breakEntry _ k => onHead k kindBreak (considerBreak k)
  | .takeEntry _ k => onHead k kindTake (considerTake k)
  | .giveEntry _ k => onHead k kindGive (considerGive k)
  | .stealEntry _ k => onHead k kindSteal (considerSteal k)
  | .refusedEntry _ k => refuseBadHead k
  | .handOff _ k => handOff k
  | .characterSent _ k => endCharacter k
  | .lineEndExpiry _ k => endLineEnd k
  | .stall _ k => stallEntry k
  | .lapse _ k => lapseGrant k
  | .breakSent _ k => endSpace k
  | .recoveryEnd _ k => endRecovery k
  | .probeDue _ k => handProbe k
  | .characterDelivered _ k => deliverNow k
  | .recordGap _ k => fun t => t.ifThen (t.gapDue k) fun u => stopIdle k (closeOpen k .gap u)
  | .breakBegun _ k => beginBreak k
  | .breakEnded _ k => endBreak k
  | .spaceHold _ k =>
    fun t => t.ifThen (t.spaceHoldDue k) fun u => settle k (losePresence k .spaceHold (setSpaceHold k u))
  | .sample _ pins => fun t => t.ifThen t.sampleDue (sampleAll pins)
  | .joinEvent _ k => fallEdge k
  | .windowEvaluated _ k => evaluateWindow k
  | .windowTimeout _ k => windowTimedOut k
  | .dataTimer _ k => dataTimerTick k
  | .receiveRisingEdge _ k => riseEdge k
  | .confirmingSample _ k => confirmStart k
  | .frameHeldBack _ k => holdBack k

/-- The commands that may change a published field or reach the shared region (`perform`). The others act on no published field and
reach no region in force, or write every status record themselves (`respond`). -/
def publishes : Instr → Bool
  | .partReset _ => false
  | .hostLinkReset _ => false
  | .start _ _ => false
  | .halt _ => false
  | .startingEnd _ => false
  | .lineHalt _ _ => true
  | .prompt _ _ => false
  | .attentionEnable _ _ => false
  | .timeLow _ => false
  | .registerWriteIgnored _ _ _ => false
  | .lookBegin _ => false
  | .lookEnd _ _ => true
  | .enable _ _ _ => true
  | .disable _ _ => true
  | .configure _ _ _ => true
  | .relock _ _ => true
  | .resetCounters _ _ => true
  | .clearCapture _ _ => true
  | .pinNow _ _ => true
  | .unpin _ _ => true
  | .setConsole _ _ => true
  | .holdInput _ _ => true
  | .openInput _ _ => true
  | .loadPatterns _ => true
  | .applySettings _ => true
  | .unknownRequest _ => true
  | .keysEntry _ _ => true
  | .breakEntry _ _ => true
  | .takeEntry _ _ => true
  | .giveEntry _ _ => true
  | .stealEntry _ _ => true
  | .refusedEntry _ _ => true
  | .handOff _ _ => true
  | .characterSent _ _ => true
  | .lineEndExpiry _ _ => true
  | .stall _ _ => true
  | .lapse _ _ => true
  | .breakSent _ _ => true
  | .recoveryEnd _ _ => true
  | .probeDue _ _ => true
  | .characterDelivered _ _ => true
  | .recordGap _ _ => true
  | .breakBegun _ _ => true
  | .breakEnded _ _ => true
  | .spaceHold _ _ => true
  | .sample _ _ => true
  | .joinEvent _ _ => true
  | .windowEvaluated _ _ => true
  | .windowTimeout _ _ => true
  | .dataTimer _ _ => true
  | .receiveRisingEdge _ _ => true
  | .confirmingSample _ _ => true
  | .frameHeldBack _ _ => true

end Sys2Proof.Machine
end

