-- ==== Sys2Proof/Machine/Bounds.lean ====
section
/-! DEFINITION. The laws that the manual lays down for every tick, all of them decidable, and the bytes of the shared region that
the part writes. -/

namespace Sys2Proof.Machine

/-! ## Laws of the pool -/

/-- The block indices of a chain. -/
def chainIndices (s : State) (k : LineIx) : List Nat := (s.cap k).chain.map Block.index

/-- The block indices of all chains, line by line. -/
def heldIndices (s : State) : List Nat := (List.finRange 48).flatMap (chainIndices s)

/-- R80: the free list and the chains together hold every index from 1 to N, each exactly once. -/
abbrev State.poolLaw (s : State) : Prop := (s.pool.free ++ heldIndices s).Perm (List.range' 1 s.pool.blocks)

/-- R82: a block that is not the newest of its chain is FILLED. -/
abbrev State.fillingLaw (s : State) (k : LineIx) : Prop := ∀ b ∈ (s.cap k).chain.dropLast, b.filling = false

/-- R81: the free list is no shorter than the sum of the unmet minimums of the 48 lines. -/
abbrev State.reserveLaw (s : State) : Prop := sumLines s.unmet ≤ s.pool.free.length

/-- How many blocks the line has taken since a sequence, that block among them (R82). -/
def State.age (s : State) (k : LineIx) (sequence : Word32) : Nat := ((s.cap k).nextSequence - sequence).toNat

/-- R82 and R100 for one line: the sequences of its chain rise towards the next one, a FILLING block is the one it took last,
and the chain is no longer than the quota max. -/
abbrev State.chainLaw (s : State) (k : LineIx) : Prop :=
  risesTo (s.cap k).nextSequence (s.cap k).chain ∧ (∀ b ∈ (s.cap k).chain, 1 ≤ s.age k b.sequence) ∧
    (∀ b ∈ (s.cap k).chain, b.filling = true → s.age k b.sequence = 1) ∧
    (s.cap k).chain.length ≤ (s.cfg k).quotaMax

/-- R106 to R108 and R112 for one line: at most 4 pins, of distinct ids from 1 to 255, as is the next id; the pinned count is
at most the budget, quota min less 2; a pin's span ends at or behind its first sequence, and an OPEN pin's at the sequence the
line took last. -/
abbrev State.pinLaw (s : State) (k : LineIx) : Prop :=
  (s.cap k).pins.length ≤ 4 ∧ ((s.cap k).pins.map Pin.id).Nodup ∧ (1 ≤ (s.cap k).nextPinId ∧ (s.cap k).nextPinId ≤ 255) ∧
    (s.cap k).pinned ≤ (s.cfg k).quotaMin - 2 ∧
    ∀ p ∈ (s.cap k).pins, (1 ≤ p.id ∧ p.id ≤ 255) ∧ (1 ≤ s.age k p.last ∧ s.age k p.last ≤ s.age k p.first) ∧
      (p.isOpen = true → s.age k p.last = 1)

/-! ## Laws of the lines -/

/-- R20, R38 and R150 for one line: NOT_LIVE stands exactly while the line does not decode, and so does the receiver's
STOPPED. -/
abbrev State.decodingLaw (s : State) (k : LineIx) : Prop :=
  (s.inp k).gate.notLive = (!(s.ctl k).state.decoding) ∧
    ((s.fe k).receiver = .stopped ↔ (s.ctl k).state.decoding = false)

/-- R94, R95, R145 and R79 for one line: the open DATA record holds fewer than 240 bytes (at 240 it closes), the entry in
flight at most 56 key bytes, and no block is filled beyond its payload. -/
abbrev State.sizeLaw (s : State) (k : LineIx) : Prop :=
  (∀ o ∈ (s.cap k).openRecord, o.bytes.length < 240) ∧ (∀ e ∈ (s.inp k).entry, e.keys.length ≤ 56) ∧
    ∀ b ∈ (s.cap k).chain, b.fill ≤ payloadBytes

/-- Every setting lies in the range R43 gives it, and a mask in use is not empty. -/
abbrev Settings.inRange (n : Settings) : Prop :=
  (40 ≤ n.fixedPeriod ∧ n.fixedPeriod ≤ 1048575) ∧ (n.rateMode.auto = true → n.mask ≠ 0) ∧
    (5 ≤ n.tolerance ∧ n.tolerance ≤ 100) ∧ n.deglitch ≤ 255 ∧ (1 ≤ n.threshold ∧ n.threshold ≤ 3) ∧
    (10 ≤ n.settle ∧ n.settle ≤ 10000 ∧ n.settle % 10 = 0) ∧
    (n.darkBreak = 0 ∨ 100 ≤ n.darkBreak ∧ n.darkBreak ≤ 10000) ∧ (1 ≤ n.gap ∧ n.gap ≤ 255) ∧
    (1 ≤ n.errorLimit ∧ n.errorLimit ≤ 255) ∧ n.stallLimit ≤ 255 ∧
    (10 ≤ n.breakDuration ∧ n.breakDuration ≤ 4000) ∧ n.probeInterval ≤ 3600 ∧ n.dataInterval ≤ 1000 ∧
    (2 ≤ n.quotaMin ∧ n.quotaMin ≤ n.quotaMax ∧ n.quotaMax ≤ 4096)

/-- R1 and R43 for one line: its settings are in range, and its period value and remembered lock are periods. -/
abbrev State.rangeLaw (s : State) (k : LineIx) : Prop :=
  (s.cfg k).inRange ∧ (40 ≤ (s.ctl k).period ∧ (s.ctl k).period ≤ 1048575) ∧
    ∀ p ∈ (s.ctl k).remembered, 40 ≤ p ∧ p ≤ 1048575

/-! ## Laws of the measurements -/

/-- R67: either no channel is FREE or the wait list is empty. -/
def State.grantLaw (s : State) : Prop := (∀ i : Fin 4, s.rate.channels[i].isSome) ∨ s.rate.wait = []

/-- R64: the wait list holds its lines by the tick they joined at, and those of one tick in ascending number. The lines on it
and in the channels have joined at a tick that does not lie ahead. -/
def State.queueLaw (s : State) : Prop :=
  (∀ k, (k ∈ s.rate.wait ∨ ∃ i : Fin 4, ∃ c ∈ s.rate.channels[i], c.line = k) →
    ∃ t ∈ s.rate.joined[k], t ≤ s.now) ∧
    s.rate.wait.Pairwise fun j k => ∀ t ∈ s.rate.joined[j], ∀ u ∈ s.rate.joined[k], t < u ∨ t = u ∧ j < k

/-- R63, R64 and R65: the wait list holds no line twice, no two channels serve one line, and no line is on the list and in a
channel. A line's phase is NONE exactly in OFF, DARK and LIVE, QUEUED exactly on the list and MEASURING exactly in a channel,
so that the lines there are SEEKING or CHECKING. -/
def State.measureLaw (s : State) : Prop :=
  s.rate.wait.Nodup ∧
    (∀ i j : Fin 4, ∀ x ∈ s.rate.channels[i], ∀ y ∈ s.rate.channels[j], x.line = y.line → i = j) ∧
    (∀ i : Fin 4, ∀ x ∈ s.rate.channels[i], x.line ∉ s.rate.wait) ∧
    ∀ k, (s.phaseOf k = .none ↔ (s.ctl k).state = .off ∨ (s.ctl k).state = .dark ∨ (s.ctl k).state = .live) ∧
      (s.phaseOf k = .queued ↔ k ∈ s.rate.wait) ∧
      (s.phaseOf k = .measuring ↔ ∃ i : Fin 4, ∃ x ∈ s.rate.channels[i], x.line = k)

/-- The three laws of the measurements hold. -/
def State.measurementsHold (s : State) : Bool :=
  @decide (s.grantLaw ∧ s.queueLaw ∧ s.measureLaw)
    (by delta State.grantLaw State.queueLaw State.measureLaw; infer_instance)

/-! ## Laws of the Engine Port -/

/-- R38, R60, R61: while the engine is HALTED or STARTING every line is OFF. -/
abbrev State.haltedLaw (s : State) : Prop :=
  s.port.engine = .halted ∨ s.port.engine = .starting → ∀ k, (s.ctl k).state = .off

/-- R176: every status version is even. -/
abbrev State.versionLaw (s : State) : Prop := ∀ i : EntryIx, s.port.entries[i].version.toNat % 2 = 0

/-- The laws above, with the canonical form of the shared region, and no tick being run again. -/
def State.lawsHold (s : State) : Bool :=
  decide (s.mem.wf ∧ s.regionsInside = true ∧ s.versionLaw ∧ s.haltedLaw) &&
    s.measurementsHold &&
    decide (s.pool.plan = Plan.none ∧ s.poolLaw ∧ s.reserveLaw) &&
    decide (∀ k, s.decodingLaw k ∧ s.fillingLaw k ∧ s.sizeLaw k ∧ s.rangeLaw k) &&
    decide (∀ k, s.chainLaw k ∧ s.pinLaw k)

/-! ## What the part writes -/

/-- The part-written area of an entry of the line table in force, 80h to 1FFh (R175). -/
def State.statusArea (s : State) (i : EntryIx) (a : Nat) : Prop :=
  ∃ r, s.port.regions = some r ∧ r.lineTable.base + i.val * 512 + 0x80 ≤ a ∧ a < r.lineTable.base + i.val * 512 + 0x200

/-- The slots of the notice ring in force (R185). -/
def State.ringArea (s : State) (a : Nat) : Prop :=
  ∃ r c, s.port.regions = some r ∧ s.notice.capacity = some c ∧ r.ring.base ≤ a ∧ a < r.ring.base + c * 32

/-- The blocks 1 to N of the pool in force (R79). -/
def State.poolArea (s : State) (a : Nat) : Prop :=
  ∃ r, s.port.regions = some r ∧ r.pool.base ≤ a ∧ a < r.pool.base + s.pool.blocks * 2048

/-- The bytes of the shared region that the part writes: the status areas, the notice ring and the blocks. -/
def State.partArea (s : State) (a : Nat) : Prop := (∃ i, s.statusArea i a) ∨ s.ringArea a ∨ s.poolArea a

end Sys2Proof.Machine
end

