-- ==== Sys2Proof/Machine/Tick.lean ====
section
/-! DEFINITION. The end of a tick (R88), the arrival of an event, and the frame of every command. Commands are carried out as they
come, so the lines that take blocks at one tick first choose in the order of their commands. Where that is not the ascending order
of the lines, the tick is run again from its beginning, each line choosing in its turn (log entry 25). -/

namespace Sys2Proof.Machine

/-! ## Running a tick again -/

/-- The event's tick is reached, and the host's writes stand in the shared region. Time never goes back: an event of an earlier
tick falls on the present one. -/
def State.met (e : Event) (s : State) : State := { s with now := max s.now e.tick, mem := s.mem.hostWrites e.writes }

/-- A command carried out once more. -/
def again (s : State) (c : Instr) : State :=
  let t := s.met (eventOf c)
  if publishes c then publish t (actOf c t) else actOf c t

/-- The tick run again from its beginning, its takes known. -/
def rerun (ran : List Instr) (takes : List Take) (s : State) : State :=
  let t := ran.foldl again { s with toPart := { s.start with pool := { s.start.pool with plan := ⟨takes, []⟩ } } }
  { t with pool := { t.pool with plan := Plan.none } }

/-- The tick run again, with the takes that it then has, until those are the ones it was run with: each take has come with the
choices of all lower lines before it. -/
def runInTurn (ran : List Instr) (s : State) : Nat → List Take → Option State
  | 0, _ => none
  | fuel + 1, takes =>
    let t := rerun ran takes s
    if t.pool.takes = takes then some t else runInTurn ran s fuel t.pool.takes

/-- A byte of the shared region that the part writes. -/
def State.partByte (s : State) (a : Nat) : Bool :=
  match s.port.regions with
  | none => false
  | some r =>
    (List.finRange 49).any (fun i : EntryIx =>
      decide (r.lineTable.base + i.val * 512 + 0x80 ≤ a) && decide (a < r.lineTable.base + i.val * 512 + 0x200)) ||
    (match s.notice.capacity with
      | none => false
      | some c => decide (r.ring.base ≤ a) && decide (a < r.ring.base + c * 32)) ||
    decide (r.pool.base ≤ a) && decide (a < r.pool.base + s.pool.blocks * 2048)

/-- `t` may stand in the place of `s` at the end of a tick: it keeps the laws, it is of the same tick, regions, ring and pool, and
no byte differs but those that the part writes. -/
abbrev State.mayBecome (s t : State) : Prop :=
  t.lawsHold = true ∧ (t.mem.filter (fun c => !s.partByte c.1) = s.mem.filter fun c => !s.partByte c.1) ∧
    t.now = s.now ∧ t.port.regions = s.port.regions ∧ t.pool.blocks = s.pool.blocks ∧
    t.notice.capacity = s.notice.capacity ∧ t.notice.consume = s.notice.consume

/-- The takes stand in ascending line number. -/
abbrev ascending (takes : List Take) : Prop := takes.Pairwise fun t u => t.line ≤ u.line

/-- The state as the tick leaves it when its takes choose in ascending line number. None where they did so in the first place,
and where the record of the tick does not lead to the state, as in a state that no run reaches. -/
def reordered (ran : List Instr) (s : State) : Option State :=
  if ¬ascending s.pool.takes ∧ (rerun ran [] s).toPart = s.toPart then
    match runInTurn ran s (ran.length + s.pool.takes.length + 2) s.pool.takes with
    | none => none
    | some t => if s.mayBecome { s with toPart := t.toPart } then some { s with toPart := t.toPart } else none
  else none

/-- The tick ends, `ran` being what it carried out: where several lines took blocks, they have their choices in ascending line
number (R88). -/
def endTick (ran : List Instr) (s : State) : State :=
  match s.pool.takes with
  | [] => s
  | _ =>
    let t := (reordered ran s).getD s
    { t with pool := { t.pool with takes := [] } }

/-! ## The arrival of an event -/

/-- The event of a command is reached: the tick before has ended if it is a later one, and the record of the new tick begins
with that command. -/
def State.arrive (e : Event) (s : State) : State :=
  if s.now < e.tick then
    let t := endTick s.ran.dropLast s
    { t with ran := s.ran.drop (s.ran.length - 1), start := t.toPart }.met e
  else s.met e

/-! ## The frame of a command -/

/-- A command that may reach the shared region: the event arrives, the command acts, and the status records
follow. -/
def perform (e : Event) (s : State) (act : State → State) : Host.Outcome State Fault Refusal :=
  let t := s.arrive e
  if t.regionsInside then .next (publish t (act t)) else .fault .outsideSharedRegion

/-- A command that acts on no published field and reaches no region in force. -/
def respond (e : Event) (s : State) (act : State → State) : Host.Outcome State Fault Refusal :=
  .next (act (s.arrive e))

end Sys2Proof.Machine
end

