-- ==== Sys2Proof/Machine/Meanings.lean ====
section
/-! DEFINITION. The meaning of every command, one definition each: the event arrives, the command's act is carried out, and the
status records follow where it publishes. -/

namespace Sys2Proof.Machine

/-! ## The life of the part and the register space -/

/-- PART_RESET (R182): every block takes its part reset values. The commands that wait go on waiting; the contents of
the shared region are undefined, and the model empties it (log entry 3). -/
def execPartReset (_e : Event) (s : State) : Host.Outcome State Fault Refusal :=
  .next { State.reset with pending := s.pending }

/-- HOST_LINK_RESET (R183): ATTENTION_ENABLE and the prompt set are cleared, nothing else. -/
def execHostLinkReset (e : Event) (s : State) : Host.Outcome State Fault Refusal :=
  respond e s (actOf (.hostLinkReset e))

/-- START (R170, R171). -/
def execStart (e : Event) (keep : Bool) (s : State) : Host.Outcome State Fault Refusal :=
  respond e s (actOf (.start e keep))

/-- HALT (R170, R174). -/
def execHalt (e : Event) (s : State) : Host.Outcome State Fault Refusal := respond e s (actOf (.halt e))

/-- STARTING_END (R171 to R173). -/
def execStartingEnd (e : Event) (s : State) : Host.Outcome State Fault Refusal := respond e s (actOf (.startingEnd e))

/-- LINE_HALT (R60, R174). -/
def execLineHalt (e : Event) (k : LineIx) (s : State) : Host.Outcome State Fault Refusal :=
  perform e s (actOf (.lineHalt e k))

/-- PROMPT (R177). -/
def execPrompt (e : Event) (value : Word32) (s : State) : Host.Outcome State Fault Refusal :=
  respond e s (actOf (.prompt e value))

/-- ATTENTION_ENABLE (R167, R192). -/
def execAttentionEnable (e : Event) (value : Word32) (s : State) : Host.Outcome State Fault Refusal :=
  respond e s (actOf (.attentionEnable e value))

/-- TIME_LOW (R169). -/
def execTimeLow (e : Event) (s : State) : Host.Outcome State Fault Refusal := respond e s (actOf (.timeLow e))

/-- REGISTER_WRITE_IGNORED (R167, R170): no effect. A write that is not ignored belongs to another row. -/
def execRegisterWriteIgnored (e : Event) (offset value : Word32) (s : State) : Host.Outcome State Fault Refusal :=
  if ignoredWrite offset value then respond e s (actOf (.registerWriteIgnored e offset value))
  else .refused .notAnIgnoredWrite

/-- LOOK_BEGIN (R177, R178). -/
def execLookBegin (e : Event) (s : State) : Host.Outcome State Fault Refusal := respond e s (actOf (.lookBegin e))

/-! ## Looks and requests -/

/-- LOOK_END (R178, R179). -/
def execLookEnd (e : LookEvent) (mark : Bool) (s : State) : Host.Outcome State Fault Refusal :=
  perform e.toEvent s (actOf (.lookEnd e mark))

/-- ENABLE (R41). -/
def execEnable (e : LookEvent) (k : LineIx) (mark : Bool) (s : State) : Host.Outcome State Fault Refusal :=
  perform e.toEvent s (actOf (.enable e k mark))

/-- DISABLE (R42). -/
def execDisable (e : LookEvent) (k : LineIx) (s : State) : Host.Outcome State Fault Refusal :=
  perform e.toEvent s (actOf (.disable e k))

/-- CONFIGURE (R45). -/
def execConfigure (e : LookEvent) (k : LineIx) (mark : Bool) (s : State) : Host.Outcome State Fault Refusal :=
  perform e.toEvent s (actOf (.configure e k mark))

/-- RELOCK (R47). -/
def execRelock (e : LookEvent) (k : LineIx) (s : State) : Host.Outcome State Fault Refusal :=
  perform e.toEvent s (actOf (.relock e k))

/-- RESET_COUNTERS (R48). -/
def execResetCounters (e : LookEvent) (k : LineIx) (s : State) : Host.Outcome State Fault Refusal :=
  perform e.toEvent s (actOf (.resetCounters e k))

/-- CLEAR_CAPTURE (R98). -/
def execClearCapture (e : LookEvent) (k : LineIx) (s : State) : Host.Outcome State Fault Refusal :=
  perform e.toEvent s (actOf (.clearCapture e k))

/-- PIN_NOW (R118). -/
def execPinNow (e : LookEvent) (k : LineIx) (s : State) : Host.Outcome State Fault Refusal :=
  perform e.toEvent s (actOf (.pinNow e k))

/-- UNPIN (R119). -/
def execUnpin (e : LookEvent) (k : LineIx) (s : State) : Host.Outcome State Fault Refusal :=
  perform e.toEvent s (actOf (.unpin e k))

/-- SET_CONSOLE (R140). -/
def execSetConsole (e : LookEvent) (k : LineIx) (s : State) : Host.Outcome State Fault Refusal :=
  perform e.toEvent s (actOf (.setConsole e k))

/-- HOLD_INPUT (R151). -/
def execHoldInput (e : LookEvent) (k : LineIx) (s : State) : Host.Outcome State Fault Refusal :=
  perform e.toEvent s (actOf (.holdInput e k))

/-- OPEN_INPUT (R151). -/
def execOpenInput (e : LookEvent) (k : LineIx) (s : State) : Host.Outcome State Fault Refusal :=
  perform e.toEvent s (actOf (.openInput e k))

/-- LOAD_PATTERNS (R124). -/
def execLoadPatterns (e : LookEvent) (s : State) : Host.Outcome State Fault Refusal :=
  perform e.toEvent s (actOf (.loadPatterns e))

/-- APPLY_SETTINGS (R181). -/
def execApplySettings (e : LookEvent) (s : State) : Host.Outcome State Fault Refusal :=
  perform e.toEvent s (actOf (.applySettings e))

/-- UNKNOWN_REQUEST (R180). -/
def execUnknownRequest (e : LookEvent) (s : State) : Host.Outcome State Fault Refusal :=
  perform e.toEvent s (actOf (.unknownRequest e))

/-! ## The entries of the input rings -/

/-- KEYS_ENTRY (R145). -/
def execKeysEntry (e : Event) (k : LineIx) (s : State) : Host.Outcome State Fault Refusal :=
  perform e s (actOf (.keysEntry e k))

/-- BREAK_ENTRY (R160). -/
def execBreakEntry (e : Event) (k : LineIx) (s : State) : Host.Outcome State Fault Refusal :=
  perform e s (actOf (.breakEntry e k))

/-- TAKE_ENTRY (R147). -/
def execTakeEntry (e : Event) (k : LineIx) (s : State) : Host.Outcome State Fault Refusal :=
  perform e s (actOf (.takeEntry e k))

/-- GIVE_ENTRY (R147). -/
def execGiveEntry (e : Event) (k : LineIx) (s : State) : Host.Outcome State Fault Refusal :=
  perform e s (actOf (.giveEntry e k))

/-- STEAL_ENTRY (R147). -/
def execStealEntry (e : Event) (k : LineIx) (s : State) : Host.Outcome State Fault Refusal :=
  perform e s (actOf (.stealEntry e k))

/-- REFUSED_ENTRY (R146). -/
def execRefusedEntry (e : Event) (k : LineIx) (s : State) : Host.Outcome State Fault Refusal :=
  perform e s (actOf (.refusedEntry e k))

/-! ## The transmit side -/

/-- HAND_OFF (R153). -/
def execHandOff (e : Event) (k : LineIx) (s : State) : Host.Outcome State Fault Refusal :=
  perform e s (actOf (.handOff e k))

/-- CHARACTER_SENT (R25). -/
def execCharacterSent (e : Event) (k : LineIx) (s : State) : Host.Outcome State Fault Refusal :=
  perform e s (actOf (.characterSent e k))

/-- LINE_END_EXPIRY (R154). -/
def execLineEndExpiry (e : Event) (k : LineIx) (s : State) : Host.Outcome State Fault Refusal :=
  perform e s (actOf (.lineEndExpiry e k))

/-- STALL (R156). -/
def execStall (e : Event) (k : LineIx) (s : State) : Host.Outcome State Fault Refusal :=
  perform e s (actOf (.stall e k))

/-- LAPSE (R148). -/
def execLapse (e : Event) (k : LineIx) (s : State) : Host.Outcome State Fault Refusal :=
  perform e s (actOf (.lapse e k))

/-- BREAK_SENT (R26). -/
def execBreakSent (e : Event) (k : LineIx) (s : State) : Host.Outcome State Fault Refusal :=
  perform e s (actOf (.breakSent e k))

/-- RECOVERY_END (R26). -/
def execRecoveryEnd (e : Event) (k : LineIx) (s : State) : Host.Outcome State Fault Refusal :=
  perform e s (actOf (.recoveryEnd e k))

/-- PROBE_DUE (R162, R163). -/
def execProbeDue (e : Event) (k : LineIx) (s : State) : Host.Outcome State Fault Refusal :=
  perform e s (actOf (.probeDue e k))

/-! ## The receive side and the sample -/

/-- CHARACTER_DELIVERED (R22). -/
def execCharacterDelivered (e : Event) (k : LineIx) (s : State) : Host.Outcome State Fault Refusal :=
  perform e s (actOf (.characterDelivered e k))

/-- RECORD_GAP: the open DATA record closes with cause GAP (R7, R95). -/
def execRecordGap (e : Event) (k : LineIx) (s : State) : Host.Outcome State Fault Refusal :=
  perform e s (actOf (.recordGap e k))

/-- BREAK_BEGUN (R24). -/
def execBreakBegun (e : Event) (k : LineIx) (s : State) : Host.Outcome State Fault Refusal :=
  perform e s (actOf (.breakBegun e k))

/-- BREAK_ENDED (R57). -/
def execBreakEnded (e : Event) (k : LineIx) (s : State) : Host.Outcome State Fault Refusal :=
  perform e s (actOf (.breakEnded e k))

/-- SPACE_HOLD: a received break has reached the dark-break limit (R35). -/
def execSpaceHold (e : Event) (k : LineIx) (s : State) : Host.Outcome State Fault Refusal :=
  perform e s (actOf (.spaceHold e k))

/-- SAMPLE (R31). -/
def execSample (e : Event) (pins : Vector Pins 48) (s : State) : Host.Outcome State Fault Refusal :=
  perform e s (actOf (.sample e pins))

/-- JOIN_EVENT: a falling edge of a line's receive data (R66). -/
def execJoinEvent (e : Event) (k : LineIx) (s : State) : Host.Outcome State Fault Refusal :=
  perform e s (actOf (.joinEvent e k))

/-- RECEIVE_RISING_EDGE (R69). -/
def execReceiveRisingEdge (e : Event) (k : LineIx) (s : State) : Host.Outcome State Fault Refusal :=
  perform e s (actOf (.receiveRisingEdge e k))

/-- CONFIRMING_SAMPLE (R4). -/
def execConfirmingSample (e : Event) (k : LineIx) (s : State) : Host.Outcome State Fault Refusal :=
  perform e s (actOf (.confirmingSample e k))

/-- FRAME_HELD_BACK (R5). -/
def execFrameHeldBack (e : Event) (k : LineIx) (s : State) : Host.Outcome State Fault Refusal :=
  perform e s (actOf (.frameHeldBack e k))

/-! ## The Rate Finder and the DATA timer -/

/-- WINDOW_EVALUATED (R71). -/
def execWindowEvaluated (e : Event) (k : LineIx) (s : State) : Host.Outcome State Fault Refusal :=
  perform e s (actOf (.windowEvaluated e k))

/-- WINDOW_TIMEOUT (R70). -/
def execWindowTimeout (e : Event) (k : LineIx) (s : State) : Host.Outcome State Fault Refusal :=
  perform e s (actOf (.windowTimeout e k))

/-- DATA_TIMER (R190). -/
def execDataTimer (e : Event) (k : LineIx) (s : State) : Host.Outcome State Fault Refusal :=
  perform e s (actOf (.dataTimer e k))

end Sys2Proof.Machine
end

