-- ==== Sys2Proof/Machine/Dispatch.lean ====
section
/-! DEFINITION. The dispatch: one arm for each command, each a call of its meaning. -/

namespace Sys2Proof.Machine

def exec (i : Instr) (s : State) : Host.Outcome State Fault Refusal :=
  match i with
  | .partReset e => Sys2Proof.Machine.execPartReset e s
  | .hostLinkReset e => Sys2Proof.Machine.execHostLinkReset e s
  | .start e keep => Sys2Proof.Machine.execStart e keep s
  | .halt e => Sys2Proof.Machine.execHalt e s
  | .startingEnd e => Sys2Proof.Machine.execStartingEnd e s
  | .lineHalt e k => Sys2Proof.Machine.execLineHalt e k s
  | .prompt e value => Sys2Proof.Machine.execPrompt e value s
  | .attentionEnable e value => Sys2Proof.Machine.execAttentionEnable e value s
  | .timeLow e => Sys2Proof.Machine.execTimeLow e s
  | .registerWriteIgnored e offset value => Sys2Proof.Machine.execRegisterWriteIgnored e offset value s
  | .lookBegin e => Sys2Proof.Machine.execLookBegin e s
  | .lookEnd e mark => Sys2Proof.Machine.execLookEnd e mark s
  | .enable e k mark => Sys2Proof.Machine.execEnable e k mark s
  | .disable e k => Sys2Proof.Machine.execDisable e k s
  | .configure e k mark => Sys2Proof.Machine.execConfigure e k mark s
  | .relock e k => Sys2Proof.Machine.execRelock e k s
  | .resetCounters e k => Sys2Proof.Machine.execResetCounters e k s
  | .clearCapture e k => Sys2Proof.Machine.execClearCapture e k s
  | .pinNow e k => Sys2Proof.Machine.execPinNow e k s
  | .unpin e k => Sys2Proof.Machine.execUnpin e k s
  | .setConsole e k => Sys2Proof.Machine.execSetConsole e k s
  | .holdInput e k => Sys2Proof.Machine.execHoldInput e k s
  | .openInput e k => Sys2Proof.Machine.execOpenInput e k s
  | .loadPatterns e => Sys2Proof.Machine.execLoadPatterns e s
  | .applySettings e => Sys2Proof.Machine.execApplySettings e s
  | .unknownRequest e => Sys2Proof.Machine.execUnknownRequest e s
  | .keysEntry e k => Sys2Proof.Machine.execKeysEntry e k s
  | .breakEntry e k => Sys2Proof.Machine.execBreakEntry e k s
  | .takeEntry e k => Sys2Proof.Machine.execTakeEntry e k s
  | .giveEntry e k => Sys2Proof.Machine.execGiveEntry e k s
  | .stealEntry e k => Sys2Proof.Machine.execStealEntry e k s
  | .refusedEntry e k => Sys2Proof.Machine.execRefusedEntry e k s
  | .handOff e k => Sys2Proof.Machine.execHandOff e k s
  | .characterSent e k => Sys2Proof.Machine.execCharacterSent e k s
  | .lineEndExpiry e k => Sys2Proof.Machine.execLineEndExpiry e k s
  | .stall e k => Sys2Proof.Machine.execStall e k s
  | .lapse e k => Sys2Proof.Machine.execLapse e k s
  | .breakSent e k => Sys2Proof.Machine.execBreakSent e k s
  | .recoveryEnd e k => Sys2Proof.Machine.execRecoveryEnd e k s
  | .probeDue e k => Sys2Proof.Machine.execProbeDue e k s
  | .characterDelivered e k => Sys2Proof.Machine.execCharacterDelivered e k s
  | .recordGap e k => Sys2Proof.Machine.execRecordGap e k s
  | .breakBegun e k => Sys2Proof.Machine.execBreakBegun e k s
  | .breakEnded e k => Sys2Proof.Machine.execBreakEnded e k s
  | .spaceHold e k => Sys2Proof.Machine.execSpaceHold e k s
  | .sample e pins => Sys2Proof.Machine.execSample e pins s
  | .joinEvent e k => Sys2Proof.Machine.execJoinEvent e k s
  | .windowEvaluated e k => Sys2Proof.Machine.execWindowEvaluated e k s
  | .windowTimeout e k => Sys2Proof.Machine.execWindowTimeout e k s
  | .dataTimer e k => Sys2Proof.Machine.execDataTimer e k s
  | .receiveRisingEdge e k => Sys2Proof.Machine.execReceiveRisingEdge e k s
  | .confirmingSample e k => Sys2Proof.Machine.execConfirmingSample e k s
  | .frameHeldBack e k => Sys2Proof.Machine.execFrameHeldBack e k s

end Sys2Proof.Machine
end

