-- ==== Sys2Proof/Machine/Step.lean ====
section
/-! DEFINITION. One step of the part: the command at the front of the queue is carried out. -/

namespace Sys2Proof.Machine

/-- The command at the front of the queue joins those that the tick has carried out and runs on the state with the rest of the
queue. With an empty queue the present tick of the 48 MHz reference ends, as at the arrival of a later event (R88), and the next
begins (log entry 4). -/
def step (s : State) : Host.Outcome State Fault Refusal :=
  match s.pending with
  | [] =>
    let t := { endTick s.ran s with now := s.now + 1, ran := [] }
    .next { t with start := t.toPart }
  | c :: rest => exec c { s with pending := rest, ran := s.ran ++ [c] }

/-- The state with the command that a word spells at the front of its queue; unchanged, since no word spells one. -/
def State.withFetchWord (s : State) (nbits w : Nat) : State :=
  match decodeTableWord nbits w with
  | none => s
  | some c => { s with pending := c :: s.pending }

end Sys2Proof.Machine
end

