-- ==== Sys2Proof/Safety.lean ====
section
/-! DEFINITION. The terms in which claims about runs are stated: what it means that a command leaves the other lines alone, and
what a request, an entry, a character, a sample or a pin does, said from the manual. The laws of every tick stand in
Machine/Bounds. -/

namespace Sys2Proof.Machine

/-! ## Commands -/

/-- The line a command acts on, for the commands that act on one line. -/
def lineActedOn : Instr → Option LineIx
  | .partReset _ => none
  | .hostLinkReset _ => none
  | .start _ _ => none
  | .halt _ => none
  | .startingEnd _ => none
  | .lineHalt _ k => some k
  | .prompt _ _ => none
  | .attentionEnable _ _ => none
  | .timeLow _ => none
  | .registerWriteIgnored _ _ _ => none
  | .lookBegin _ => none
  | .lookEnd _ _ => none
  | .enable _ k _ => some k
  | .disable _ k => some k
  | .configure _ k _ => some k
  | .relock _ k => some k
  | .resetCounters _ k => some k
  | .clearCapture _ k => some k
  | .pinNow _ k => some k
  | .unpin _ k => some k
  | .setConsole _ k => some k
  | .holdInput _ k => some k
  | .openInput _ k => some k
  | .loadPatterns _ => none
  | .applySettings _ => none
  | .unknownRequest _ => none
  | .keysEntry _ k => some k
  | .breakEntry _ k => some k
  | .takeEntry _ k => some k
  | .giveEntry _ k => some k
  | .stealEntry _ k => some k
  | .refusedEntry _ k => some k
  | .handOff _ k => some k
  | .characterSent _ k => some k
  | .lineEndExpiry _ k => some k
  | .stall _ k => some k
  | .lapse _ k => some k
  | .breakSent _ k => some k
  | .recoveryEnd _ k => some k
  | .probeDue _ k => some k
  | .characterDelivered _ k => some k
  | .recordGap _ k => some k
  | .breakBegun _ k => some k
  | .breakEnded _ k => some k
  | .spaceHold _ k => some k
  | .sample _ _ => none
  | .joinEvent _ k => some k
  | .windowEvaluated _ k => some k
  | .windowTimeout _ k => some k
  | .dataTimer _ k => some k
  | .receiveRisingEdge _ k => some k
  | .confirmingSample _ k => some k
  | .frameHeldBack _ k => some k

/-! ## Lines are apart -/

/-- Every line but `k` has in `t` what it has in `s`: its control, counters, front end, capture, matching, input, DATA
timer and notice summary. -/
structure SameElsewhere (k : LineIx) (s t : State) : Prop where
  control : ∀ j, j ≠ k → t.ctl j = s.ctl j
  counters : ∀ j, j ≠ k → t.cnt j = s.cnt j
  front : ∀ j, j ≠ k → t.fe j = s.fe j
  capture : ∀ j, j ≠ k → t.cap j = s.cap j
  matching : ∀ j, j ≠ k → t.mat j = s.mat j
  input : ∀ j, j ≠ k → t.inp j = s.inp j
  data : ∀ j : LineIx, j ≠ k → t.notice.data[j] = s.notice.data[j]
  summaries : ∀ j : LineIx, j ≠ k → t.notice.summaries[entryOf j] = s.notice.summaries[entryOf j]
  table : t.engine.table = s.engine.table
  loads : t.engine.loads = s.engine.loads
  blocks : t.pool.blocks = s.pool.blocks

/-! ## Laws of the manual -/

/-- No sequence that the line still names is about to come round modulo 2^32: of its blocks and of its pins (R82). -/
def State.youngLaw (s : State) (k : LineIx) : Prop :=
  (∀ b ∈ (s.cap k).chain, s.age k b.sequence < 2 ^ 32 - 2 ^ 16) ∧ ∀ p ∈ (s.cap k).pins, s.age k p.first < 2 ^ 32 - 2 ^ 16

/-! ## What the part may write -/

/-- The notices posted up to `t` are those posted up to `w`, with all their arguments: the Notice Unit is the same, and so are
the bytes in the slots of the ring. -/
structure SameNotices (w t : State) : Prop where
  unit : t.notice = w.notice
  slots : ∀ x, w.ringArea x → (∀ i, ¬w.statusArea i x) → ¬w.poolArea x → t.mem.read x = w.mem.read x

/-! ## What a command leaves as it was -/

/-- The Engine Port with the versions of the status records left aside. -/
def EnginePort.shown (p : EnginePort) : EnginePort :=
  { p with entries := tab fun i => { p.entries[i] with version := 0, bracket := none } }

/-- A command about line `k`: the other lines, the Engine Port but for versions, the tick, the queue, and the ring's
capacity and consume count are the same in `s` and `t`. -/
structure OnlyLine (k : LineIx) (s t : State) : Prop where
  elsewhere : SameElsewhere k s t
  port : t.port.shown = s.port.shown
  now : t.now = s.now
  pending : t.pending = s.pending
  capacity : t.notice.capacity = s.notice.capacity
  consume : t.notice.consume = s.notice.consume

/-- The state with the look over and the request it took answered in its entry, before any notice (R179). -/
def State.answered (s : State) (r : Request) (code : AnswerCode) (detail : Nat) : State :=
  { s with port := { s.port with
    look := none
    entries := upd s.port.entries r.entry fun q => { q with answered := r.number, code := code, detail := detail } } }

/-- The ANSWER notice of a request. -/
def answerNotice (s : State) (r : Request) (code : AnswerCode) (detail : Nat) : Notice :=
  ⟨.answer, r.entry, s.time, answerArgs r code detail⟩

/-- The state the request of a look meets: the look is over, and where the count goes first it has been taken, with the
entries of a line's ring that it makes pending considered as far as they go (R145, R178). -/
def State.asTaken (s : State) (i : EntryIx) (first : Bool) : State :=
  if first then lookOver s else takeCount i (s.entryWord i 0x60) (lookOver s)

/-- A look at line `k` of the state `s` ended with a request that is answered, `b` being the state the request meets; the
produce count it read is handed over, and more than 32 pending entries are skipped (R143, R144, R178, R179). -/
structure LookEnded (k : LineIx) (r : Request) (code : AnswerCode) (detail : Nat) (s b t : State) : Prop
    extends OnlyLine k (b.answered r code detail) t where
  produce : (t.inp k).produce = s.entryWord (entryOf k) 0x60
  consumed : (t.inp k).consume =
    if 32 < (s.entryWord (entryOf k) 0x60 - (b.inp k).consume).toNat then s.entryWord (entryOf k) 0x60
    else (b.inp k).consume

/-- A look at line `k` ended with a request that is answered and changes nothing else. -/
structure OnlyAnswered (k : LineIx) (first : Bool) (r : Request) (code : AnswerCode) (detail : Nat) (s b t : State) : Prop
    extends LookEnded k r code detail s b t where
  control : t.control = b.control
  counters : t.counters = b.counters
  front : t.front = b.front
  rate : t.rate = b.rate
  pool : t.pool = b.pool
  engine : t.engine = b.engine
  input : t.input = (handCount (entryOf k) (s.entryWord (entryOf k) 0x60) b).input
  notice : SameNotices (s.lookOrder (entryOf k) first (post (answerNotice s r code detail))) t

/-- A front end without its transmitter and its handed probe. -/
def FrontEnd.rest (f : FrontEnd) : FrontEnd := { f with transmitter := .idle, probeHanded := false }

/-- An input without its grant timer, the entry in flight and the silence timer. -/
def InputLine.rest (i : InputLine) : InputLine :=
  { i with grantElapsed := 0, grantSince := none, entry := none, silence := 0 }

/-- The six counters of R58 that the Capture Store does not advance. -/
def Counters.traffic (c : Counters) : Counters := { c with recordsClosed := 0, blocksReclaimed := 0 }

/-- The next record number of a line once `n` more records are written, its open DATA record first. -/
def State.numberAfter (s : State) (k : LineIx) (n : Nat) : Word32 :=
  (s.cap k).nextRecord + BitVec.ofNat 32 ((if (s.cap k).openRecord.isSome then 1 else 0) + n)

/-- The state after line `k` closed its open DATA record with a cause, if one was open, and wrote records, in order (R93,
R95, R96). -/
def State.writing (s : State) (k : LineIx) (cause : CloseCause) (records : List Record) : State :=
  records.foldl (fun t r => record k r t) (closeOpen k cause s)

/-- Between `s` and `t` line `k` closed its open DATA record with a cause, if one was open, and wrote these records, in order,
and no other: its chain, the free list and the counters of records and reclaims are those of that writing, and so is every
byte but those of the status records and the notice ring. -/
structure Wrote (k : LineIx) (cause : CloseCause) (records : List Record) (s t : State) : Prop where
  closed : (t.cap k).openRecord = none
  number : (t.cap k).nextRecord = s.numberAfter k records.length
  chain : (t.cap k).chain = ((s.writing k cause records).cap k).chain
  sequence : (t.cap k).nextSequence = ((s.writing k cause records).cap k).nextSequence
  free : t.pool.free = (s.writing k cause records).pool.free
  counted : t.cnt k = (s.writing k cause records).cnt k
  traffic : (t.cnt k).traffic = (s.cnt k).traffic
  bytes : ∀ x, (∀ i, ¬s.statusArea i x) → ¬s.ringArea x → t.mem.read x = (s.writing k cause records).mem.read x

/-- The BREAK_IN record of a received break that is cut off, if one is in progress (R24, R57). -/
def State.breakInCut (s : State) (k : LineIx) : List Record :=
  match (s.fe k).receiver with
  | .inBreak c _ => [breakInRecord true (micros (s.now - c.edge)) (timeAt c.edge)]
  | _ => []

/-- The BREAK_OUT record of a break on the wire that is cut short with its entry (R27, R161). -/
def State.breakOutCut (s : State) (k : LineIx) : List Record :=
  match (s.fe k).transmitter, (s.inp k).entry with
  | .spacing start _, some x => [breakOutRecord true x.tag (micros (s.now - start)) (timeAt start)]
  | _, _ => []

/-- The record of the entry in flight when it is cut: INPUT for KEYS that have bytes, BREAK_OUT for a break on the wire
(R157, R158, R161). -/
def State.entryCut (s : State) (k : LineIx) (reason : CutReason) : List Record :=
  match (s.inp k).entry with
  | none => []
  | some x =>
    if x.isBreak then s.breakOutCut k
    else if x.keys.isEmpty then [] else [inputRecord x.tag (some reason) (x.keys.take x.sent) (timeAt x.taken)]

/-- An entry of kind `kind` stands at the head of line `k` and is considered, with a good tag (R145). -/
structure Heads (k : LineIx) (kind : Nat) (r : RingEntry) (s : State) : Prop where
  considered : s.considers k = true
  head : s.head k = r
  tagOk : r.tagOk = true
  kindIs : r.kind = kind

/-- The entry at the head of line `k` was refused: consumed, counted and reported, with nothing else changed (R146). -/
structure HeadRefused (k : LineIx) (r : RingEntry) (reason : RefuseReason) (s t : State) : Prop
    extends OnlyLine k s t where
  consumed : (t.inp k).consume = (s.inp k).consume + 1
  holder : (t.inp k).holder = (s.inp k).holder
  entry : (t.inp k).entry = none
  counted : t.cnt k = { s.cnt k with entriesRefused := satAdd (s.cnt k).entriesRefused 1 }
  control : t.ctl k = s.ctl k
  front : (t.fe k).rest = (s.fe k).rest
  matching : t.mat k = s.mat k
  pool : t.pool = s.pool
  rate : t.rate = s.rate
  notice : SameNotices (tell k .inputRefused
    (leBytes 4 (s.inp k).consume.toNat ++
      [byteOf r.tag, byteOf r.kind, byteOf reason.code, byteOf (if reason = .heldBy then (s.inp k).holder else 0)]) s) t

/-- A grant entry at the head of line `k` was carried out: it is consumed, and the line's state, matching, measurement and
gate stay (R145, R147). -/
structure HeadConsumed (k : LineIx) (s t : State) : Prop extends OnlyLine k s t where
  consumed : (t.inp k).consume = (s.inp k).consume + 1
  produce : (t.inp k).produce = (s.inp k).produce
  entry : (t.inp k).entry = none
  gate : (t.inp k).gate = (s.inp k).gate
  control : t.ctl k = s.ctl k
  front : (t.fe k).rest = (s.fe k).rest
  matching : t.mat k = s.mat k
  rate : t.rate = s.rate

/-- The records a line writes as it leaves its state: of the break received, of the entry in flight, and LINE (R42, R49,
R60). -/
def State.leavingRecords (s : State) (k : LineIx) (left : LineState) (cause : LineCause) (cut : CutReason) : List Record :=
  s.breakInCut k ++ s.entryCut k cut ++ [lineRecord left cause s.time]

/-- What line `k` writes and posts as it leaves its state for `left`, in order: of the break received, the open DATA record, of
the entry in flight, the line's state (R42, R49, R57, R60, R157, R161). -/
def State.leaving (s : State) (k : LineIx) (left : LineState) (cause : LineCause) (close : CloseCause) (cut : CutReason) :
    State :=
  let b := match (s.fe k).receiver with
    | .inBreak c _ => tell k .breakSeen (leBytes 8 (timeAt c.edge) ++ leBytes 4 (micros (s.now - c.edge)))
        (s.writing k .record (s.breakInCut k))
    | _ => s
  let c := closeOpen k close b
  let d := match (s.inp k).entry with
    | none => c
    | some x => tellCut k x cut (c.writing k .record (s.entryCut k cut))
  (d.writing k .record [lineRecord left cause s.time]).ifThen (s.ctl k).state.present
    (tell k .lineDown [byteOf left.code, byteOf cause.code])

/-- Line `k` has left its state for `left` (R42, R49, R60): it decodes and sends nothing, its entry is gone, its
measurement is abandoned, its settings, period and histories are kept, and it wrote its records. The open DATA record closes
with `close`, but before a BREAK_IN record as before any record. -/
structure LineLeft (k : LineIx) (left : LineState) (cause : LineCause) (close : CloseCause) (cut : CutReason) (s t : State) :
    Prop where
  control : t.ctl k = { s.ctl k with state := left }
  receiver : (t.fe k).receiver = .stopped
  idle : (t.fe k).idle = none
  flowPause : (t.fe k).flowPause = false
  probe : (t.fe k).probeHanded = false
  level : (t.fe k).mark = (s.fe k).mark
  readings : (t.fe k).readings = (s.fe k).readings
  stopped : ∀ i, (s.fe k).transmitter = .sending i → (∀ e, (s.inp k).entry = some e → e.isBreak = false) →
    (t.fe k).transmitter = .idle
  spacing : ∀ start d e, (s.fe k).transmitter = .spacing start d → (s.inp k).entry = some e → e.isBreak = true →
    (t.fe k).transmitter = .recovery (s.now + (s.ctl k).period)
  entry : (t.inp k).entry = none
  gate : (t.inp k).gate = { (s.inp k).gate with notLive := true }
  holder : (t.inp k).holder = (s.inp k).holder
  matching : t.mat k = { s.mat k with progress := Vector.replicate 32 0 }
  records : Wrote k (if s.breakInCut k = [] then close else .record) (s.leavingRecords k left cause cut) s t
  phase : t.phaseOf k = .none
  wait : k ∉ t.rate.wait

/-! ## What a delivered character does -/

/-- A character counted, with its marks, and standing in the open DATA record (R58, R94). -/
def State.captured (s : State) (k : LineIx) (c : Character) : State :=
  appendChar k c.byte c.marks (timeAt c.edge)
    (s.modCnt k fun n => { n with
      bytesReceived := satAdd n.bytesReceived 1
      framingErrors := satAdd n.framingErrors (if c.framingError then 1 else 0)
      parityErrors := satAdd n.parityErrors (if c.parityError then 1 else 0) })

/-- The entry in flight whose LINE_END a delivered byte ends under echo wait, if it does (R154). -/
def State.echoed (s : State) (k : LineIx) (byte : Byte) : Option InFlight :=
  match (s.inp k).entry with
  | none => none
  | some x =>
    match x.phase with
    | .lineEnd _ => if (s.cfg k).echoWait = true ∧ (byte = 0x0D#8 ∨ byte = 0x0A#8) then some x else none
    | _ => none

/-- The INPUT record of an entry that a delivered byte ends, no byte of it being left to send (R154, R158). -/
def State.echoRecords (s : State) (k : LineIx) (byte : Byte) : List Record :=
  match s.echoed k byte with
  | none => []
  | some x =>
    if x.sent < x.keys.length ∨ x.keys = [] then [] else [inputRecord x.tag none (x.keys.take x.sent) (timeAt x.taken)]

/-- What one completed pattern writes, in the order of R132: its MARK record, with its pin while the line has a budget, and
its MATCH notice, which names the DATA record that the byte closed; both carry the console state it leaves (R111, R133,
R134). -/
def State.marked (k : LineIx) (closed : Word32) (s : State) (i : Fin 32) : State :=
  let p := s.engine.table[i]
  let console := if p.actState then p.target else (s.mat k).console
  let pins := p.actPin && decide (2 < (s.cfg k).quotaMin)
  let t :=
    if pins then createPin k (i.val + 1) p.before p.after console s
    else if p.actPin || p.actMark then record k (markRecord (i.val + 1) console 0 s.time) s
    else s
  let u := t.modMat k fun m => { m with console := console }
  if p.actNotice then
    tell k .match
      ([byteOf (i.val + 1), byteOf console.code, byteOf (if pins then s.pinId k else 0), 0] ++ leBytes 4 closed.toNat) u
  else u

/-- What completed patterns write, in ascending number, once the open DATA record is closed with the byte (R131, R132). -/
def State.marking (s : State) (k : LineIx) (slots : List (Fin 32)) : State :=
  slots.foldl (State.marked k (s.cap k).nextRecord) (closeOpen k .match s)

/-! ## Pins (R110 to R114) -/

/-- The state after a line's pins were discarded one after another with a reason each, but for the pin list: PIN_DROPPED for
each (R114). -/
def State.tellDropped (s : State) (k : LineIx) (dropped : List (Pin × DropReason)) : State :=
  dropped.foldl (fun u x => tell k .pinDropped (pinArgs x.1 x.2.code) u) s

/-- Room was made for the new pin `p` of line `k`, and it was placed as `q` (R110): of the list, oldest first, `dropped` were
discarded and `kept` stay, no more than overflow and budget ask for, and with none kept a pin beyond the budget is cut to the
newest blocks of it. -/
structure PinPlaced (k : LineIx) (p q : Pin) (dropped kept : List Pin) (s t : State) : Prop where
  oldest : (s.cap k).pins = dropped ++ kept
  placed : t.cap k = { s.cap k with pins := kept ++ [q] }
  overflow : 4 ≤ (s.cap k).pins.length → dropped ≠ []
  fits : kept = [] ∨ pinnedCount (p :: kept) (s.cap k).chain ≤ (s.cfg k).quotaMin - 2
  needed : ∀ older x, dropped = older ++ [x] →
    older = [] ∧ 4 ≤ (s.cap k).pins.length ∨ (s.cfg k).quotaMin - 2 < pinnedCount (p :: x :: kept) (s.cap k).chain
  whole : kept ≠ [] ∨ pinnedCount [p] (s.cap k).chain ≤ (s.cfg k).quotaMin - 2 → q = p
  truncated : kept = [] → (s.cfg k).quotaMin - 2 < pinnedCount [p] (s.cap k).chain →
    ∀ b, (newestBlocks ((s.cfg k).quotaMin - 2) (s.cap k).chain).head? = some b →
      q = { p with first := b.sequence, truncated := true }
  notice : SameNotices (s.tellDropped k (dropped.zipIdx.map fun x =>
    (x.1, if x.2 = 0 ∧ 4 ≤ (s.cap k).pins.length then .overflow else .budget))) t

/-- The line's capture without some of its pins. -/
def State.withoutPins (s : State) (k : LineIx) (dropped : List Pin) : State :=
  s.modCap k fun c => { c with pins := c.pins.filter fun p => decide (p ∉ dropped) }

/-- The OPEN pin `p` of line `k` had its turn over the newest block and became `q` (R112, R113): of the other pins the oldest
were discarded, no more than the budget asks for; with room the pin takes the block in, and without room it closes truncated.
A pin that is no longer OPEN posts PIN_CLOSED. -/
structure PinExtended (k : LineIx) (sequence : Word32) (p q : Pin) (dropped : List Pin) (s t : State) : Prop where
  oldest : dropped <+: (s.cap k).pins.filter fun x => x.id != p.id
  capture : t.cap k = { s.cap k with
    pins := ((s.withoutPins k dropped).cap k).pins.map fun x => if x.id = p.id then q else x }
  needed : ∀ fewer, fewer <+: dropped → fewer ≠ dropped → (s.withoutPins k fewer).blockFits k sequence = false
  taken : (s.withoutPins k dropped).blockFits k sequence = true →
    q = { p with last := sequence, remaining := p.remaining - 1 }
  closed : (s.withoutPins k dropped).blockFits k sequence = false →
    q = { p with remaining := 0, truncated := true } ∧ dropped = (s.cap k).pins.filter fun x => x.id != p.id
  notice : SameNotices ((s.tellDropped k (dropped.map fun x => (x, .budget))).ifThen (decide (q.remaining = 0))
    (tell k .pinClosed (pinArgs q (if q.truncated = true then 1 else 0)))) t

/-! ## What a CONFIGURE changes -/

/-- New settings bring a dark-break limit that a break in progress has already passed (R35). A change of role cuts the
break first (R18). -/
def State.darkens (s : State) (k : LineIx) (n : Settings) : Prop :=
  (s.cfg k).darkBreak ≠ n.darkBreak ∧ n.darkBreak ≠ 0 ∧ (s.cfg k).role = n.role ∧
    ∃ c rise, (s.fe k).receiver = .inBreak c rise ∧ c.edge + n.darkBreak * 48000 ≤ s.now ∧
      ∀ r, rise = some r → c.edge + n.darkBreak * 48000 ≤ r + c.period

/-- New settings bring a stall limit that the pause of the entry in flight has already passed (R156). An item of its own on
the wire, which a paused entry has not, would be stopped or cut by a change of role first (R18). -/
def State.stalls (s : State) (k : LineIx) (n : Settings) : Prop :=
  ¬s.darkens k n ∧ (s.cfg k).stallLimit ≠ n.stallLimit ∧ n.stallLimit ≠ 0 ∧
    ((s.cfg k).role = n.role ∨
      ∀ w, (s.fe k).transmitter = w → (∀ i, w = .sending i → i.probe = true) ∧ ∀ b d, w ≠ .spacing b d) ∧
    ∃ x since, (s.inp k).entry = some x ∧ (x.phase = .pausedGate since ∨ x.phase = .pausedFlow since) ∧
      since + n.stallLimit * 48000000 ≤ s.now

/-- New settings bring a grant timeout that the grant timer has already reached, the gate being `gate` once they act
(R148). -/
def State.lapses (s : State) (k : LineIx) (n : Settings) (gate : Gate) : Prop :=
  (s.cfg k).grantTimeout ≠ n.grantTimeout ∧ n.grantTimeout ≠ 0 ∧ (s.inp k).holder ≠ 0 ∧ gate.held = false ∧
    (s.inp k).entry = none ∧ n.grantTimeout * 48000000 ≤ s.grantTime k

/-- The line state after a CONFIGURE between two rate modes (the table of R45). -/
def LineState.configured (state : LineState) (was now : RateMode) : LineState :=
  match state with
  | .off => .off
  | .dark => .dark
  | .seeking => if now = .fixed then .live else .seeking
  | .live => if was = .fixed ∧ now ≠ .fixed then .checking else .live
  | .checking => if now = .fixed then .live else .checking

/-! ## The 1 ms sample -/

/-- The SIGNAL notices of a sample, device-ready first: an input that changed since the sample before, on a line that is not
OFF, if the settings select the edge (R32). -/
def State.signalNotices (s : State) (k : LineIx) (r : Readings) : List Notice :=
  let one (signal : Nat) (select : EdgeSelect) (before after : Bool) : List Notice :=
    if s.port.sampled ≠ none ∧ (s.ctl k).state ≠ .off ∧ before ≠ after ∧
        (select = .both ∨ select = (if after then .rise else .fall)) then
      [⟨.signal, entryOf k, s.time, [byteOf signal, byteOf (if after then 1 else 2),
        byteOf ((if r.deviceReady then 1 else 0) + (if r.clearToSend then 2 else 0) + (if r.active then 4 else 0))]⟩]
    else []
  one 0 (s.cfg k).readyEdges (s.fe k).readings.deviceReady r.deviceReady ++
    one 1 (s.cfg k).clearEdges (s.fe k).readings.clearToSend r.clearToSend

/-- The state that R40 chooses on a present line. -/
def State.chosen (s : State) (k : LineIx) : LineState :=
  if (s.cfg k).rateMode = .fixed then .live else if (s.ctl k).remembered = none then .seeking else .checking

/-- The RATE record that comes with a state chosen by R40: the fixed period in LIVE, the remembered lock in CHECKING. -/
def chosenRate (state : LineState) (n : Settings) (remembered : Option Nat) (time : Nat) : List Record :=
  match state with
  | .live => [rateRecord n.fixedPeriod .fixed time]
  | .checking => [rateRecord (remembered.getD 0) .locked time]
  | _ => []

/-! ## The region directory (R172) -/

/-- The entries 1 to 5 of a directory, each with the alignment of its base and its smallest size, 0 where none is asked for. -/
def Regions.entries (r : Regions) (capacity : Nat) : List (Region × Nat × Nat) :=
  [(r.lineTable, 512, 49 * 512), (r.patterns, 64, 32 * 64), (r.ring, 32, capacity * 32), (r.inputs, 2048, 48 * 2048),
    (r.pool, 2048, 0)]

/-- Entry `n` of a directory fails a check of R172. -/
def Regions.fails (r : Regions) (capacity n check : Nat) : Prop :=
  ∃ g align smallest, 1 ≤ n ∧ (r.entries capacity)[n - 1]? = some (g, align, smallest) ∧
    (check = 1 ∧ 0x1FFFFFF < g.base + g.limit ∨ check = 2 ∧ g.base % align ≠ 0 ∨
      check = 3 ∧ n = 3 ∧ capacity ∉ [256, 512, 1024, 2048, 4096] ∨ check = 4 ∧ g.limit + 1 < smallest ∨
      check = 5 ∧ (g.base ≤ 63 ∨ ∃ h ∈ (r.entries capacity).take (n - 1),
        g.base ≤ h.1.base + h.1.limit ∧ h.1.base ≤ g.base + g.limit))

/-! ## The wire -/

/-- The edges that a run of bits of one level each puts on the wire after its first bit, in the order they come: bit `n`
begins at `start + n × period`. -/
def edgesOf (start period : Nat) : Nat → Bool → List Bool → List (Nat × Bool)
  | _, _, [] => []
  | n, level, b :: bs =>
    if b = level then edgesOf start period (n + 1) level bs else (start + n * period, b) :: edgesOf start period (n + 1) b bs

/-- The wave of a character sent from a tick on, as a receiver keeps it: after the start edge, newest first. -/
def waveOf (start period : Nat) (f : Frame) (byte : Byte) : Wave :=
  (edgesOf start period 1 false (characterBits f byte).tail).reverse

/-! ## Commands that write no record -/

/-- The commands that carry out a request behind the count that its look read (R178). -/
def countFirst : Instr → Bool
  | .partReset _ => false
  | .hostLinkReset _ => false
  | .start _ _ => false
  | .halt _ => false
  | .startingEnd _ => false
  | .lineHalt _ _ => false
  | .prompt _ _ => false
  | .attentionEnable _ _ => false
  | .timeLow _ => false
  | .registerWriteIgnored _ _ _ => false
  | .lookBegin _ => false
  | .lookEnd _ _ => false
  | .enable l _ _ => !l.requestFirst
  | .disable l _ => !l.requestFirst
  | .configure l _ _ => !l.requestFirst
  | .relock l _ => !l.requestFirst
  | .resetCounters l _ => !l.requestFirst
  | .clearCapture l _ => !l.requestFirst
  | .pinNow l _ => !l.requestFirst
  | .unpin l _ => !l.requestFirst
  | .setConsole l _ => !l.requestFirst
  | .holdInput l _ => !l.requestFirst
  | .openInput l _ => !l.requestFirst
  | .loadPatterns l => !l.requestFirst
  | .applySettings l => !l.requestFirst
  | .unknownRequest l => !l.requestFirst
  | .keysEntry _ _ => false
  | .breakEntry _ _ => false
  | .takeEntry _ _ => false
  | .giveEntry _ _ => false
  | .stealEntry _ _ => false
  | .refusedEntry _ _ => false
  | .handOff _ _ => false
  | .characterSent _ _ => false
  | .lineEndExpiry _ _ => false
  | .stall _ _ => false
  | .lapse _ _ => false
  | .breakSent _ _ => false
  | .recoveryEnd _ _ => false
  | .probeDue _ _ => false
  | .characterDelivered _ _ => false
  | .recordGap _ _ => false
  | .breakBegun _ _ => false
  | .breakEnded _ _ => false
  | .spaceHold _ _ => false
  | .sample _ _ => false
  | .joinEvent _ _ => false
  | .windowEvaluated _ _ => false
  | .windowTimeout _ _ => false
  | .dataTimer _ _ => false
  | .receiveRisingEdge _ _ => false
  | .confirmingSample _ _ => false
  | .frameHeldBack _ _ => false

/-- The commands that write into no block of the pool, but for the entries that a request's look considers before it. LOOK_END
writes what the request it takes writes. -/
def writesNoBlock : Instr → Bool
  | .hostLinkReset _ => true
  | .start _ _ => true
  | .halt _ => true
  | .startingEnd _ => true
  | .prompt _ _ => true
  | .attentionEnable _ _ => true
  | .timeLow _ => true
  | .registerWriteIgnored _ _ _ => true
  | .lookBegin _ => true
  | .relock _ _ => true
  | .resetCounters _ _ => true
  | .unpin _ _ => true
  | .setConsole _ _ => true
  | .holdInput _ _ => true
  | .openInput _ _ => true
  | .loadPatterns _ => true
  | .applySettings _ => true
  | .unknownRequest _ => true
  | .keysEntry _ _ => true
  | .breakEntry _ _ => true
  | .refusedEntry _ _ => true
  | .handOff _ _ => true
  | .recoveryEnd _ _ => true
  | .probeDue _ _ => true
  | .joinEvent _ _ => true
  | .windowTimeout _ _ => true
  | .dataTimer _ _ => true
  | .receiveRisingEdge _ _ => true
  | .confirmingSample _ _ => true
  | .frameHeldBack _ _ => true
  | .lookEnd _ _ => false
  | .partReset _ => false
  | .lineHalt _ _ => false
  | .enable _ _ _ => false
  | .disable _ _ => false
  | .configure _ _ _ => false
  | .clearCapture _ _ => false
  | .pinNow _ _ => false
  | .takeEntry _ _ => false
  | .giveEntry _ _ => false
  | .stealEntry _ _ => false
  | .characterSent _ _ => false
  | .lineEndExpiry _ _ => false
  | .stall _ _ => false
  | .lapse _ _ => false
  | .breakSent _ _ => false
  | .characterDelivered _ _ => false
  | .recordGap _ _ => false
  | .breakBegun _ _ => false
  | .breakEnded _ _ => false
  | .spaceHold _ _ => false
  | .sample _ _ => false
  | .windowEvaluated _ _ => false

end Sys2Proof.Machine
end

