-- ==== Sys2Proof/Certificates/Slice0/Obligations.lean ====
section
/-! DEFINITION. The statements for the provers. Each docstring names the rules of the manual it formalises. In a statement
about a command with event `e`, `a` is the state the command meets: the event's tick reached and the host's writes stored. In one
about a request, `b` is the state the request meets: the look over, and where the count comes first, the count taken. -/

section Statements

open Sys2Proof Sys2Proof.Machine

/-! ## The queue, time and resets -/

/-- A step carries out the command at the front of the queue, on the state with the rest of the queue, where the command stands
last among those that the tick has carried out, the model's own record (log entry 25). With no command waiting, by the model's
choice of log entry 4, the tick ends and the next of the 48 MHz reference begins: nothing of the part changes but what the order
of R88 makes of a tick at which lines took blocks, so nothing at all where none did, and the record begins anew. TIME rises
by one microsecond in 48 ticks (R169). -/
def Obligations.StepTakesFrontCommand : Prop :=
  (∀ (c : Instr) (s : State) (rest : List Instr),
      step { s with pending := c :: rest } = exec c { s with pending := rest, ran := s.ran ++ [c] }) ∧
    (∀ s t : State, s.pending = [] → endTick s.ran s = t →
      step s = .next { t with now := s.now + 1, ran := [], start := { t.toPart with now := s.now + 1 } }) ∧
    (∀ s : State, s.pending = [] → s.pool.takes = [] →
      step s = .next { s with now := s.now + 1, ran := [], start := { s.toPart with now := s.now + 1 } }) ∧
    ∀ n : Nat, timeAt (n + 48) = (timeAt n + 1) % 2 ^ 48

/-- R182: PART_RESET gives every block its part reset values, whatever the part was doing. The commands that wait go on
waiting. The shared region, undefined by the manual, reads as 0 (log entry 3), and the values of State.reset that no rule
gives are the model's choice too (log entry 15). -/
def Obligations.PartResetGivesResetValues : Prop :=
  ∀ (e : Event) (s : State), ∃ t, exec (.partReset e) s = .next t ∧ t = { State.reset with pending := s.pending } ∧
    t.port.engine = .halted ∧ t.port.result = .none ∧ t.port.detail = 0 ∧ t.port.kept = false ∧ t.port.regions = none ∧
    t.pool.blocks = 0 ∧ t.port.scan = 3 ∧ t.notice.capacity = none ∧ (∀ i : EntryIx, t.port.prompts[i] = false) ∧
    (∀ i : EntryIx, t.port.entries[i].version = 0) ∧ t.time = 0 ∧ t.port.timeHigh = 0 ∧ t.notice.attention = false

/-- R183: HOST_LINK_RESET clears ATTENTION_ENABLE and empties the prompt set, and changes nothing else of the part. -/
def Obligations.HostLinkResetClearsTwoThings : Prop :=
  ∀ (e : Event) (s a : State), a = s.arrive e → ∃ t, exec (.hostLinkReset e) s = .next t ∧
    (∀ i : EntryIx, t.port.prompts[i] = false) ∧
    t = { a with
      notice := { a.notice with attention := false }
      port := { a.port with prompts := Vector.replicate 49 false } }

/-- The state after part reset keeps every law that the invariants below say each step keeps. -/
def Obligations.ResetKeepsTheLaws : Prop :=
  State.reset.mem.wf ∧ State.reset.regionsInside = true ∧ State.reset.grantLaw ∧ State.reset.queueLaw ∧
    State.reset.measureLaw ∧ State.reset.poolLaw ∧ State.reset.reserveLaw ∧ State.reset.pool.plan = Plan.none ∧
    State.reset.versionLaw ∧ State.reset.haltedLaw ∧
    ∀ k, State.reset.decodingLaw k ∧ State.reset.fillingLaw k ∧ State.reset.sizeLaw k ∧ State.reset.rangeLaw k ∧
      State.reset.chainLaw k ∧ State.reset.pinLaw k ∧ State.reset.youngLaw k

/-- Every well-formed command is carried out while the regions in force lie in the shared region, and they go on lying in
it (check 1 of R172); a fault or a refusal comes only where one of the two fails. No command touches the queue, TIME never
goes back, and only PART_RESET sets it to 0 (R169): the tick of a command and the reading of a late one are the model's choice
(log entries 1 and 2). -/
def Obligations.EveryCommandIsCarriedOut : Prop :=
  ∀ (c : Instr) (s : State),
    (WellFormed c = true → s.regionsInside = true → ∃ t, exec c s = .next t ∧ t.regionsInside = true) ∧
      (∀ f, exec c s = .fault f → s.regionsInside = false) ∧ (∀ f, exec c s = .refused f → WellFormed c = false) ∧
      ∀ t, exec c s = .next t →
        t.pending = s.pending ∧ (t.now = max s.now (eventOf c).tick ∨ (∃ e, c = .partReset e) ∧ t.now = 0)

/-! ## Laws that every step keeps -/

/-- The shared region keeps its canonical form: addresses rise, no listed byte is 0, none lies beyond 32 MiB. The form is the
model's own, and rests on its reading of an unlisted byte as 0 (log entry 3). -/
def Obligations.StepKeepsCanonicalMemory : Prop :=
  ∀ s t : State, s.mem.wf → step s = .next t → t.mem.wf

/-- R20, R38 and R150: the gate holds NOT_LIVE and the receiver is STOPPED exactly while the line is not LIVE or
CHECKING, after every step. -/
def Obligations.StepKeepsDecodingLaw : Prop :=
  ∀ s t : State, (∀ k, s.decodingLaw k) → step s = .next t → ∀ k, t.decodingLaw k

/-- R67: after every step no channel is FREE or the wait list is empty. R64: after every step the wait list holds its lines
by the tick they joined at, and those of one tick in ascending number. R63 and R64: after every step a channel serves one line
and a line stands once on the list or in a channel, QUEUED or MEASURING, there alone and only while SEEKING or CHECKING; the
phase is NONE exactly in OFF, DARK and LIVE. -/
def Obligations.StepKeepsGrantLaw : Prop :=
  ∀ s t : State, step s = .next t → (s.grantLaw → t.grantLaw) ∧ (s.queueLaw → t.queueLaw) ∧ (s.measureLaw → t.measureLaw)

/-- R80: after every step the free list and the chains together hold each of the blocks 1 to N exactly once. R82, R94, R95, R145
and R79: after every step a block that is not the newest of its chain is FILLED, the open DATA record holds fewer than 240
bytes, the entry in flight at most 56 key bytes, and no block more than its payload. -/
def Obligations.StepKeepsPoolLaw : Prop :=
  ∀ s t : State, step s = .next t →
    (s.poolLaw → t.poolLaw) ∧ ((∀ k, s.fillingLaw k ∧ s.sizeLaw k) → ∀ k, t.fillingLaw k ∧ t.sizeLaw k)

/-- R81: after every step the free list covers the sum of the unmet minimums. R82 and R100: the sequences of each chain rise, a
FILLING block is the one taken last, and no chain is longer than its quota max. R106, R107, R108 and R112: no line has more than
4 pins, their ids are distinct, the pinned count is at most the budget, and an OPEN pin ends at the block taken last. Sequences
count modulo 2^32, so the statement asks that those in use lie less than 2^32 − 2^16 back. The model's own field plan, by which
a tick is run again (log entry 25), holds nothing before and after every step. -/
def Obligations.StepKeepsCaptureBounds : Prop :=
  ∀ s t : State, step s = .next t → s.poolLaw → s.reserveLaw → s.pool.plan = Plan.none →
    (∀ k, s.fillingLaw k ∧ s.sizeLaw k ∧ s.rangeLaw k ∧ s.chainLaw k ∧ s.pinLaw k ∧ s.youngLaw k) →
    t.reserveLaw ∧ t.pool.plan = Plan.none ∧ ∀ k, t.chainLaw k ∧ t.pinLaw k

/-- R176: after every step every status version is even. -/
def Obligations.StepKeepsVersionsEven : Prop :=
  ∀ s t : State, s.versionLaw → step s = .next t → t.versionLaw

/-- R38, R60, R171 and R174: after every step all lines are OFF if the engine is HALTED or STARTING. -/
def Obligations.StepKeepsHaltedLinesOff : Prop :=
  ∀ s t : State, s.haltedLaw → step s = .next t → t.haltedLaw

/-- R1, R15, R43 and R56: after every step each line's settings lie in the ranges of R43, and its period value and
remembered lock from 40 to 1,048,575. -/
def Obligations.StepKeepsRanges : Prop :=
  ∀ s t : State, (∀ k, s.rangeLaw k) → step s = .next t → ∀ k, t.rangeLaw k

/-! ## Isolation -/

/-- A command about one line leaves every other line's control, counters, front end, capture, matching, input, DATA timer
and notice summary as they were (R64, R130 and 1.2: each line is its own). Of the measurements it says nothing: a channel that
one line leaves goes to another (R67). -/
def Obligations.LinesAreApart : Prop :=
  ∀ (c : Instr) (s t : State) (k : LineIx), lineActedOn c = some k → exec c s = .next t →
    SameElsewhere k (s.arrive (eventOf c)) t

/-- R79, R175, R185: what a command stores lies in the part-written areas of the line table, the slots of the notice ring
or the blocks of the pool, by the regions in force after it; every other byte reads as the host left it. What the end of the
tick before stores, as the command's event arrives (R88), lies there too. -/
def Obligations.StoresStayInside : Prop :=
  (∀ (c : Instr) (s t : State), (∀ e, c ≠ .partReset e) → s.poolLaw → (∀ k, s.sizeLaw k) → exec c s = .next t →
    ∀ x, ¬t.partArea x → t.mem.read x = (s.arrive (eventOf c)).mem.read x) ∧
  ∀ (e : Event) (s : State), s.poolLaw → (∀ k, s.sizeLaw k) →
    ∀ x, ¬s.partArea x → (s.arrive e).mem.read x = (s.mem.hostWrites e.writes).read x

/-- The commands that write no record and return no block store into the status records and the notice ring alone; so does
LOOK_END where it finds no new request. A request that comes behind its look's count stores so from the state where that count
has been taken, with what the entries that it makes pending wrote (R145, R178). -/
def Obligations.RecordFreeCommandsSpareTheBlocks : Prop :=
  ∀ (c : Instr) (s a t : State), a = s.arrive (eventOf c) → exec c s = .next t →
    (writesNoBlock c = true ∨ (∃ e mark, c = .lookEnd e mark) ∧ ∀ i, a.looking = some i → a.newRequest i = none) →
    ∃ b, (b = a ∨ countFirst c = true ∧ ∃ i, a.looking = some i ∧ b = a.asTaken i false) ∧
      ∀ x, (∀ i, ¬t.statusArea i x) → ¬t.ringArea x → t.mem.read x = b.mem.read x

/-! ## Line timing and rate arithmetic -/

/-- R11: a mask that enables an entry has a candidate; it is enabled, no enabled entry is nearer to M, and one equally near
has a smaller period. -/
def Obligations.CandidateIsNearest : Prop :=
  ∀ (mask : BitVec 16) (m : Nat), mask ≠ 0 → ∃ n, candidate mask m = some n ∧ enabled mask n = true ∧
    ∀ j, enabled mask j = true → j ≠ n →
      distance m (tablePeriod n) < distance m (tablePeriod j) ∨
        distance m (tablePeriod n) = distance m (tablePeriod j) ∧ tablePeriod j < tablePeriod n

/-- R12: the acceptance test, with the tolerance in force that a settings record gives. -/
def Obligations.AcceptanceTest : Prop :=
  (∀ tolerance pt m : Nat,
    accepted tolerance pt m = true ↔ ((m : Int) - pt).natAbs * 1000 ≤ tolerance * pt) ∧
  (∀ (b : List Byte) (n : Settings), parseSettings b = .ok n →
    n.tolerance = if byteAt b 0x0A < 5 then 5 else if 100 < byteAt b 0x0A then 100 else byteAt b 0x0A) ∧
  ∀ m, accepted 40 417 m = true ↔ 401 ≤ m ∧ m ≤ 433

/-- R13 and R14: a window yields an entry exactly when it is the candidate of the smallest width, that width is accepted,
and every width lies within k times the tolerance of k periods, for its multiple k of at least 1. -/
def Obligations.WindowResultIsTheAcceptedCandidate : Prop :=
  ∀ (mask : BitVec 16) (tolerance : Nat) (widths : List Nat) (n : Fin 16),
    windowResult mask tolerance widths = .entry n ↔
      candidate mask (minimumWidth widths) = some n ∧ accepted tolerance (tablePeriod n) (minimumWidth widths) = true ∧
        ∀ w ∈ widths, ∃ j, j = max 1 ((2 * w + tablePeriod n) / (2 * tablePeriod n)) ∧
          ((w : Int) - j * tablePeriod n).natAbs * 1000 ≤ tolerance * j * tablePeriod n

/-- R15: in AUTO_SNAP the entry's period is proposed, in AUTO_TRIM ΣW ÷ Σk rounded half up and clamped; every proposal is a
period of R1. -/
def Obligations.ProposedPeriodByMode : Prop :=
  ∀ (n : Fin 16) (widths multiples : Nat), 0 < multiples →
    proposedPeriod .autoSnap n widths multiples = tablePeriod n ∧
    (∃ q, (2 * widths + multiples) / (2 * multiples) = q ∧
      (2 * q - 1) * multiples ≤ 2 * widths ∧ 2 * widths < (2 * q + 1) * multiples ∧
      proposedPeriod .autoTrim n widths multiples = if q < 40 then 40 else if 1048575 < q then 1048575 else q) ∧
    ∀ mode, 40 ≤ proposedPeriod mode n widths multiples ∧ proposedPeriod mode n widths multiples ≤ 1048575

/-- R16: a lock of a CHECKING line is compared with the period in force; the period is kept when it agrees, and the
proposed one adopted when it does not. -/
def Obligations.LockOfCheckingLine : Prop :=
  ∀ (s : State) (k : LineIx) (proposed current : Nat), (s.ctl k).state = .checking → (s.ctl k).period = current →
    ((s.cfg k).rateMode = .autoSnap →
      ((lockLine k proposed s).ctl k).period = if proposed = current then current else proposed) ∧
    ((s.cfg k).rateMode = .autoTrim →
      ((lockLine k proposed s).ctl k).period =
        if ((proposed : Int) - current).natAbs * 1000 ≤ (s.cfg k).tolerance * current then current else proposed)

/-- R4, R21 and R25: the character one line sends is the character another line at the same frame and period receives,
without an error mark, with its stop sample high, at that sample; of 7 data bits the top bit is not sent. -/
def Obligations.SentCharacterIsReceived : Prop :=
  ∀ (k : LineIx) (start period : Nat) (f : Frame) (byte : Byte), 2 ≤ period →
    assemble k ⟨start, period, f⟩ (waveOf start period f byte) false =
        ⟨if f.eight then byte else byte &&& 0x7F#8, false, false, start⟩ ∧
      stopSample k ⟨start, period, f⟩ (waveOf start period f byte) = true ∧
      ∀ s : State, (s.fe k).receiver = .frame ⟨start, period, f⟩ (waveOf start period f byte) →
        s.delivered k =
          if start + period / 2 + (1 + f.dataBits + f.parityBits) * period ≤ s.now then
            some (⟨if f.eight then byte else byte &&& 0x7F#8, false, false, start⟩, f.bits * period, .idle)
          else none

/-! ## Pattern matching and capture -/

/-- R126 and R127. Over a text that no prefix of completes an ANYWHERE pattern, progress is the largest p below the length
for which the pattern's first p bytes end the text, and the next byte completes the pattern exactly when its bytes end the
text with that byte. A LINE_START pattern that holds no CR and no LF ends at 0 with one, and along a line, which begins with
the line-start flag and goes on without it, progress is the length of the text while that is below the pattern's and the
text is the pattern's beginning; the next byte completes the pattern exactly when the line with that byte is the pattern. -/
def Obligations.ProgressIsTheLongestPrefix : Prop :=
  (∀ (p : Pattern) (text : List Byte) (byte : Byte), p.length = p.bytes.length → 1 ≤ p.length →
    (∀ pre, pre <+: text → pre.length < p.length ∨
      p.sameAll p.bytes (pre.drop (pre.length - p.length)) = false) →
    let progress := text.foldl (fun q b => (p.stepAnywhere q b).1) 0
    progress < p.length ∧ progress ≤ text.length ∧
      p.sameAll (p.bytes.take progress) (text.drop (text.length - progress)) = true ∧
      (∀ q, progress < q → q < p.length → q ≤ text.length →
        p.sameAll (p.bytes.take q) (text.drop (text.length - q)) = false) ∧
      ((p.stepAnywhere progress byte).2 = true ↔ p.length ≤ text.length + 1 ∧
        p.sameAll p.bytes ((text ++ [byte]).drop (text.length + 1 - p.length)) = true)) ∧
  (∀ (p : Pattern) (progress : Nat) (flag : Bool) (byte : Byte), p.length = p.bytes.length → 1 ≤ p.length →
    (∀ b ∈ p.bytes, b ≠ 0x0D#8 ∧ b ≠ 0x0A#8) → (byte = 0x0D#8 ∨ byte = 0x0A#8) →
    p.stepLineStart progress flag byte = (0, false)) ∧
  ∀ (p : Pattern) (text : List Byte) (byte : Byte), p.length = p.bytes.length → 1 ≤ p.length →
    (∀ b ∈ text, b ≠ 0x0D#8 ∧ b ≠ 0x0A#8) →
    let m := text.foldl (fun q b => ((p.stepLineStart q.1 q.2 b).1, decide (b = 0x0D#8) || decide (b = 0x0A#8))) (0, true)
    m.1 = (if text.length < p.length ∧ p.sameAll (p.bytes.take text.length) text = true then text.length else 0) ∧
      ((p.stepLineStart m.1 m.2 byte).2 = true ↔
        text.length + 1 = p.length ∧ p.sameAll p.bytes (text ++ [byte]) = true)

/-- R93 and R206: a record placed in a FILLING block with room is stored at the block's fill and becomes its newest; the
fill rises by the record's size. -/
def Obligations.PlacedRecordReadsBack : Prop :=
  ∀ (s : State) (k : LineIx) (rg : Regions) (b : Block) (number : Word32) (r : Record),
    s.port.regions = some rg → fillingOf (s.cap k).chain = some b → b.fill + r.size ≤ payloadBytes →
    rg.pool.base + blockOffset b.index + 2048 ≤ regionBytes → s.mem.wf →
    (placeRecord k number r s).mem.slice (rg.pool.base + blockOffset b.index + 32 + b.fill) r.size =
        recordBytes number r ∧
      ((placeRecord k number r s).cap k).chain.getLast? = some (b.withRecord number r) ∧
      ∀ x, x < rg.pool.base + blockOffset b.index ∨ rg.pool.base + blockOffset b.index + 2048 ≤ x →
        (placeRecord k number r s).mem.read x = s.mem.read x

/-- R87, R92, R93, R95 and R206: writing a record closes the open DATA record first; each record takes the line's next number
and advances it and the records-closed counter by 1, and no other line's capture changes. The record stands at the end of
what the line's FILLING block holds, with its number, where the pool lies apart from the notice ring. -/
def Obligations.RecordTakesTheNextNumber : Prop :=
  ∀ (s t : State) (k : LineIx) (r : Record), t = record k r s →
    (t.cap k).openRecord = none ∧ (t.cap k).nextRecord = s.numberAfter k 1 ∧ (t.cnt k).traffic = (s.cnt k).traffic ∧
      (t.cnt k).recordsClosed = satAdd (s.cnt k).recordsClosed (if (s.cap k).openRecord.isSome then 2 else 1) ∧
      (∀ j, j ≠ k → t.cap j = s.cap j) ∧
      ∀ (rg : Regions) (b : Block) (number : Word32), s.port.regions = some rg → s.mem.wf → s.poolLaw →
        rg.pool.base + s.pool.blocks * 2048 ≤ regionBytes → (∀ x, s.poolArea x → ¬s.ringArea x) →
        r.size ≤ payloadBytes → fillingOf (t.cap k).chain = some b → (closeOpen k .record s |>.cap k).nextRecord = number →
        r.size ≤ b.fill ∧ 1 ≤ b.records ∧ b.lastTime = r.time ∧
          t.mem.slice (rg.pool.base + blockOffset b.index + 32 + (b.fill - r.size)) r.size = recordBytes number r

/-- R87 to R89: a line that needs a block takes the head of the free list while its chain is shorter than its quota min, or
shorter than its max with a block to spare beyond the other lines' unmet minimums; otherwise it reclaims its own oldest
unpinned FILLED block. Of two lines that take blocks at one tick the one of the lower number chooses first: where its command comes
behind, and the tick is run again with both takes known, the free list, the chains, the pins and the counters are those of its
command coming first. That a tick out of order is run again until its takes are those it was run with, and leaves the state that
this gives, is how the model sees to the order (log entry 25); the record of the tick and the plan are the model's own. -/
def Obligations.BlockChoice : Prop :=
  (∀ (s : State) (k : LineIx) (len : Nat) (held : List Nat), s.pool.plan = Plan.none → (s.cap k).chain.length = len →
    chainIndices s k = held →
    (∀ index rest, s.pool.free = index :: rest →
      (len < (s.cfg k).quotaMin ∨ len < (s.cfg k).quotaMax ∧ s.unmetOthers k < s.pool.free.length) →
      (takeBlock k s).pool.free = rest ∧ chainIndices (takeBlock k s) k = held ++ [index] ∧
        ((takeBlock k s).cnt k).blocksReclaimed = (s.cnt k).blocksReclaimed) ∧
    (∀ index, (s.cfg k).quotaMin ≤ len → ((s.cfg k).quotaMax ≤ len ∨ s.pool.free.length ≤ s.unmetOthers k) →
      (sealFilling k s).victim k = some index →
      (takeBlock k s).pool.free = s.pool.free ∧
        chainIndices (takeBlock k s) k = held.filter (fun i => i != index) ++ [index] ∧
        ((takeBlock k s).cnt k).blocksReclaimed = satAdd (s.cnt k).blocksReclaimed 1)) ∧
  (∀ (s planned t u : State) (j k : LineIx), j < k → s.pool.plan = Plan.none → s.pool.takes = [] → s.poolLaw → s.reserveLaw →
    (∀ i, s.fillingLaw i ∧ s.sizeLaw i ∧ s.rangeLaw i ∧ s.chainLaw i ∧ s.pinLaw i) →
    { s with pool := { s.pool with plan := ⟨[⟨k, s.atMax k⟩, ⟨j, s.atMax j⟩], []⟩ } } = planned →
    takeBlock j (takeBlock k planned) = t → takeBlock k (takeBlock j s) = u →
    t.pool.free = u.pool.free ∧ t.pool.lines = u.pool.lines ∧ t.counters = u.counters ∧
      t.pool.takes = planned.pool.plan.takes ∧ t.pool.plan.chosen = []) ∧
  ∀ (ran : List Instr) (s : State),
    (ascending s.pool.takes → reordered ran s = none) ∧
    ∀ t, reordered ran s = some t →
      t.toPart = (rerun ran t.pool.takes s).toPart ∧ endTick ran s = { t with pool := { t.pool with takes := [] } } ∧
        t.lawsHold = true ∧ t.pending = s.pending ∧ t.now = s.now ∧ t.pool.blocks = s.pool.blocks

/-! ## Notices and attention -/

/-- R185, R187, R188, R191: a notice posted with room is written at the produce count, which rises by 1, and raises one
interrupt if attention is enabled; without room it is folded into its entry's summary and nothing is written. -/
def Obligations.PostAppendsOrFolds : Prop :=
  ∀ (s : State) (n : Notice) (rg : Regions) (c : Nat), s.port.regions = some rg → s.notice.capacity = some c →
    rg.ring.base + c * 32 ≤ regionBytes → s.mem.wf → n.args.length ≤ 16 →
    (0 < s.room →
      (post n s).mem.slice (rg.ring.base + s.notice.produce.toNat % c * 32) 32 = noticeBytes s.notice.produce n ∧
      (∀ x, (x < rg.ring.base + s.notice.produce.toNat % c * 32 ∨ rg.ring.base + s.notice.produce.toNat % c * 32 + 32 ≤ x) →
        (post n s).mem.read x = s.mem.read x) ∧
      (post n s).notice = { s.notice with
        produce := s.notice.produce + 1
        attention := false
        interrupts := s.notice.interrupts + (if s.notice.attention then 1 else 0) }) ∧
    (s.room = 0 →
      (post n s).mem = s.mem ∧ (∀ i, i ≠ n.entry → (post n s).notice.summaries[i] = s.notice.summaries[i]) ∧
      (post n s).notice.summaries[n.entry] =
        (if s.notice.summaries[n.entry].count = 0 then ⟨BitVec.ofNat 32 (2 ^ n.kind.code), 1, n.time⟩
          else ⟨s.notice.summaries[n.entry].kinds ||| BitVec.ofNat 32 (2 ^ n.kind.code),
            satAdd s.notice.summaries[n.entry].count 1, s.notice.summaries[n.entry].firstTime⟩) ∧
      (post n s).notice = { s.notice with summaries := (post n s).notice.summaries }) ∧
    (post n s).control = s.control ∧ (post n s).pool = s.pool ∧ (post n s).input = s.input ∧ (post n s).port = s.port

/-- R192: a write of 1 to ATTENTION_ENABLE raises attention at once and leaves the enable clear when notices stand
unconsumed, and sets it otherwise; a write of 0 clears it and raises nothing. -/
def Obligations.AttentionEnableWrite : Prop :=
  ∀ (e : Event) (value : Word32) (s a : State), a = s.arrive e →
    exec (.attentionEnable e value) s =
      .next { a with notice := { a.notice with
        attention := value.getLsbD 0 && decide (a.unconsumed = 0)
        interrupts := a.notice.interrupts + (if value.getLsbD 0 = true ∧ 0 < a.unconsumed then 1 else 0) } }

/-- R190: when a line's DATA timer falls due with a notice pending, the notice is posted and the timer starts again; other
ticks of the timer change nothing. -/
def Obligations.DataTimerPostsPendingNotice : Prop :=
  ∀ (e : Event) (k : LineIx) (s a : State), a = s.arrive e → a.regionsInside = true →
    (∀ last, a.notice.data[k].last = some last → a.notice.data[k].pending = true → (a.cfg k).dataInterval ≠ 0 →
      last + (a.cfg k).dataInterval * 48000 ≤ a.now →
      ∃ t, exec (.dataTimer e k) s = .next t ∧ OnlyLine k a t ∧ t.notice.data[k] = ⟨some a.now, false, 0⟩ ∧
        t.control = a.control ∧ t.pool = a.pool ∧ t.input = a.input ∧ t.front = a.front ∧ t.rate = a.rate ∧
        t.counters = a.counters ∧ t.engine = a.engine ∧
        SameNotices ((tell k .data (leBytes 4 ((a.cap k).nextRecord - 1).toNat ++
          leBytes 4 a.notice.data[k].count) a).modNotice fun u => { u with data := t.notice.data }) t ∧
        t.notice.produce = (if 0 < a.room then a.notice.produce + 1 else a.notice.produce)) ∧
    ((a.notice.data[k].last = none ∨ a.notice.data[k].pending = false ∨ (a.cfg k).dataInterval = 0 ∨
        ∃ last, a.notice.data[k].last = some last ∧ a.now < last + (a.cfg k).dataInterval * 48000) →
      exec (.dataTimer e k) s = .next a)

/-! ## Registers, START and HALT -/

/-- R168: the fields of ENGINE_STATUS. -/
def Obligations.EngineStatusFields : Prop :=
  ∀ s : State, s.port.detail < 256 →
    s.readRegister 0 = s.engineStatus ∧ s.engineStatus.toNat % 4 = s.port.engine.code ∧
    s.engineStatus.toNat / 2 ^ 2 % 4 = 0 ∧ s.engineStatus.toNat / 2 ^ 4 % 16 = s.port.result.code ∧
    s.engineStatus.toNat / 2 ^ 8 % 256 = s.port.detail ∧
    s.engineStatus.getLsbD 16 = decide (0 < s.unconsumed) ∧ s.engineStatus.getLsbD 17 = s.port.kept ∧
    (s.engineStatus.getLsbD 18 = true ↔ ∃ i : EntryIx, s.port.prompts[i] = true) ∧ s.engineStatus.toNat < 2 ^ 19

/-- R167, R169, R170, R177: PROMPT adds the numbers 0 to 48 and no other, a read of TIME_LOW returns and latches TIME, and
an ignored write changes nothing; a write that belongs to another row is refused. A host write is the command that its
offset says; how a word of a write is read is the model's, as the table gives no bits (log entry 18). -/
def Obligations.RegisterCommands : Prop :=
  ∀ (e : Event) (value offset : Word32) (s a : State), a = s.arrive e →
    (∃ t, exec (.prompt e value) s = .next t ∧ t = { a with port := { a.port with prompts := t.port.prompts } } ∧
      ∀ i : EntryIx, t.port.prompts[i] = (a.port.prompts[i] || decide (i.val = value.toNat))) ∧
    (∃ t, exec (.timeLow e) s = .next t ∧
      t = { a with port := { a.port with readData := t.port.readData, timeHigh := t.port.timeHigh } } ∧
      t.port.readData.toNat + 2 ^ 32 * t.port.timeHigh.toNat = a.time ∧
      (t.readRegister 0x14).toNat = a.time / 2 ^ 32) ∧
    (WellFormed (.registerWriteIgnored e offset value) = true → exec (.registerWriteIgnored e offset value) s = .next a) ∧
    (WellFormed (.registerWriteIgnored e offset value) = false →
      exec (.registerWriteIgnored e offset value) s = .refused .notAnIgnoredWrite) ∧
    WellFormed (hostWrite e offset value) = true ∧ hostWrite e 0x08 value = .prompt e value ∧
    hostWrite e 0x0C value = .attentionEnable e value ∧
    (offset ∉ [0x04#32, 0x08#32, 0x0C#32] → exec (hostWrite e offset value) s = .next a)

/-- R170, R174: START and HALT by the engine state. A START in HALTED begins STARTING; a HALT in RUNNING begins HALTING,
discards the look in progress, and ends at once when every line is OFF; an ignored command leaves the detail. Of the word
written to ENGINE_COMMAND, bits 1 and 0 are the command (1 START, 2 HALT, 0 and 3 ignored) and bit 8 is KEEP. -/
def Obligations.StartAndHaltByEngineState : Prop :=
  ∀ (e : Event) (keep : Bool) (value : Word32) (s a : State), a = s.arrive e →
    (∃ t, exec (.start e keep) s = .next t ∧ (t = { a with port := t.port }) ∧
      t.port = match a.port.engine with
        | .halted => { a.port with engine := .starting, keepFlag := keep }
        | .running => { a.port with result := .ignoredRunning }
        | _ => { a.port with result := .ignoredBusy }) ∧
    (∃ t, exec (.halt e) s = .next t ∧ (t = { a with port := t.port }) ∧
      (a.port.engine = .halted → t = a) ∧
      (a.port.engine = .starting ∨ a.port.engine = .halting → t.port = { a.port with result := .ignoredBusy }) ∧
      (a.port.engine = .running →
        t.port.look = a.port.look.map (fun l => { l with discarded := true }) ∧
        t.port.prompts = a.port.prompts ∧ t.port.kept = a.port.kept ∧ t.port.regions = a.port.regions ∧
        t.port.entries = a.port.entries ∧
        if ∀ k, (a.ctl k).state = .off then
          t.port.engine = .halted ∧ t.port.result = .stopped ∧ t.port.detail = 0
        else t.port.engine = .halting ∧ t.port.result = a.port.result ∧ t.port.detail = a.port.detail)) ∧
    exec (hostWrite e 0x04 value) s =
      if value.toNat % 4 = 1 then exec (.start e (value.getLsbD 8)) s
      else if value.toNat % 4 = 2 then exec (.halt e) s else .next a

/-- R172: the directory passes exactly when the five regions lie in the shared region, are aligned, are large enough, meet
neither the directory nor one another, and the notice capacity is one of the five. The refusal of another names the lowest entry
that fails a check, and the lowest check that it fails. -/
def Obligations.DirectoryChecks : Prop :=
  ∀ (r : Regions) (capacity : Nat),
    (checkDirectory r capacity = none ↔
      (∀ g ∈ [r.lineTable, r.patterns, r.ring, r.inputs, r.pool], g.base + g.limit ≤ 0x1FFFFFF ∧ 64 ≤ g.base) ∧
      r.lineTable.base % 512 = 0 ∧ r.patterns.base % 64 = 0 ∧ r.ring.base % 32 = 0 ∧ r.inputs.base % 2048 = 0 ∧
      r.pool.base % 2048 = 0 ∧ capacity ∈ [256, 512, 1024, 2048, 4096] ∧ 25088 ≤ r.lineTable.limit + 1 ∧
      2048 ≤ r.patterns.limit + 1 ∧ capacity * 32 ≤ r.ring.limit + 1 ∧ 98304 ≤ r.inputs.limit + 1 ∧
      List.Pairwise (fun g h : Region => g.base + g.limit < h.base ∨ h.base + h.limit < g.base)
        [r.lineTable, r.patterns, r.ring, r.inputs, r.pool]) ∧
    ∀ n check, checkDirectory r capacity = some (n, check) ↔
      r.fails capacity n check ∧ ∀ m c, r.fails capacity m c → n < m ∨ n = m ∧ check ≤ c

/-- R171: a START whose directory is refused returns the engine to HALTED with the result and its detail, and changes
nothing else; the refusal is that of the first failing check, or POOL_TOO_SMALL with N (R172). -/
def Obligations.RefusedStart : Prop :=
  ∀ (e : Event) (s a : State) (result : CommandResult) (detail : Nat), a = s.arrive e → a.regionsInside = true →
    a.port.engine = .starting → a.startRefusal = some (result, detail) →
    exec (.startingEnd e) s =
        .next { a with port := { a.port with engine := .halted, result := result, detail := detail } } ∧
      (result = .badDirectory ∧ (∃ n check, checkDirectory a.directory (a.capacityAt a.directory.lineTable) = some (n, check) ∧
          a.directory.fails (a.capacityAt a.directory.lineTable) n check ∧
          (∀ m c, a.directory.fails (a.capacityAt a.directory.lineTable) m c → n < m ∨ n = m ∧ check ≤ c) ∧
          detail = n + 16 * check) ∨
        result = .poolTooSmall ∧ detail = (a.directory.pool.limit + 1) / 2048 ∧ detail < 128)

/-- R61, R79, R103, R105, R120, R141, R166, R171, R173, R184, R193: an accepted START takes the directory, the selector and the
capacity into force, enters RUNNING, answers every entry with the number it holds, empties the ring at the consume count that the
control entry holds and each input ring at the produce count that the line's entry holds, and takes every line to OFF; the capture is
kept exactly when KEEP was asked for and the pool is that of the last accepted START. -/
def Obligations.AcceptedStart : Prop :=
  ∀ (e : Event) (s a : State) (count : EntryIx → Word32), a = s.arrive e → a.regionsInside = true →
    a.port.engine = .starting → a.startRefusal = none →
    (∀ i : EntryIx, count i =
      BitVec.ofNat 32 (leValue (a.mem.slice (a.directory.lineTable.base + i.val * 512 + 0x60) 4))) →
    ∃ t, exec (.startingEnd e) s = .next t ∧ t.port.engine = .running ∧ t.port.regions = some a.directory ∧
      t.port.detail = 0 ∧ (t.port.kept = true ↔ a.port.keepFlag = true ∧ a.port.lastPool = some a.directory.pool) ∧
      t.port.result = (if a.port.keepFlag = true ∧ t.port.kept = false then .keptNothing else .started) ∧
      (∀ i : EntryIx, t.port.prompts[i] = false) ∧ t.port.scan = a.selectorAt a.directory.lineTable ∧
      t.notice.capacity = some (a.capacityAt a.directory.lineTable) ∧ t.notice.produce = count 0 ∧ t.notice.consume = count 0 ∧
      (∀ i : EntryIx, t.notice.summaries[i].count = 0) ∧ t.notice.attention = a.notice.attention ∧
      (∀ i : EntryIx, t.port.entries[i].code = .none ∧ t.port.entries[i].detail = 0 ∧
        t.port.entries[i].deadline = a.now ∧
        t.port.entries[i].answered.toNat = leValue (a.mem.slice (a.directory.lineTable.base + i.val * 512 + 0x40) 4)) ∧
      (∀ k, (t.ctl k).state = .off ∧ (t.ctl k).windowChars = 0 ∧ (t.ctl k).windowErrors = 0 ∧ (t.ctl k).history = [] ∧
        (t.fe k).receiver = .stopped ∧ (t.fe k).transmitter = .idle ∧ t.phaseOf k = .none ∧ (t.cap k).openRecord = none ∧
        (t.inp k).produce = count (entryOf k) ∧ (t.inp k).consume = count (entryOf k) ∧ (t.inp k).entry = none ∧
        (t.inp k).lastKeyEnd = none ∧ (t.inp k).armed = true ∧ (t.mat k).lineStart = true ∧
        (∀ i : Fin 32, (t.mat k).progress[i] = 0) ∧ t.notice.data[k] = ⟨none, false, 0⟩) ∧
      (t.port.kept = false → t.pool.blocks = min 15872 ((a.directory.pool.limit + 1) / 2048) ∧
        t.pool.free = List.range' 1 t.pool.blocks ∧ t.engine.loads = 0 ∧
        (∀ i : Fin 32, t.engine.table[i].length = 0) ∧
        ∀ k, (t.cap k).chain = [] ∧ (t.cap k).pins = [] ∧ (t.cap k).nextRecord = 1 ∧ (t.cap k).nextSequence = 1 ∧
          (t.cap k).nextPinId = 1 ∧ t.cfg k = Settings.default ∧ (t.ctl k).period = 5000 ∧ (t.ctl k).lockCause = .none ∧
          (t.ctl k).remembered = none ∧ (t.ctl k).noisy = false ∧ t.cnt k = Counters.zero ∧
          (t.mat k).console = .unknown ∧ (t.inp k).holder = 0 ∧ (t.inp k).gate = ⟨true, false, false, false⟩) ∧
      (t.port.kept = true → t.pool.blocks = a.pool.blocks ∧ t.pool.free = a.pool.free ∧
        t.engine.table = a.engine.table ∧ t.engine.loads = a.engine.loads ∧ t.counters = a.counters ∧
        ∀ k, (t.cap k).chain = (a.cap k).chain ∧ (t.cap k).pins = (a.cap k).pins ∧
          (t.cap k).nextRecord = (a.cap k).nextRecord ∧ (t.cap k).nextSequence = (a.cap k).nextSequence ∧
          (t.cap k).nextPinId = (a.cap k).nextPinId ∧ t.cfg k = a.cfg k ∧ (t.ctl k).period = (a.ctl k).period ∧
          (t.ctl k).lockCause = (a.ctl k).lockCause ∧ (t.ctl k).remembered = (a.ctl k).remembered ∧
          (t.ctl k).noisy = (a.ctl k).noisy ∧ (t.mat k).console = (a.mat k).console ∧
          (t.inp k).holder = (a.inp k).holder ∧
          (t.inp k).gate = { (a.inp k).gate with
            notLive := true, boot := decide ((a.mat k).console = .booting) && (a.cfg k).bootHold })

/-! ## Looks -/

/-- R177, R178, R181: a free reader takes an entry whose deadline is reached, the earliest and then the lowest number
first, or else the lowest number of the prompt set; the entry leaves the prompt set and its next deadline lies one scan
period on. With no entry waiting, or no free reader, nothing begins: the reader is free while the engine is RUNNING and no
look is in progress. -/
def Obligations.LookBeginTakesTheWaitingEntry : Prop :=
  ∀ (e : Event) (s a : State), a = s.arrive e →
    (a.readerFree = true ↔ a.port.engine = .running ∧ a.port.look = none) ∧
    (a.readerFree = true → ∀ i : EntryIx,
      ((a.port.entries[i].deadline ≤ a.now ∧ ∀ j : EntryIx, a.port.entries[j].deadline ≤ a.now →
          a.port.entries[i].deadline < a.port.entries[j].deadline ∨
            a.port.entries[i].deadline = a.port.entries[j].deadline ∧ i ≤ j) ∨
        ((∀ j : EntryIx, a.now < a.port.entries[j].deadline) ∧ a.port.prompts[i] = true ∧
          ∀ j : EntryIx, j < i → a.port.prompts[j] = false)) →
      ∃ t, exec (.lookBegin e) s = .next t ∧ t.port.look = some ⟨i, a.now, false⟩ ∧
        (∀ j : EntryIx, t.port.prompts[j] = (a.port.prompts[j] && decide (j ≠ i))) ∧
        t.port.entries[i] = { a.port.entries[i] with
          deadline := a.now + 2 ^ a.port.scan * 48000
          lastLook := some a.now } ∧
        (∀ j : EntryIx, j ≠ i → t.port.entries[j] = a.port.entries[j]) ∧
        t = { a with port := { a.port with
          look := t.port.look, prompts := t.port.prompts, entries := t.port.entries } }) ∧
    ((a.readerFree = false ∨ ∀ j : EntryIx, a.now < a.port.entries[j].deadline ∧ a.port.prompts[j] = false) →
      exec (.lookBegin e) s = .next a)

/-- R143, R144, R174, R178 to R180: at the end of a look at a line's entry the produce count goes to the Input Path, which
skips more than 32 pending entries, and a request whose number is new is carried out and answered, in either order: LOOK_END
is then the row of the request's kind, or UNKNOWN_REQUEST where the kind has no owner (that the rows of the requests end the
look too is how the model reads the table, log entry 7). Where the count comes first, the entries that it makes pending are
considered before the request, until one waits. A look that a HALT discarded leaves nothing. -/
def Obligations.LookEndTakesRequestAndCount : Prop :=
  ∀ (e : Event) (first mark : Bool) (s a : State), a = s.arrive e → a.regionsInside = true →
    (a.port.look = none → exec (.lookEnd ⟨e, first⟩ mark) s = .next a) ∧
    ∀ (k : LineIx) (l : Look) (count : Word32) (r : Request), a.port.look = some l → l.entry = entryOf k →
      a.entryWord (entryOf k) 0x60 = count → a.requestSlot (entryOf k) = r →
      (l.discarded = true ∨ a.port.engine ≠ .running →
        exec (.lookEnd ⟨e, first⟩ mark) s = .next { a with port := { a.port with look := none } }) ∧
      (l.discarded = false → a.port.engine = .running →
        (∀ b, a.asTaken (entryOf k) false = b →
          b.port = { a.port with look := none } ∧ SameElsewhere k a b ∧ (b.inp k).produce = count ∧ b.pendingEntries k ≤ 32 ∧
            ((considerHead k b).inp k).consume = (b.inp k).consume) ∧
        ∃ t, exec (.lookEnd ⟨e, first⟩ mark) s = .next t ∧ SameElsewhere k a t ∧ t.port.look = none ∧
          t.port.entries[entryOf k].answered = r.number ∧ (t.inp k).produce = count ∧
          (r.number = a.port.entries[entryOf k].answered ∨ first = true →
            (t.inp k).consume = if 32 < (count - (a.inp k).consume).toNat then count else (a.inp k).consume) ∧
          (r.number ≠ a.port.entries[entryOf k].answered → first = false →
            (t.inp k).consume = ((a.asTaken (entryOf k) false).inp k).consume) ∧
          (r.number = a.port.entries[entryOf k].answered →
            t.control = a.control ∧ t.pool = a.pool ∧ t.front = a.front ∧ t.rate = a.rate ∧ t.counters = a.counters ∧
              t.engine = a.engine ∧ (t.inp k).entry = (a.inp k).entry ∧ (t.inp k).holder = (a.inp k).holder ∧
              t.port.shown = { a.port with look := none }.shown ∧
              SameNotices (if 32 < (count - (a.inp k).consume).toNat then
                tell k .inputOverrun (leBytes 4 count.toNat ++ leBytes 4 (a.inp k).consume.toNat) a else a) t) ∧
          (r.number ≠ a.port.entries[entryOf k].answered →
            (r.kind = 1 → exec (.enable ⟨e, first⟩ k mark) s = .next t) ∧
            (r.kind = 2 → exec (.disable ⟨e, first⟩ k) s = .next t) ∧
            (r.kind = 3 → exec (.configure ⟨e, first⟩ k mark) s = .next t) ∧
            (r.kind = 4 → exec (.relock ⟨e, first⟩ k) s = .next t) ∧
            (r.kind = 5 → exec (.resetCounters ⟨e, first⟩ k) s = .next t) ∧
            (r.kind = 6 → exec (.clearCapture ⟨e, first⟩ k) s = .next t) ∧
            (r.kind = 7 → exec (.pinNow ⟨e, first⟩ k) s = .next t) ∧
            (r.kind = 8 → exec (.unpin ⟨e, first⟩ k) s = .next t) ∧
            (r.kind = 9 → exec (.setConsole ⟨e, first⟩ k) s = .next t) ∧
            (r.kind = 10 → exec (.holdInput ⟨e, first⟩ k) s = .next t) ∧
            (r.kind = 11 → exec (.openInput ⟨e, first⟩ k) s = .next t) ∧
            (r.kind = 0 ∨ 11 < r.kind → exec (.unknownRequest ⟨e, first⟩) s = .next t)))

/-- R176: a field of a status record that a command changed stands in the line table after it, and the entry's version has
risen by 2, or not at all within the bracket of an earlier command of the same tick (log entry 9). This holds of the
operation that writes the status records, between any two states, and of every command that leaves a line table in force. -/
def Obligations.StatusFollowsTheState : Prop :=
  (∀ (before s : State) (rg : Regions) (i : EntryIx) (f : StatusField), s.port.regions = some rg →
    rg.lineTable.base + 25088 ≤ regionBytes → s.mem.wf → f ∈ s.statusFields i → f ∉ before.statusFields i →
    (publish before s).mem.slice (rg.lineTable.base + i.val * 512 + f.offset) f.size = leBytes f.size f.value ∧
      (publish before s).mem.slice (rg.lineTable.base + i.val * 512 + 0x80) 4 =
        leBytes 4 (publish before s).port.entries[i].version.toNat ∧
      (publish before s).port.entries[i].version =
        if s.port.entries[i].bracket = some s.now then s.port.entries[i].version else s.port.entries[i].version + 2) ∧
  ∀ (c : Instr) (s t : State) (rg : Regions) (i : EntryIx) (f : StatusField), exec c s = .next t →
    t.port.regions = some rg → rg.lineTable.base + 25088 ≤ regionBytes → s.mem.wf → f ∈ t.statusFields i →
    f ∉ (s.arrive (eventOf c)).statusFields i →
    t.mem.slice (rg.lineTable.base + i.val * 512 + f.offset) f.size = leBytes f.size f.value ∧
      t.mem.slice (rg.lineTable.base + i.val * 512 + 0x80) 4 = leBytes 4 t.port.entries[i].version.toNat

/-- R178 to R180, R185, R186, R188, R189, R191: a delivery takes the entries whose summary is not empty, in ascending number, as
many as there is room for. For each it appends a SUMMARY notice at the produce count, which rises by 1, with the entry's number,
its kind set, its folded count and its first folded time, and empties the summary; the others keep theirs, and the appends raise
one interrupt if attention is enabled. Afterwards the ring is full or every summary is empty. A look at the control entry takes
its consume count in and delivers, and a request whose number is new is carried out and answered, in either order: LOOK_END is
then the row of the request's kind (log entry 7). That the kind set and the first folded time of an emptied summary are 0 is the
model's choice (log entry 42). -/
def Obligations.LookEndDeliversSummaries : Prop :=
  (∀ (s t : State) (rg : Regions) (c : Nat) (waiting : List EntryIx), deliverSummaries s = t → s.port.regions = some rg →
    s.notice.capacity = some c → c ∣ 2 ^ 32 → rg.ring.base + c * 32 ≤ regionBytes → s.mem.wf →
    ((List.finRange 49).filter fun i => decide (0 < s.notice.summaries[i].count)) = waiting →
    t.notice.produce = s.notice.produce + BitVec.ofNat 32 (min s.room waiting.length) ∧
      (∀ j i, waiting[j]? = some i →
        if j < s.room then
          t.notice.summaries[i] = Summary.empty ∧
            t.mem.slice (rg.ring.base + (s.notice.produce + BitVec.ofNat 32 j).toNat % c * 32) 32 =
              noticeBytes (s.notice.produce + BitVec.ofNat 32 j) ⟨.summary, i, s.time,
                leBytes 4 s.notice.summaries[i].kinds.toNat ++ leBytes 4 s.notice.summaries[i].count ++
                  leBytes 8 (s.notice.summaries[i].firstTime % 2 ^ 48)⟩
        else t.notice.summaries[i] = s.notice.summaries[i]) ∧
      (t.notice.attention = true ↔ s.notice.attention = true ∧ (s.room = 0 ∨ waiting = [])) ∧
      t.notice.interrupts =
        s.notice.interrupts + (if s.notice.attention = true ∧ 0 < s.room ∧ waiting ≠ [] then 1 else 0) ∧
      ∀ x, ¬s.ringArea x → t.mem.read x = s.mem.read x) ∧
  (∀ s : State,
    ((deliverSummaries s).room = 0 ∨ ∀ i : EntryIx, (deliverSummaries s).notice.summaries[i].count = 0) ∧
    (∀ i : EntryIx, (deliverSummaries s).notice.summaries[i] = s.notice.summaries[i] ∨
      (deliverSummaries s).notice.summaries[i] = Summary.empty) ∧
    ∀ i j : EntryIx, i < j → 0 < (deliverSummaries s).notice.summaries[i].count →
      (deliverSummaries s).notice.summaries[j] = s.notice.summaries[j]) ∧
  ∀ (e : Event) (first mark : Bool) (s a : State) (began : Nat) (count : Word32) (r : Request), a = s.arrive e →
    a.regionsInside = true → a.port.look = some ⟨0, began, false⟩ → a.port.engine = .running →
    a.entryWord 0 0x60 = count → a.requestSlot 0 = r →
    ∃ t, exec (.lookEnd ⟨e, first⟩ mark) s = .next t ∧ t.port.look = none ∧ t.notice.consume = count ∧
      t.port.entries[(0 : EntryIx)].answered = r.number ∧ t.control = a.control ∧ t.counters = a.counters ∧
      t.front = a.front ∧ t.rate = a.rate ∧ t.pool = a.pool ∧ t.input = a.input ∧
      (r.number = a.port.entries[(0 : EntryIx)].answered →
        SameNotices (deliverSummaries { a with notice := { a.notice with consume := count } }) t ∧
          t.engine = a.engine ∧ t.port.shown = { a.port with look := none }.shown) ∧
      (r.number ≠ a.port.entries[(0 : EntryIx)].answered →
        (r.kind = 16 → exec (.loadPatterns ⟨e, first⟩) s = .next t) ∧
        (r.kind = 17 → exec (.applySettings ⟨e, first⟩) s = .next t) ∧
        (r.kind ≠ 16 → r.kind ≠ 17 → exec (.unknownRequest ⟨e, first⟩) s = .next t))

/-! ## Requests -/

/-- R40, R41, R59: an accepted ENABLE of an OFF line takes the settings into force, sets the presence view from the latest
sample, and chooses the line's state; it writes the LINE record of that state, on a line that is to decode the RATE record of
its period behind it, and posts LINE_UP for a present line. The counters' traffic, the remembered lock, the noisy flag and the
console state are kept. By which source the latest sample is judged, whatever the space-hold latch, is the model's choice (log
entry 31), and so are that a changed data notice interval leaves the DATA timer and its pending flag as they were (log entry 36)
and that the probe of a line that comes to CHECKING is re-armed (log entry 45).
The detail of DONE, which no rule names, is a free value (log entry 8), here and below. -/
def Obligations.EnableChoosesTheState : Prop :=
  ∀ (e : Event) (k : LineIx) (first mark present : Bool) (s a b : State) (r : Request) (n : Settings) (st : LineState)
    (records : List Record),
    a = s.arrive e → a.regionsInside = true → a.asTaken (entryOf k) first = b →
    a.takenAt (entryOf k) kindEnable = some r → (b.ctl k).state = .off →
    b.checkSettings k = .ok n → rawPresence n.source (b.fe k).readings = present →
    (takeSettings k n b).chosen k = st →
    (if present = true then lineRecord st .enable a.time :: chosenRate st n (b.ctl k).remembered a.time
      else [lineRecord .dark .enable a.time]) = records →
    ∃ t, exec (.enable ⟨e, first⟩ k mark) s = .next t ∧ LookEnded k r .done (a.unnamedDetail k) a b t ∧ t.cfg k = n ∧
      (t.ctl k).state = (if present = true then st else .dark) ∧
      (t.ctl k).period =
        (if (t.ctl k).state = .live then n.fixedPeriod
          else if (t.ctl k).state = .checking then (b.ctl k).remembered.getD 0 else (b.ctl k).period) ∧
      (t.ctl k).lockCause =
        (if (t.ctl k).state = .live then .fixed else if (t.ctl k).state = .checking then .locked
          else if (t.ctl k).state = .seeking then .none else (b.ctl k).lockCause) ∧
      (t.ctl k).remembered = (b.ctl k).remembered ∧ (t.ctl k).noisy = (b.ctl k).noisy ∧
      (present = true → (t.ctl k).history = [] ∧ (t.ctl k).windowChars = 0 ∧ (t.ctl k).windowErrors = 0 ∧
        (t.mat k).lineStart = true ∧ (t.inp k).armed = true) ∧
      (t.fe k).view = present ∧ (t.fe k).contrary = 0 ∧ (t.fe k).latch = false ∧
      (t.fe k).receiver = (if (t.ctl k).state.decoding = true then (if mark = true then .idle else .waitHigh) else .stopped) ∧
      (t.inp k).gate.notLive = !(t.ctl k).state.decoding ∧
      (t.inp k).gate.boot = (decide ((b.mat k).console = .booting) && n.bootHold) ∧
      (t.mat k).console = (b.mat k).console ∧
      ((t.ctl k).state = .seeking → t.phaseOf k = .edgeWait) ∧
      ((t.ctl k).state = .checking → t.phaseOf k = .measuring ∨ t.phaseOf k = .queued ∧ k ∈ t.rate.wait) ∧
      Wrote k .record records (takeSettings k n b) t ∧
      SameNotices (a.lookOrder (entryOf k) first fun u => post (answerNotice a r .done (a.unnamedDetail k))
        (((takeSettings k n u).writing k .record records).ifThen present
          (tell k .lineUp [byteOf st.code, byteOf LineCause.enable.code]))) t

/-- R18, R30, R34, R35, R45, R46, R55, R56, R75, R148, R156: an accepted CONFIGURE takes the settings into force and the line
reacts by the table of R45. A present line whose new rate mode is FIXED takes the fixed period, with a RATE record where that
changes the period in force or ends SEEKING, and leaves its measurement; a LIVE line that leaves FIXED is checked from the
tail of the wait list, with CHECK_BEGUN. A changed period, frame or role on a decoding line closes the open DATA record with
SETTINGS, and resets progress, the histories and the line start as R46 says; a changed role cuts the breaks of the wire. A
limit or timeout that the new settings bring and that has passed already takes the line to DARK, cuts the entry in flight, or
lets the grant lapse. The model's choices where these meet: a cut break's RECOVERY runs the old period (log entry 29), the
reaction of R45 comes before DARK (log entry 33), FIXED to FIXED clears the remembered lock (log entry 32), the flow pause follows
the latest sample where HARD was in force before too (log entry 20), an entry whose
pause the same CONFIGURE ends is cut all the same (log entry 35), the records of one CONFIGURE that R93 leaves unordered (log
entry 37), and the order of its notices (log entry 12). -/
def Obligations.ConfigureFollowsTheTable : Prop :=
  ∀ (e : Event) (k : LineIx) (first mark : Bool) (s a b : State) (r : Request) (n o : Settings) (was : LineState)
    (fixes checks newPeriod newFrame newRole touched rates dark stalled lapsed : Bool) (gate : Gate) (records : List Record),
    a = s.arrive e → a.regionsInside = true → a.asTaken (entryOf k) first = b →
    a.takenAt (entryOf k) kindConfigure = some r → a.decodingLaw k →
    b.checkSettings k = .ok n → b.cfg k = o → (b.ctl k).state = was →
    fixes = (was.present && decide (n.rateMode = .fixed)) →
    checks = decide (was = .live ∧ o.rateMode = .fixed ∧ n.rateMode ≠ .fixed) →
    newPeriod = (fixes && decide ((b.ctl k).period ≠ n.fixedPeriod)) → newFrame = decide (o.frame ≠ n.frame) →
    newRole = decide (o.role ≠ n.role) → touched = (was.decoding && (newPeriod || newFrame || newRole)) →
    rates = (newPeriod || fixes && decide (was = .seeking)) → (dark = true ↔ b.darkens k n) →
    (stalled = true ↔ b.stalls k n) → (lapsed = true ↔ b.lapses k n gate) →
    ⟨!(if dark then LineState.dark else was.configured o.rateMode n.rateMode).decoding,
      decide ((b.mat k).console = .booting) && n.bootHold, (b.inp k).gate.pattern, (b.inp k).gate.host⟩ = gate →
    (if newRole then b.breakInCut k ++ b.breakOutCut k else []) ++
        (if rates then [rateRecord n.fixedPeriod .configure a.time] else []) ++
        (if dark then b.leavingRecords k .dark .spaceHold .dark else if stalled then b.entryCut k .stall else []) ++
        (if lapsed then [grantRecord 0 (b.inp k).holder .lapse a.time] else []) = records →
    ∃ t, exec (.configure ⟨e, first⟩ k mark) s = .next t ∧ LookEnded k r .done (a.unnamedDetail k) a b t ∧
      t.ctl k = { b.ctl k with
        settings := n
        state := if dark then .dark else was.configured o.rateMode n.rateMode
        period := if fixes then n.fixedPeriod else (b.ctl k).period
        lockCause := if rates then .configure else (b.ctl k).lockCause
        remembered := if n.rateMode = .fixed then none else (b.ctl k).remembered
        noisy := (b.ctl k).noisy && !decide (o.rateMode = .fixed ∧ n.rateMode ≠ .fixed)
        windowChars := if checks || was.decoding && (newPeriod || newFrame) then 0 else (b.ctl k).windowChars
        windowErrors := if checks || was.decoding && (newPeriod || newFrame) then 0 else (b.ctl k).windowErrors
        history := if checks || was.decoding && (newPeriod || newFrame) then [] else (b.ctl k).history } ∧
      t.mat k = { b.mat k with
        progress := if touched || dark then Vector.replicate 32 0 else (b.mat k).progress
        lineStart := (b.mat k).lineStart || was.decoding && newPeriod } ∧
      (if dark || fixes && decide (was ≠ .live) then t.phaseOf k = .none ∧ k ∉ t.rate.wait
        else if checks then t.phaseOf k = .measuring ∨ t.phaseOf k = .queued ∧ k ∈ t.rate.wait
        else if newRole && decide (b.phaseOf k = .measuring) then
          ∀ i, b.channelOf k = some i → t.rate.channels[i] = some (Channel.awaiting k a.now) ∧
            t.rate.wait = b.rate.wait ∧ t.rate.phase = b.rate.phase
        else t.rate = b.rate) ∧
      (if touched || decide (records ≠ []) then
          Wrote k (if touched then .settings else .record) records (takeSettings k n b) t
        else t.cap k = (takeSettings k n b).cap k ∧ t.pool.free = (takeSettings k n b).pool.free ∧ t.cnt k = b.cnt k) ∧
      (touched = false → stalled = false → records = [] → o.dataInterval = n.dataInterval →
        SameNotices (a.lookOrder (entryOf k) first fun u => post (answerNotice a r .done (a.unnamedDetail k))
          (((takeSettings k n u).ifThen checks (tell k .checkBegun (leBytes 4 (b.ctl k).period ++ [2]))).ifThen
            ((b.ctl k).noisy && decide (o.rateMode = .fixed ∧ n.rateMode ≠ .fixed))
            (tell k .noisy [0, 0, 0, 0]))) t) ∧
      (t.fe k).view = ((b.fe k).view && !dark) ∧ (t.fe k).latch = ((b.fe k).latch || dark) ∧
      (t.fe k).contrary =
        (if dark = true ∨ o.source ≠ n.source ∨ o.threshold ≠ n.threshold ∨ o.settle ≠ n.settle then 0
          else (b.fe k).contrary) ∧
      (t.fe k).flowPause =
        (if was = .off ∨ dark = true ∨ n.flow = .none ∨ n.flow = .soft ∧ o.flow ≠ .soft then false
          else if n.flow = .soft then (b.fe k).flowPause else !(b.fe k).readings.clearToSend) ∧
      (t.fe k).mark = (if newRole then mark else (b.fe k).mark) ∧
      (t.fe k).receiver =
        (if dark then .stopped
          else if newRole && was.decoding || fixes && decide (was = .seeking) then
            (if (t.fe k).mark = true then .idle else .waitHigh)
          else (b.fe k).receiver) ∧
      (t.inp k).gate = gate ∧ (t.inp k).holder = (if lapsed then 0 else (b.inp k).holder) ∧
      (dark = true ∨ stalled = true → (t.inp k).entry = none) ∧
      (newRole = true → ∀ x, (b.inp k).entry = some x →
        (∀ start d, (b.fe k).transmitter = .spacing start d →
          (t.fe k).transmitter = .recovery (a.now + (b.ctl k).period) ∧ (t.inp k).entry = none) ∧
        (∀ i, (b.fe k).transmitter = .sending i → i.probe = false →
          (t.fe k).transmitter = .idle ∧ (t.inp k).entry = some { x with phase := .ready }))

/-- R42, R49, R57, R59, R60, R157, R158, R161: DISABLE, the HALT of a line, and space hold take a line that is not OFF out of its
state: to OFF, to OFF, and to DARK, with the records and the notices of the break received, the entry in flight and the state
entered: BREAK_SEEN, INPUT_CUT with DISABLED, HALTED or DARK, and on a present line LINE_DOWN with its cause. HALTING ends when
the last line is OFF (R174). The order of the notices among the records' DATA notices is the model's (log entry 12), and so is
that HALT writes the record of the cut entry before the LINE record, as DISABLE does (log entry 43); the length that INPUT_CUT
shows of a BREAK is a free value (log entry 6). -/
def Obligations.LinesAreTakenOut : Prop :=
  ∀ (e : Event) (k : LineIx) (first : Bool) (s a b : State), a = s.arrive e → a.regionsInside = true →
    a.asTaken (entryOf k) first = b →
    (∀ r, a.takenAt (entryOf k) kindDisable = some r → (b.ctl k).state ≠ .off →
      ∃ t, exec (.disable ⟨e, first⟩ k) s = .next t ∧ LookEnded k r .done (a.unnamedDetail k) a b t ∧
        LineLeft k .off .disable .stop .disabled b t ∧
        (t.fe k).view = (b.fe k).view ∧ (t.fe k).latch = (b.fe k).latch ∧
        SameNotices (a.lookOrder (entryOf k) first fun u => post (answerNotice a r .done (a.unnamedDetail k))
          (u.leaving k .off .disable .stop .disabled)) t) ∧
    (a.port.engine = .halting → (a.ctl k).state ≠ .off →
      ∃ t, exec (.lineHalt e k) s = .next t ∧ SameElsewhere k a t ∧ LineLeft k .off .halt .stop .halted a t ∧
        (t.fe k).view = (a.fe k).view ∧ (t.fe k).latch = (a.fe k).latch ∧
        SameNotices (a.leaving k .off .halt .stop .halted) t ∧
        t.port.shown = (if ∀ j, j ≠ k → (a.ctl j).state = .off then
          { a.port with engine := .halted, result := .stopped, detail := 0 } else a.port).shown) ∧
    (a.spaceHoldDue k = true → (a.ctl k).state.present = true →
      ∃ t, exec (.spaceHold e k) s = .next t ∧ OnlyLine k a t ∧ LineLeft k .dark .spaceHold .presence .dark a t ∧
        SameNotices (a.leaving k .dark .spaceHold .presence .dark) t ∧
        (t.fe k).view = false ∧ (t.fe k).latch = true ∧ (t.fe k).contrary = 0 ∧ (t.fe k).highRun = 0)

/-- R47, R75: an accepted RELOCK puts a LIVE line into CHECKING with CHECK_BEGUN, and restarts the measurement of a line
being measured: in its channel, or in its place on the wait list, or at the list's tail. No setting, period or record
changes. -/
def Obligations.RelockStartsTheMeasurementAgain : Prop :=
  ∀ (e : Event) (k : LineIx) (first : Bool) (s a b : State) (r : Request), a = s.arrive e → a.regionsInside = true →
    a.asTaken (entryOf k) first = b →
    a.takenAt (entryOf k) kindRelock = some r → (b.cfg k).rateMode ≠ .fixed → (b.ctl k).state.present = true →
    ∃ t, exec (.relock ⟨e, first⟩ k) s = .next t ∧ LookEnded k r .done (a.unnamedDetail k) a b t ∧ t.counters = b.counters ∧
      t.pool = b.pool ∧ t.engine = b.engine ∧ (t.fe k).rest = (b.fe k).rest ∧
      ((b.ctl k).state = .live →
        t.ctl k = { b.ctl k with state := .checking, history := [], windowChars := 0, windowErrors := 0 } ∧
        (t.phaseOf k = .measuring ∨ t.phaseOf k = .queued ∧ k ∈ t.rate.wait) ∧
        SameNotices (a.lookOrder (entryOf k) first fun u => post (answerNotice a r .done (a.unnamedDetail k))
          (tell k .checkBegun (leBytes 4 (b.ctl k).period ++ [1]) u)) t) ∧
      ((b.ctl k).state ≠ .live → t.control = b.control ∧
        (b.phaseOf k = .measuring → ∀ i, b.channelOf k = some i →
          t.rate.channels[i] = some (Channel.awaiting k a.now) ∧ t.rate.wait = b.rate.wait ∧
            t.rate.phase = b.rate.phase) ∧
        (b.phaseOf k = .edgeWait → t.phaseOf k = .measuring ∨ t.phaseOf k = .queued ∧ k ∈ t.rate.wait) ∧
        (b.phaseOf k = .queued → t.rate = b.rate) ∧
        SameNotices (a.lookOrder (entryOf k) first (post (answerNotice a r .done (a.unnamedDetail k)))) t)

/-- R48: RESET_COUNTERS sets every counter of the line to 0 in any line state and is answered DONE; it writes no record. The
detail of the answer, which no rule names, is a free value (log entry 8). -/
def Obligations.ResetCountersZeroesEveryCounter : Prop :=
  ∀ (e : Event) (k : LineIx) (first : Bool) (s a b : State) (r : Request), a = s.arrive e → a.regionsInside = true →
    a.asTaken (entryOf k) first = b →
    a.takenAt (entryOf k) kindResetCounters = some r →
    ∃ t, exec (.resetCounters ⟨e, first⟩ k) s = .next t ∧ t.cnt k = ⟨0, 0, 0, 0, 0, 0, 0, 0⟩ ∧
      LookEnded k r .done (a.unnamedDetail k) a b t ∧ t.port.entries[entryOf k].code = .done ∧
      t.port.entries[entryOf k].answered = r.number ∧ t.pool = b.pool ∧ t.control = b.control ∧ t.front = b.front ∧
      t.rate = b.rate ∧ t.engine = b.engine ∧ t.input = (handCount (entryOf k) (a.entryWord (entryOf k) 0x60) b).input ∧
      SameNotices (a.lookOrder (entryOf k) first (post (answerNotice a r .done (a.unnamedDetail k)))) t

/-- R98, R99: CLEAR_CAPTURE closes the open DATA record with CLEAR, then returns to the tail of the free list, oldest first,
exactly the blocks of the chain that no pin covers; the pinned ones stay, in their order. With DROP_PINS the pins go first,
oldest first with PIN_DROPPED, so that every block is returned. The detail is the number of blocks returned, and the next
record and sequence numbers go on. A returned block is marked free in its header, and no payload is written but that of the
closed record. -/
def Obligations.ClearCaptureReturnsUnpinnedBlocks : Prop :=
  ∀ (e : Event) (k : LineIx) (first drop : Bool) (s a b c : State) (r : Request) (returned : List Nat), a = s.arrive e →
    a.regionsInside = true → a.asTaken (entryOf k) first = b → a.takenAt (entryOf k) kindClearCapture = some r →
    a.poolLaw →
    (r.arg 0).testBit 0 = drop → closeOpen k .clear b = c →
    (if drop = true then chainIndices c k else c.unpinned k) = returned →
    ∃ t, exec (.clearCapture ⟨e, first⟩ k) s = .next t ∧ LookEnded k r .done returned.length a b t ∧
      t.pool.free = c.pool.free ++ returned ∧
      t.cap k = { c.cap k with
        chain := if drop = true then [] else (c.cap k).chain.filter (pinnedBy (c.cap k).pins)
        pins := if drop = true then [] else (c.cap k).pins } ∧
      t.cnt k = c.cnt k ∧ t.ctl k = b.ctl k ∧ t.fe k = b.fe k ∧ t.mat k = b.mat k ∧ t.rate = b.rate ∧
      (∀ rg x, a.port.regions = some rg → rg.pool.base + b.pool.blocks * 2048 ≤ regionBytes →
        (∀ y, b.poolArea y → ¬b.ringArea y ∧ ∀ i, ¬b.statusArea i y) → a.mem.wf → x ∈ returned →
        t.mem.read (rg.pool.base + blockOffset x + 4) = 0) ∧
      (∀ x, (∀ i, ¬b.statusArea i x) → ¬b.ringArea x →
        (∀ rg, a.port.regions = some rg → ∀ n ∈ chainIndices c k,
          x < rg.pool.base + blockOffset n ∨ rg.pool.base + blockOffset n + 32 ≤ x) → t.mem.read x = c.mem.read x) ∧
      SameNotices (a.lookOrder (entryOf k) first fun u => post (answerNotice a r .done returned.length)
        (if drop = true then
          (c.cap k).pins.foldl (fun v p => tell k .pinDropped (pinArgs p DropReason.cleared.code) v) (closeOpen k .clear u)
        else closeOpen k .clear u)) t

/-- R108 to R114, R118, R119: PIN_NOW writes its MARK record, with pattern number 0, the console state and the pin's id, and
puts a pin at the newest end of the list, with the next free id, the count A of blocks still to come, the newest block as its
last and the block B before that, or the oldest, as its first. Making room discards the oldest pins with PIN_DROPPED, one of
four with OVERFLOW and then as many as the budget asks for with BUDGET; a pin that stands alone and covers more is cut to the
budget and truncated. A chain of fewer than B older blocks leaves it clear, by the model's choice (log entry 38). A block that a
line takes is offered to its OPEN pins, newest first: each takes it in, discards older pins for it, or closes truncated, with
PIN_CLOSED where it is no longer OPEN. UNPIN takes the pin of an id out of the list and answers how many blocks became
unpinned. -/
def Obligations.PinsAreMadeAndRemoved : Prop :=
  (∀ (e : Event) (k : LineIx) (first : Bool) (s a b w : State) (r : Request), a = s.arrive e → a.regionsInside = true →
    a.asTaken (entryOf k) first = b →
    record k (markRecord 0 (b.mat k).console (b.pinId k) a.time)
      (b.modCap k fun c => { c with nextPinId := if b.pinId k = 255 then 1 else b.pinId k + 1 }) = w →
    (a.takenAt (entryOf k) kindPinNow = some r → 1 ≤ b.budget k → ((b.cap k).chain ≠ [] ∨ b.pool.free ≠ []) →
      ∃ t p q oldest newest, exec (.pinNow ⟨e, first⟩ k) s = .next t ∧ LookEnded k r .done (b.pinId k) a b t ∧
        Wrote k .record [markRecord 0 (b.mat k).console (b.pinId k) a.time] b t ∧
        (t.cap k).chain.getLast? = some newest ∧
        (t.cap k).chain[(t.cap k).chain.length - 1 - min 15 (r.arg 0)]? = some oldest ∧
        p = ⟨b.pinId k, 0, oldest.sequence, newest.sequence, min 15 (r.arg 1), false, a.time⟩ ∧
        t.cap k = (placePin k p w).cap k ∧ (t.cap k).pins.getLast? = some q ∧
        (q = p ∨ q.truncated = true ∧ { q with first := p.first, truncated := false } = p) ∧
        (t.cap k).nextPinId = (if b.pinId k = 255 then 1 else b.pinId k + 1) ∧
        ((b.cap k).pins.length ≤ 4 → (t.cap k).pins.length ≤ 4) ∧
        t.ctl k = b.ctl k ∧ t.fe k = b.fe k ∧ t.mat k = b.mat k ∧ t.rate = b.rate ∧
        SameNotices (a.lookOrder (entryOf k) first fun u => post (answerNotice a r .done (b.pinId k))
          (placePin k p (record k (markRecord 0 (b.mat k).console (b.pinId k) a.time) u))) t) ∧
    (a.takenAt (entryOf k) kindUnpin = some r → ∀ p, ((b.cap k).pins.find? fun q => q.id == r.arg 0) = some p →
      ∃ t freed, exec (.unpin ⟨e, first⟩ k) s = .next t ∧ LookEnded k r .done freed a b t ∧
        t.cap k = { b.cap k with pins := (b.cap k).pins.erase p } ∧ (t.cap k).pinned + freed = (b.cap k).pinned ∧
        t.pool.free = b.pool.free ∧ t.control = b.control ∧ t.counters = b.counters ∧ t.front = b.front ∧
        t.rate = b.rate ∧ t.engine = b.engine ∧
        SameNotices (a.lookOrder (entryOf k) first (post (answerNotice a r .done freed))) t)) ∧
  (∀ (s : State) (k : LineIx) (p : Pin), ∃ q dropped kept, PinPlaced k p q dropped kept s (placePin k p s)) ∧
  (∀ (s : State) (k : LineIx) (sequence : Word32) (p : Pin), p ∈ (s.cap k).pins → ((s.cap k).pins.map Pin.id).Nodup →
    (p.remaining = 0 → extendPin k sequence s p.id = s) ∧
    (0 < p.remaining → ∃ q dropped, PinExtended k sequence p q dropped s (extendPin k sequence s p.id))) ∧
  ∀ (s : State) (k : LineIx) (index : Nat) (sequence : Word32) (joined : State), (s.cap k).nextSequence = sequence →
    (s.modCap k fun c => { c with
      chain := c.chain ++ [⟨index, sequence, true, 0, 0, 0, 0, 0⟩], nextSequence := sequence + 1 }) = joined →
    ∀ u, (((s.cap k).pins.filter fun p => decide (0 < p.remaining)).map Pin.id).reverse.foldl (extendPin k sequence) joined = u →
      (joinBlock k index s).cap k = u.cap k ∧ (joinBlock k index s).notice = u.notice ∧
        (s.poolLaw → 1 ≤ index ∧ index ≤ s.pool.blocks → SameNotices u (joinBlock k index s)) ∧
        ((∀ p ∈ (s.cap k).pins, p.remaining = 0) → u = joined)

/-- R135, R137, R138, R140, R151: SET_CONSOLE sets the console state, resets the patterns that leave their filter, and
answers the state it found; HOLD_INPUT adds HOST and OPEN_INPUT removes HOST and PATTERN, answered with the reasons that
stand. -/
def Obligations.ConsoleAndGateRequests : Prop :=
  ∀ (e : Event) (k : LineIx) (first : Bool) (s a b : State) (r : Request), a = s.arrive e → a.regionsInside = true →
    a.asTaken (entryOf k) first = b →
    (∀ c, a.takenAt (entryOf k) kindSetConsole = some r → Console.ofCode (r.arg 0) = some c →
      ∃ t, exec (.setConsole ⟨e, first⟩ k) s = .next t ∧ LookEnded k r .done (b.mat k).console.code a b t ∧
        (t.mat k).console = c ∧ (t.mat k).lineStart = (b.mat k).lineStart ∧
        (∀ i : Fin 32, (t.mat k).progress[i] =
          if b.engine.table[i].holds (b.mat k).console = true ∧ b.engine.table[i].holds c = false then 0
          else (b.mat k).progress[i]) ∧
        ((b.mat k).console ≠ c →
          (t.inp k).gate = { (b.inp k).gate with boot := decide (c = .booting) && (b.cfg k).bootHold }) ∧
        ((b.mat k).console = c → (t.inp k).gate = (b.inp k).gate) ∧
        t.control = b.control ∧ t.counters = b.counters ∧ t.pool = b.pool ∧ t.rate = b.rate ∧
        SameNotices (a.lookOrder (entryOf k) first (post (answerNotice a r .done (b.mat k).console.code))) t) ∧
    (a.takenAt (entryOf k) kindHoldInput = some r →
      ∃ t, exec (.holdInput ⟨e, first⟩ k) s = .next t ∧ LookEnded k r .done (t.inp k).gate.bits a b t ∧
        (t.inp k).gate = { (b.inp k).gate with host := true } ∧ (t.inp k).gate.held = true ∧
        t.control = b.control ∧ t.counters = b.counters ∧ t.pool = b.pool ∧ t.rate = b.rate ∧ t.engine = b.engine ∧
        SameNotices (a.lookOrder (entryOf k) first (post (answerNotice a r .done (t.inp k).gate.bits))) t) ∧
    (a.takenAt (entryOf k) kindOpenInput = some r →
      ∃ t, exec (.openInput ⟨e, first⟩ k) s = .next t ∧ LookEnded k r .done (t.inp k).gate.bits a b t ∧
        (t.inp k).gate = { (b.inp k).gate with host := false, pattern := false } ∧
        t.control = b.control ∧ t.counters = b.counters ∧ t.pool = b.pool ∧ t.rate = b.rate ∧ t.engine = b.engine ∧
        SameNotices (a.lookOrder (entryOf k) first (post (answerNotice a r .done (t.inp k).gate.bits))) t)

/-- R123, R124, R180, R181: LOAD_PATTERNS replaces the table and resets every progress, or is refused with the first slot
and check that fail; APPLY_SETTINGS takes the scan selector into force and moves the deadline of every entry looked at since
START (that of another stays, log entry 39); a request that no owner takes is answered and nothing else. The look's count is
handed over with each. -/
def Obligations.ControlSlotRequests : Prop :=
  ∀ (e : Event) (first : Bool) (s a b : State) (r : Request), a = s.arrive e → a.regionsInside = true →
    a.asTaken 0 first = b →
    (a.takenAt 0 kindLoadPatterns = some r →
      (b.badSlot = none → ∃ t, exec (.loadPatterns ⟨e, first⟩) s = .next t ∧ t.engine.table = b.loadedTable ∧
        t.engine.loads = satAdd b.engine.loads 1 ∧
        (∀ k, t.mat k = { b.mat k with progress := Vector.replicate 32 0 }) ∧
        t.port.shown = (b.answered r .done (usedSlots b.loadedTable)).port.shown ∧ t.control = b.control ∧
        t.counters = b.counters ∧ t.front = b.front ∧ t.pool = b.pool ∧ t.rate = b.rate ∧ t.input = b.input ∧
        SameNotices (a.lookOrder 0 first (post (answerNotice a r .done (usedSlots b.loadedTable)))) t) ∧
      (∀ i check, b.badSlot = some (i, check) → ∃ t, exec (.loadPatterns ⟨e, first⟩) s = .next t ∧ t.engine = b.engine ∧
        t.port.shown = (b.answered r .badArgument (i.val + 1 + 256 * check)).port.shown ∧ t.control = b.control ∧
        t.counters = b.counters ∧ t.front = b.front ∧ t.pool = b.pool ∧ t.rate = b.rate ∧ t.input = b.input ∧
        SameNotices (a.lookOrder 0 first (post (answerNotice a r .badArgument (i.val + 1 + 256 * check)))) t ∧
        slotCheck (b.slotBytes i) = some check ∧ ∀ j, j < i → slotCheck (b.slotBytes j) = none)) ∧
    (a.takenAt 0 kindApplySettings = some r →
      ∃ t, exec (.applySettings ⟨e, first⟩) s = .next t ∧ t.port.scan = min 7 (byteAt (b.load Regions.lineTable 0 1) 0) ∧
        t.port.look = none ∧
        t.port.entries[(0 : EntryIx)].detail = t.port.scan ∧ t.port.entries[(0 : EntryIx)].code = .done ∧
        t.port.entries[(0 : EntryIx)].answered = r.number ∧
        (∀ i : EntryIx, t.port.entries[i].deadline = match a.port.entries[i].lastLook with
          | some began => began + 2 ^ t.port.scan * 48000
          | none => a.port.entries[i].deadline) ∧
        t.notice.capacity = b.notice.capacity ∧ t.control = b.control ∧ t.counters = b.counters ∧ t.front = b.front ∧
        t.pool = b.pool ∧ t.rate = b.rate ∧ t.input = b.input ∧ t.engine = b.engine ∧
        SameNotices (a.lookOrder 0 first (post (answerNotice a r .done t.port.scan))) t) ∧
    (∀ c, a.takenUnknown = some r → a.asTaken r.entry first = c →
      ∃ t, exec (.unknownRequest ⟨e, first⟩) s = .next t ∧
        t.port.shown = (c.answered r .unknownRequest r.kind).port.shown ∧ t.control = c.control ∧
        t.counters = c.counters ∧ t.front = c.front ∧ t.pool = c.pool ∧ t.rate = c.rate ∧ t.engine = c.engine ∧
        t.input = (handCount r.entry (a.entryWord r.entry 0x60) c).input ∧
        SameNotices (a.lookOrder r.entry first (post (answerNotice a r .unknownRequest r.kind))) t)

/-- R41 to R45, R47, R118, R119, R140: a request that is refused, an ENABLE of a line that is not OFF, and a DISABLE of one
that is, change nothing but the answer, whose detail is a free value where no rule names one (log entry 8). -/
def Obligations.RefusedRequestsOnlyAnswer : Prop :=
  ∀ (e : Event) (k : LineIx) (first mark : Bool) (s a b : State) (r : Request), a = s.arrive e → a.regionsInside = true →
    a.asTaken (entryOf k) first = b →
    (a.takenAt (entryOf k) kindEnable = some r → (b.ctl k).state ≠ .off →
      ∃ t, exec (.enable ⟨e, first⟩ k mark) s = .next t ∧ OnlyAnswered k first r .done (a.unnamedDetail k) a b t) ∧
    (∀ code detail, a.takenAt (entryOf k) kindEnable = some r → (b.ctl k).state = .off →
      b.checkSettings k = .error (code, detail) →
      ∃ t, exec (.enable ⟨e, first⟩ k mark) s = .next t ∧ OnlyAnswered k first r code detail a b t) ∧
    (a.takenAt (entryOf k) kindDisable = some r → (b.ctl k).state = .off →
      ∃ t, exec (.disable ⟨e, first⟩ k) s = .next t ∧ OnlyAnswered k first r .done (a.unnamedDetail k) a b t) ∧
    (∀ code detail, a.takenAt (entryOf k) kindConfigure = some r → b.checkSettings k = .error (code, detail) →
      ∃ t, exec (.configure ⟨e, first⟩ k mark) s = .next t ∧ OnlyAnswered k first r code detail a b t) ∧
    (a.takenAt (entryOf k) kindRelock = some r → ((b.cfg k).rateMode = .fixed ∨ (b.ctl k).state.present = false) →
      ∃ t, exec (.relock ⟨e, first⟩ k) s = .next t ∧ OnlyAnswered k first r .refusedState (a.unnamedDetail k) a b t) ∧
    (a.takenAt (entryOf k) kindPinNow = some r → b.budget k = 0 →
      ∃ t, exec (.pinNow ⟨e, first⟩ k) s = .next t ∧ OnlyAnswered k first r .noRoom 0 a b t) ∧
    (a.takenAt (entryOf k) kindUnpin = some r → (∀ p ∈ (b.cap k).pins, p.id ≠ r.arg 0) →
      ∃ t, exec (.unpin ⟨e, first⟩ k) s = .next t ∧ OnlyAnswered k first r .badArgument (r.arg 0) a b t) ∧
    (a.takenAt (entryOf k) kindSetConsole = some r → Console.ofCode (r.arg 0) = none →
      ∃ t, exec (.setConsole ⟨e, first⟩ k) s = .next t ∧ OnlyAnswered k first r .badArgument (r.arg 0) a b t)

/-! ## Input entries and the transmit side -/

/-- R147, R148, R59: TAKE, GIVE and STEAL at the head act on the grant holder by the table of R147. A change of holder writes
its GRANT record, with the new holder, the one before and the cause, and posts GRANT; a TAKE or STEAL by the holder restarts
the grant timer and writes nothing; the rest is refused. -/
def Obligations.GrantEntriesActOnTheHolder : Prop :=
  ∀ (e : Event) (k : LineIx) (s a : State) (r : RingEntry) (holder : Nat), a = s.arrive e → a.regionsInside = true →
    (a.inp k).holder = holder →
    (Heads k kindTake r a → ∃ t, exec (.takeEntry e k) s = .next t ∧
      if holder = 0 then
        HeadConsumed k a t ∧ Wrote k .record [grantRecord r.tag 0 .take a.time] a t ∧ (t.inp k).holder = r.tag ∧
          t.grantTime k = 0 ∧ SameNotices (tell k .grant [byteOf r.tag, 0, 1]
            (a.writing k .record [grantRecord r.tag 0 .take a.time])) t
      else if holder = r.tag then
        HeadConsumed k a t ∧ t.cap k = a.cap k ∧ t.cnt k = a.cnt k ∧ SameNotices a t ∧
          (t.inp k).holder = r.tag ∧ t.grantTime k = 0
      else HeadRefused k r .heldBy a t) ∧
    (Heads k kindGive r a → ∃ t, exec (.giveEntry e k) s = .next t ∧
      if holder = r.tag then
        HeadConsumed k a t ∧ Wrote k .record [grantRecord 0 r.tag .give a.time] a t ∧ (t.inp k).holder = 0 ∧
          SameNotices (tell k .grant [0, byteOf r.tag, 2] (a.writing k .record [grantRecord 0 r.tag .give a.time])) t
      else HeadRefused k r .notHolder a t) ∧
    (Heads k kindSteal r a → ∃ t, exec (.stealEntry e k) s = .next t ∧
      if r.tag ≠ 15 then HeadRefused k r .notSupervisor a t
      else if holder = 15 then
        HeadConsumed k a t ∧ t.cap k = a.cap k ∧ t.cnt k = a.cnt k ∧ SameNotices a t ∧
          (t.inp k).holder = 15 ∧ t.grantTime k = 0
      else HeadConsumed k a t ∧ Wrote k .record [grantRecord 15 holder .steal a.time] a t ∧ (t.inp k).holder = 15 ∧
        t.grantTime k = 0 ∧ SameNotices (tell k .grant [15, byteOf holder, 3]
          (a.writing k .record [grantRecord 15 holder .steal a.time])) t)

/-- R145, R146, R158, R160: KEYS and BREAK at the head wait while the gate is HELD, are refused to a tag that does not hold
the grant, a BREAK also by the break policy, and are taken otherwise; KEYS of length 0 end at once. A bad tag or kind is
refused. -/
def Obligations.KeysAndBreaksAreTakenOrRefused : Prop :=
  ∀ (e : Event) (k : LineIx) (s a : State) (r : RingEntry), a = s.arrive e → a.regionsInside = true →
    (∀ c, (c = Instr.keysEntry e k ∧ Heads k kindKeys r a ∨ c = Instr.breakEntry e k ∧ Heads k kindBreak r a) →
      (a.inp k).gate.held = true →
      ∃ t, exec c s = .next t ∧ OnlyLine k a t ∧ (t.inp k).consume = (a.inp k).consume ∧ (t.inp k).entry = none ∧
        (t.inp k).holder = (a.inp k).holder ∧ t.pool = a.pool ∧ t.counters = a.counters ∧ SameNotices a t) ∧
    (∀ c, (c = Instr.keysEntry e k ∧ Heads k kindKeys r a ∨ c = Instr.breakEntry e k ∧ Heads k kindBreak r a) →
      (a.inp k).gate.held = false → (a.inp k).holder ≠ r.tag →
      ∃ t, exec c s = .next t ∧ HeadRefused k r .notHolder a t) ∧
    (Heads k kindKeys r a → (a.inp k).gate.held = false → (a.inp k).holder = r.tag →
      ∃ t, exec (.keysEntry e k) s = .next t ∧ OnlyLine k a t ∧ (t.inp k).consume = (a.inp k).consume + 1 ∧
        (t.inp k).entry = (if r.length = 0 then none else
          some ⟨false, r.tag, (a.inp k).consume, a.now, r.keys.take (min 56 r.length), 0, 0, .ready⟩) ∧
        (t.inp k).holder = r.tag ∧ (t.inp k).gate = (a.inp k).gate ∧ t.grantTime k = 0 ∧ (t.fe k).probeHanded = false ∧
        (t.fe k).rest = (a.fe k).rest ∧ t.control = a.control ∧ t.counters = a.counters ∧ t.pool = a.pool ∧
        t.rate = a.rate ∧ t.engine = a.engine ∧ SameNotices a t) ∧
    (Heads k kindBreak r a → (a.inp k).gate.held = false → (a.inp k).holder = r.tag →
      ((a.cfg k).breakPolicy = .any ∨ (a.cfg k).breakPolicy = .holder ∧ (a.mat k).console ≠ .prompt) →
      ∃ t, exec (.breakEntry e k) s = .next t ∧ OnlyLine k a t ∧ (t.inp k).consume = (a.inp k).consume + 1 ∧
        (t.inp k).entry = some ⟨true, r.tag, (a.inp k).consume, a.now, [],
          if r.duration = 0 then (a.cfg k).breakDuration else max 10 (min 4000 r.duration), 0, .ready⟩ ∧
        (t.inp k).holder = r.tag ∧ (t.inp k).gate = (a.inp k).gate ∧ t.grantTime k = 0 ∧ (t.fe k).probeHanded = false ∧
        (t.fe k).rest = (a.fe k).rest ∧ t.control = a.control ∧ t.counters = a.counters ∧ t.pool = a.pool ∧
        t.rate = a.rate ∧ t.engine = a.engine ∧ SameNotices a t) ∧
    (Heads k kindBreak r a → (a.inp k).gate.held = false → (a.inp k).holder = r.tag →
      ((a.cfg k).breakPolicy = .never ∨ (a.cfg k).breakPolicy = .holder ∧ (a.mat k).console = .prompt) →
      ∃ t, exec (.breakEntry e k) s = .next t ∧ HeadRefused k r .policy a t) ∧
    (a.considers k = true → a.head k = r → (r.tag = 0 ∨ 15 < r.tag) →
      ∃ t, exec (.refusedEntry e k) s = .next t ∧ HeadRefused k r .badTag a t) ∧
    (a.considers k = true → a.head k = r → 1 ≤ r.tag → r.tag ≤ 15 → (r.kind = 0 ∨ 5 < r.kind) →
      ∃ t, exec (.refusedEntry e k) s = .next t ∧ HeadRefused k r .badKind a t)

/-- R25, R153, R155, R161: at its hand-off an entry pauses under a HELD gate, a key byte also under a flow pause; otherwise
the key byte begins at the period and frame in force, or the break begins. An entry whose waits still run is not handed. -/
def Obligations.HandOffBeginsOrPauses : Prop :=
  ∀ (e : Event) (k : LineIx) (s a : State) (x : InFlight), a = s.arrive e → a.regionsInside = true →
    (a.inp k).entry = some x →
    (x.phase = .ready → (a.fe k).transmitter = .idle →
      (x.isBreak = true ∨ ∀ last, (a.inp k).lastKeyEnd = some last → last + (a.cfg k).paceGap * 48 ≤ a.now) →
      ∃ t, exec (.handOff e k) s = .next t ∧ OnlyLine k a t ∧ t.control = a.control ∧ t.counters = a.counters ∧
        t.pool = a.pool ∧ t.rate = a.rate ∧ t.engine = a.engine ∧ SameNotices a t ∧ t.mem = a.mem ∧
        (t.fe k).rest = (a.fe k).rest ∧ (t.inp k).rest = (a.inp k).rest ∧
        if (a.inp k).gate.held = true then
          (t.inp k).entry = some { x with phase := .pausedGate a.now } ∧ (t.fe k).transmitter = .idle
        else if x.isBreak = true then
          (t.inp k).entry = some { x with phase := .breaking } ∧ (t.fe k).transmitter = .spacing a.now x.duration
        else if (a.fe k).flowPause = true then
          (t.inp k).entry = some { x with phase := .pausedFlow a.now } ∧ (t.fe k).transmitter = .idle
        else
          (t.inp k).entry = some { x with phase := .sending } ∧
            (t.fe k).transmitter =
              .sending ⟨false, x.keys.getD x.sent 0, a.now, (a.ctl k).period, (a.cfg k).frame⟩) ∧
    ((x.phase ≠ .ready ∨ (a.fe k).transmitter ≠ .idle ∨ x.isBreak = false ∧
        ∃ last, (a.inp k).lastKeyEnd = some last ∧ a.now < last + (a.cfg k).paceGap * 48) →
      exec (.handOff e k) s = .next a)

/-- R25, R154, R158, R163: when a key byte has been sent it is counted, and its entry waits after a CR, goes on, or ends with
its INPUT record of the bytes sent; a probe sent is counted, recorded by an INPUT record at its start bit, and disarmed; the
end of a line-end wait lets the entry go on or end. No notice is posted but what the DATA timer makes of the records (R190). -/
def Obligations.SentItemsAndLineEnds : Prop :=
  ∀ (e : Event) (k : LineIx) (s a : State), a = s.arrive e → a.regionsInside = true → (a.fe k).probeHanded = false →
    (∀ i x, (a.fe k).transmitter = .sending i → i.start + i.frame.bits * i.period ≤ a.now → i.probe = false →
      (a.inp k).entry = some x →
      ∃ t, exec (.characterSent e k) s = .next t ∧ OnlyLine k a t ∧ (t.fe k).transmitter = .idle ∧
        (t.inp k).lastKeyEnd = some a.now ∧ t.ctl k = a.ctl k ∧ t.mat k = a.mat k ∧ t.rate = a.rate ∧
        (t.inp k).gate = (a.inp k).gate ∧ (t.inp k).holder = (a.inp k).holder ∧
        (t.cnt k).traffic = { (a.cnt k).traffic with bytesSent := satAdd (a.cnt k).bytesSent 1 } ∧
        if i.byte = 0x0D#8 ∧ (a.cfg k).lineEnd ≠ 0 then
          (t.inp k).entry = some { x with sent := x.sent + 1, phase := .lineEnd (a.now + (a.cfg k).lineEnd * 48000) } ∧
            t.cap k = a.cap k ∧ SameNotices a t
        else if x.sent + 1 < x.keys.length then
          (t.inp k).entry = some { x with sent := x.sent + 1, phase := .ready } ∧ t.cap k = a.cap k ∧ SameNotices a t
        else (t.inp k).entry = none ∧
          if x.keys = [] then t.cap k = a.cap k ∧ SameNotices a t
          else Wrote k .record [inputRecord x.tag none (x.keys.take (x.sent + 1)) (timeAt x.taken)] (countSent k a) t ∧
            SameNotices (a.writing k .record [inputRecord x.tag none (x.keys.take (x.sent + 1)) (timeAt x.taken)]) t) ∧
    (∀ i, (a.fe k).transmitter = .sending i → i.start + i.frame.bits * i.period ≤ a.now → i.probe = true →
      (a.inp k).entry = none →
      ∃ t, exec (.characterSent e k) s = .next t ∧ OnlyLine k a t ∧ (t.fe k).transmitter = .idle ∧
        (t.inp k).armed = false ∧ (t.inp k).silence = a.now ∧ (t.inp k).entry = none ∧ t.ctl k = a.ctl k ∧
        (t.cnt k).traffic = { (a.cnt k).traffic with bytesSent := satAdd (a.cnt k).bytesSent 1 } ∧
        Wrote k .record [probeRecord (timeAt i.start)] (countSent k a) t ∧
        SameNotices (a.writing k .record [probeRecord (timeAt i.start)]) t) ∧
    (∀ x ends, (a.inp k).entry = some x → x.phase = .lineEnd ends → ends ≤ a.now →
      ∃ t, exec (.lineEndExpiry e k) s = .next t ∧ OnlyLine k a t ∧ (t.fe k).transmitter = (a.fe k).transmitter ∧
        t.ctl k = a.ctl k ∧ t.mat k = a.mat k ∧ t.rate = a.rate ∧ (t.cnt k).traffic = (a.cnt k).traffic ∧
        if x.sent < x.keys.length then
          (t.inp k).entry = some { x with phase := .ready } ∧ t.cap k = a.cap k ∧ SameNotices a t
        else (t.inp k).entry = none ∧
          if x.keys = [] then t.cap k = a.cap k ∧ SameNotices a t
          else Wrote k .record [inputRecord x.tag none (x.keys.take x.sent) (timeAt x.taken)] a t ∧
            SameNotices (a.writing k .record [inputRecord x.tag none (x.keys.take x.sent) (timeAt x.taken)]) t) ∧
    (∀ i, (a.fe k).transmitter = .sending i → a.now < i.start + i.frame.bits * i.period →
      exec (.characterSent e k) s = .next a)

/-- R26, R147, R148, R156, R158, R161 to R163: a stalled entry is cut, with its record and INPUT_CUT; a grant lapses with its
GRANT record and notice; a break sent enters RECOVERY with its BREAK_OUT record of the duration asked for, and ends its
entry; RECOVERY ends in IDLE; a due probe is handed and begins unless a flow pause stands. That a BREAK_SENT that comes late
still reports the duration asked for is the model's choice (log entry 24), and so is that its entry ends there, before the mark
(log entry 44); the length that INPUT_CUT shows of a BREAK is a free
value (log entry 6), and the order of INPUT_CUT among the notices of its record is the model's (log entry 12). -/
def Obligations.TransmitTimersRunOut : Prop :=
  ∀ (e : Event) (k : LineIx) (s a : State), a = s.arrive e → a.regionsInside = true →
    (∀ x since, (a.inp k).entry = some x → (x.phase = .pausedGate since ∨ x.phase = .pausedFlow since) →
      (a.cfg k).stallLimit ≠ 0 → since + (a.cfg k).stallLimit * 48000000 ≤ a.now →
      ∃ t, exec (.stall e k) s = .next t ∧ OnlyLine k a t ∧ (t.inp k).entry = none ∧
        (t.inp k).holder = (a.inp k).holder ∧ (t.inp k).gate = (a.inp k).gate ∧ t.ctl k = a.ctl k ∧
        t.mat k = a.mat k ∧ t.rate = a.rate ∧ (t.cnt k).traffic = (a.cnt k).traffic ∧
        if a.entryCut k .stall = [] then t.pool = a.pool ∧ SameNotices (tellCut k x .stall a) t
        else Wrote k .record (a.entryCut k .stall) a t ∧
          SameNotices (tellCut k x .stall (a.writing k .record (a.entryCut k .stall))) t) ∧
    (a.lapseDue k = true →
      ∃ t, exec (.lapse e k) s = .next t ∧ OnlyLine k a t ∧ (t.inp k).holder = 0 ∧
        Wrote k .record [grantRecord 0 (a.inp k).holder .lapse a.time] a t ∧
        SameNotices (tell k .grant [0, byteOf (a.inp k).holder, 4]
          (a.writing k .record [grantRecord 0 (a.inp k).holder .lapse a.time])) t ∧
        (t.inp k).gate = (a.inp k).gate ∧ (t.inp k).entry = none ∧ t.ctl k = a.ctl k ∧ t.mat k = a.mat k ∧
        t.rate = a.rate ∧ (t.fe k).rest = (a.fe k).rest) ∧
    (∀ start d x, (a.fe k).transmitter = .spacing start d → start + d * 48000 ≤ a.now → (a.inp k).entry = some x →
      ∃ t, exec (.breakSent e k) s = .next t ∧ OnlyLine k a t ∧
        (t.fe k).transmitter = .recovery (a.now + (a.ctl k).period) ∧ (t.inp k).entry = none ∧
        Wrote k .record [breakOutRecord false x.tag (d * 1000) (timeAt start)] a t ∧
        t.ctl k = a.ctl k ∧ t.mat k = a.mat k ∧ t.rate = a.rate ∧ (t.inp k).gate = (a.inp k).gate ∧
        (t.inp k).holder = (a.inp k).holder) ∧
    (∀ ends, (a.fe k).transmitter = .recovery ends → ends ≤ a.now →
      ∃ t, exec (.recoveryEnd e k) s = .next t ∧ OnlyLine k a t ∧ (∀ x, (t.fe k).transmitter ≠ .recovery x) ∧
        ((a.fe k).probeHanded = false → (∀ x, (a.inp k).entry = some x → x.phase = .ready) →
          (t.fe k).transmitter = .idle ∧ (t.inp k).entry = (a.inp k).entry) ∧
        t.control = a.control ∧ t.counters = a.counters ∧ t.pool = a.pool ∧ t.rate = a.rate ∧ SameNotices a t) ∧
    (a.probeConditions k = true → (a.fe k).transmitter = .idle → (a.fe k).probeHanded = false →
      ∃ t, exec (.probeDue e k) s = .next t ∧ OnlyLine k a t ∧
        (if (a.fe k).flowPause = true then (t.fe k).transmitter = .idle ∧ (t.fe k).probeHanded = true
          else (t.fe k).probeHanded = false ∧ (t.fe k).transmitter = .sending ⟨true, 0x0D#8, a.now,
            if (a.ctl k).state = .seeking then tablePeriod (a.cfg k).probeEntry else (a.ctl k).period,
            (a.cfg k).frame⟩) ∧
        t.control = a.control ∧ t.counters = a.counters ∧ t.pool = a.pool ∧ t.rate = a.rate ∧ SameNotices a t)

/-! ## The receive side -/

/-- R7, R22, R28, R54, R55, R58, R94, R95, R154, R164: a delivered character that SOFT flow control absorbs sets or clears the
flow pause and goes nowhere else; every other is counted with its marks and appended to the open DATA record, which closes at
240 bytes. It joins the error window: the 256th character's verdict, BAD from the error limit on, joins the last three, and on
a LIVE line two BAD verdicts begin a check in AUTO, with CHECK_BEGUN, or turn NOISY on in FIXED, and three GOOD turn it off.
It re-arms the probe of a LIVE line, and a CR or LF ends a LINE_END under echo wait. The tick the idle time of a held-back
frame runs from is the model's reading (log entry 27), and so is that the line's state before the character's errors act decides
whether the probe is re-armed (log entry 21). -/
def Obligations.CharacterIsAbsorbedOrCaptured : Prop :=
  ∀ (e : Event) (k : LineIx) (s a : State) (c : Character) (charTime : Nat) (next : Receiver) (l : Control)
    (bad checks on off : Bool) (errors : Nat) (verdicts : List Bool),
    a = s.arrive e → a.regionsInside = true → a.delivered k = some (c, charTime, next) → a.ctl k = l →
    l.windowErrors + ((if c.framingError then 1 else 0) + (if c.parityError then 1 else 0)) = errors →
    bad = decide (l.settings.errorLimit ≤ errors) → verdicts = (l.history ++ [bad]).drop (l.history.length - 2) →
    checks = decide (256 ≤ l.windowChars + 1 ∧ l.state = .live ∧ l.settings.rateMode ≠ .fixed ∧
      2 ≤ (verdicts.filter id).length) →
    on = decide (256 ≤ l.windowChars + 1 ∧ l.state = .live ∧ l.settings.rateMode = .fixed ∧ l.noisy = false ∧
      2 ≤ (verdicts.filter id).length) →
    off = decide (256 ≤ l.windowChars + 1 ∧ l.state = .live ∧ l.settings.rateMode = .fixed ∧ l.noisy = true ∧
      verdicts = [false, false, false]) →
    ∃ t, exec (.characterDelivered e k) s = .next t ∧ OnlyLine k a t ∧ (t.fe k).receiver = next ∧
      (t.fe k).idle = some ⟨max (c.edge + charTime) a.now, charTime⟩ ∧
      (((a.cfg k).flow = .soft ∧ c.parityError = false ∧ c.framingError = false ∧
          (c.byte = 0x13#8 ∨ c.byte = 0x11#8)) →
        (t.fe k).flowPause = decide (c.byte = 0x13#8) ∧ t.ctl k = a.ctl k ∧ t.cnt k = a.cnt k ∧ t.cap k = a.cap k ∧
          t.mat k = a.mat k ∧ t.rate = a.rate ∧ SameNotices a t ∧ (t.inp k).armed = (a.inp k).armed) ∧
      (((a.cfg k).flow ≠ .soft ∨ c.parityError = true ∨ c.framingError = true ∨
          c.byte ≠ 0x13#8 ∧ c.byte ≠ 0x11#8) →
        (t.fe k).flowPause = (a.fe k).flowPause ∧
        t.ctl k = (if l.windowChars + 1 < 256 then { l with windowChars := l.windowChars + 1, windowErrors := errors }
          else { l with
            windowChars := 0
            windowErrors := 0
            state := if checks then .checking else l.state
            history := if checks then [] else verdicts
            noisy := on || l.noisy && !off }) ∧
        (if checks then t.phaseOf k = .measuring ∨ t.phaseOf k = .queued ∧ k ∈ t.rate.wait else t.rate = a.rate) ∧
        (t.cnt k).traffic = ((a.captured k c).cnt k).traffic ∧
        (t.inp k).armed = ((a.inp k).armed || decide (l.state = .live)) ∧
        (t.mat k).lineStart = (decide (c.byte = 0x0D#8) || decide (c.byte = 0x0A#8)) ∧
        (a.completing k c.byte ≠ [] → (t.cap k).openRecord = none) ∧
        (∀ x, a.echoed k c.byte = some x →
          (t.inp k).entry = if x.sent < x.keys.length then some { x with phase := .ready } else none) ∧
        (∀ x, a.echoed k c.byte = none → (a.inp k).entry = some x → x.phase.pausedSince = none →
          (t.inp k).entry = some x) ∧
        (a.completing k c.byte = [] → (t.mat k).console = (a.mat k).console ∧
          (∀ i : Fin 32, (t.mat k).progress[i] = (a.advanced k c.byte i).1) ∧
          ∀ o, o = ((a.cap k).openRecord.getD ⟨[], timeAt c.edge, 0, 0⟩).append c.byte c.marks →
            if o.bytes.length < 240 ∧ a.echoRecords k c.byte = [] then
              t.cap k = { a.cap k with openRecord := some o } ∧ t.pool.free = a.pool.free ∧
                SameNotices (if checks then tell k .checkBegun (leBytes 4 l.period ++ [0]) a
                  else if on then tell k .noisy ([1, 0] ++ leBytes 2 errors) a
                  else if off then tell k .noisy ([0, 0] ++ leBytes 2 errors) a else a) t
            else Wrote k (if o.bytes.length < 240 then .record else .full) (a.echoRecords k c.byte) (a.captured k c) t))

/-- R93, R95, R111, R130 to R138: when patterns complete on a byte, the open DATA record closes with the byte and with MATCH,
and the completed patterns act in ascending slot number: each with MARK or PIN writes its MARK record, with PIN also a pin,
each with NOTICE posts MATCH, and console state and PATTERN follow them. Lines with SOFT flow control complete patterns on the
characters that it does not absorb. Where the byte also ends the echo wait of an entry, the INPUT record comes behind, which is
the model's choice (log entry 34). -/
def Obligations.CompletionsAreHandledInOrder : Prop :=
  ∀ (e : Event) (k : LineIx) (s a w : State) (c : Character) (charTime : Nat) (next : Receiver), a = s.arrive e →
    a.regionsInside = true → a.delivered k = some (c, charTime, next) →
    ((a.cfg k).flow ≠ .soft ∨ c.marks ≠ 0 ∨ c.byte ≠ 0x13#8 ∧ c.byte ≠ 0x11#8) → a.completing k c.byte ≠ [] →
    (a.echoRecords k c.byte).foldl (fun u r => record k r u) ((a.captured k c).marking k (a.completing k c.byte)) = w →
    ∃ t, exec (.characterDelivered e k) s = .next t ∧ OnlyLine k a t ∧ (t.cap k).openRecord = none ∧
      (t.cap k).nextRecord = (a.cap k).nextRecord + BitVec.ofNat 32 (1 + (a.echoRecords k c.byte).length +
        ((a.completing k c.byte).filter fun i => a.engine.table[i].actMark || a.engine.table[i].actPin).length) ∧
      t.cap k = w.cap k ∧ t.pool.free = w.pool.free ∧ t.cnt k = w.cnt k ∧
      (∀ x, (∀ i, ¬a.statusArea i x) → ¬a.ringArea x → t.mem.read x = w.mem.read x) ∧
      ((a.ctl k).windowChars + 1 < 256 → SameNotices w t) ∧
      (t.mat k).console = (a.completing k c.byte).foldl
        (fun state i => if a.engine.table[i].actState = true then a.engine.table[i].target else state) (a.mat k).console ∧
      (t.inp k).gate.pattern = (a.completing k c.byte).foldl
        (fun held i => if a.engine.table[i].actOpen = true then false
          else if a.engine.table[i].actHold = true then true else held) (a.inp k).gate.pattern ∧
      (t.inp k).gate.host = (a.inp k).gate.host ∧ (∀ i ∈ a.completing k c.byte, (t.mat k).progress[i] = 0) ∧
      ∀ x, a.echoed k c.byte = some x →
        (t.inp k).entry = if x.sent < x.keys.length then some { x with phase := .ready } else none

/-- R4 to R7, R20, R21, R24, R57, R95: the confirming sample, the first stop sample, the frame held back, the beginning and the end
of a break and the record gap, on the receiver states and wires that decide them. A candidate whose low still lasts is judged at the
sample, or at edge + D when D is later, and is a start; one whose low has ended is judged by the sample alone, whatever D has become
since (log entry 19). A high stop sample delivers the character, and a fall behind it is a candidate at once; a low one delivers it with
a framing error, at the sample where the input has risen since the start edge and otherwise at a rise before edge + 2 × C; else
nothing is delivered. A break that begins closes the open DATA record with BREAK, one that ends writes its BREAK_IN record and posts
BREAK_SEEN. The gap is reached at G × C of idle time with a DATA record open, while no candidate is judged and no start is confirmed. A
rise at the very tick edge + 2 × C is read as a break (log entry 19), and a gap that falls due inside a low waits till that proves a
glitch (log entry 28). -/
def Obligations.ReceiverDecides : Prop :=
  ∀ (e : Event) (k : LineIx) (s a : State) (d : Nat), a = s.arrive e → a.regionsInside = true → (a.cfg k).deglitch = d →
    (∀ c w due, (a.fe k).receiver = .candidate c w →
      c.edge + (if w = [] then max (c.period / 2) d else c.period / 2) = due →
      (a.now < due → exec (.confirmingSample e k) s = .next a) ∧
      (due ≤ a.now →
        ∃ t, exec (.confirmingSample e k) s = .next t ∧ OnlyLine k a t ∧ t.control = a.control ∧
          t.counters = a.counters ∧ t.pool = a.pool ∧ t.rate = a.rate ∧ t.engine = a.engine ∧ t.input = a.input ∧
          SameNotices a t ∧ (t.fe k).transmitter = (a.fe k).transmitter ∧
          (w = [] → (t.fe k).receiver = .frame c w ∧ (t.fe k).idle = none) ∧
          ∀ rise, w = [(rise, true)] →
            (rise < c.edge + c.period / 2 → (t.fe k).receiver = .idle ∧ (t.fe k).idle = (a.fe k).idle) ∧
            (c.edge + c.period / 2 < rise → (t.fe k).receiver = .frame c w ∧ (t.fe k).idle = none))) ∧
    (∀ c w stop, (a.fe k).receiver = .frame c w →
      c.edge + c.period / 2 + (1 + c.frame.dataBits + c.frame.parityBits) * c.period = stop →
      (a.now < stop → a.delivered k = none) ∧
      ∀ high, stop ≤ a.now → (∀ x ∈ w, x.1 ≠ stop) →
        ((w.find? fun x => decide (x.1 < stop)).map Prod.snd).getD false = high →
        (high = true → a.delivered k = some (assemble k c w false, c.frame.bits * c.period,
          match w.head? with
          | some (fall, false) => .candidate ⟨fall, (a.ctl k).period, (a.cfg k).frame⟩ []
          | _ => .idle)) ∧
        (high = false → (∃ x ∈ w, x.2 = true ∧ x.1 < stop) →
          a.delivered k = some ({ assemble k c w false with framingError := true }, c.frame.bits * c.period,
            if w.head?.map Prod.snd = some true then .idle else .waitHigh)) ∧
        (high = false → (∀ x ∈ w, x.2 = true → stop < x.1) → a.delivered k = none)) ∧
    (∀ c w, (a.fe k).receiver = .holding c w →
      a.delivered k =
        if ∃ x ∈ w, x.2 = true ∧ x.1 < c.edge + 2 * (c.frame.bits * c.period) then
          some ({ assemble k c w false with framingError := true }, c.frame.bits * c.period,
            if w.head?.map Prod.snd = some true then .idle else .waitHigh)
        else none) ∧
    ((∀ c w, (a.fe k).receiver ≠ .frame c w ∧ (a.fe k).receiver ≠ .holding c w) → a.delivered k = none) ∧
    (a.delivered k = none → exec (.characterDelivered e k) s = .next a) ∧
    (∀ c, (a.fe k).receiver = .frame c [] → c.stopAt ≤ a.now →
      ∃ t, exec (.frameHeldBack e k) s = .next t ∧ OnlyLine k a t ∧ (t.fe k).receiver = .holding c [] ∧
        t.control = a.control ∧ t.counters = a.counters ∧ t.pool = a.pool ∧ t.rate = a.rate ∧ t.engine = a.engine ∧
        t.input = a.input ∧ SameNotices a t) ∧
    (∀ c w, (a.fe k).receiver = .holding c w → c.edge + 2 * (c.frame.bits * c.period) ≤ a.now →
      (∀ x ∈ w, x.2 = true → c.edge + 2 * (c.frame.bits * c.period) ≤ x.1) →
      ∃ t, exec (.breakBegun e k) s = .next t ∧ OnlyLine k a t ∧ (∃ rise, (t.fe k).receiver = .inBreak c rise) ∧
        Wrote k .break [] (a.modCnt k fun n => { n with breaksReceived := satAdd n.breaksReceived 1 }) t ∧
        ((a.cap k).openRecord = none → SameNotices a t) ∧
        t.control = a.control ∧ t.rate = a.rate ∧ t.engine = a.engine ∧ t.input = a.input) ∧
    (∀ c rise, (a.fe k).receiver = .inBreak c (some rise) → rise + c.period ≤ a.now →
      ∃ t, exec (.breakEnded e k) s = .next t ∧ OnlyLine k a t ∧
        Wrote k .record [breakInRecord false (micros (rise - c.edge)) (timeAt c.edge)] a t ∧
        SameNotices (tell k .breakSeen (leBytes 8 (timeAt c.edge) ++ leBytes 4 (micros (rise - c.edge)))
          (a.writing k .record [breakInRecord false (micros (rise - c.edge)) (timeAt c.edge)])) t ∧
        (t.fe k).receiver = (if (a.fe k).mark = true then .idle else .waitHigh) ∧ t.control = a.control ∧
        t.rate = a.rate ∧ t.engine = a.engine ∧ t.input = a.input) ∧
    (a.gapDue k = true ↔ ∃ i, (a.fe k).idle = some i ∧ (a.cap k).openRecord ≠ none ∧
      i.since + (a.cfg k).gap * i.charTime ≤ a.now ∧
      ∀ c w, (a.fe k).receiver ≠ .candidate c w ∧ (a.fe k).receiver ≠ .frame c w ∧ (a.fe k).receiver ≠ .holding c w) ∧
    (a.gapDue k = true →
      ∃ t, exec (.recordGap e k) s = .next t ∧ OnlyLine k a t ∧ Wrote k .gap [] a t ∧ (t.fe k).idle = none ∧
        (t.fe k).receiver = (a.fe k).receiver ∧ t.control = a.control ∧ t.rate = a.rate ∧ t.engine = a.engine ∧
        t.input = a.input) ∧
    (a.gapDue k = false → exec (.recordGap e k) s = .next a)

/-- R6, R10, R20, R23, R66, R68, R69, R162, R164: a falling edge starts a candidate on an IDLE receiver, ends in BREAK a high
stretch shorter than P, restarts the silence timer, joins a waiting line to the wait list and starts a window; a rising edge ends
WAIT_HIGH and glitches, begins a high stretch in BREAK, and appends the low it ends to the window when R10 accepts it. A candidate, a
frame and a frame held back keep the edges that fall behind their start. That the glitch is judged by the deglitch setting in force at
the rise is what the model deduces (log entry 19). -/
def Obligations.EdgesReachReceiverAndChannel : Prop :=
  ∀ (e : Event) (k : LineIx) (s a : State), a = s.arrive e → a.regionsInside = true →
    ((a.fe k).mark = true →
      ∃ t, exec (.joinEvent e k) s = .next t ∧ OnlyLine k a t ∧ (t.fe k).mark = false ∧ t.control = a.control ∧
        t.counters = a.counters ∧ t.pool = a.pool ∧ t.engine = a.engine ∧ SameNotices a t ∧
        ((a.fe k).receiver = .idle →
          (t.fe k).receiver = .candidate ⟨a.now, (a.ctl k).period, (a.cfg k).frame⟩ []) ∧
        ((a.fe k).receiver = .stopped ∨ (a.fe k).receiver = .waitHigh → (t.fe k).receiver = (a.fe k).receiver) ∧
        (∀ c w, (a.fe k).receiver = .candidate c w → (t.fe k).receiver = .candidate c ((a.now, false) :: w)) ∧
        (∀ c w, (a.fe k).receiver = .frame c w → (t.fe k).receiver = .frame c ((a.now, false) :: w)) ∧
        (∀ c w, (a.fe k).receiver = .holding c w → (t.fe k).receiver = .holding c ((a.now, false) :: w)) ∧
        (∀ c rise, (a.fe k).receiver = .inBreak c rise → (t.fe k).receiver = .inBreak c
          (rise.filter fun r => decide (r + c.period ≤ a.now))) ∧
        ((a.ctl k).state = .off → t.input = a.input ∧ t.rate = a.rate) ∧
        ((a.ctl k).state ≠ .off → (t.inp k).silence = a.now ∧ (t.fe k).probeHanded = false ∧
          (t.inp k).armed = ((a.inp k).armed || decide ((a.ctl k).state = .seeking)) ∧
          (a.phaseOf k = .none ∨ a.phaseOf k = .queued → t.rate = a.rate) ∧
          (a.phaseOf k = .edgeWait → t.phaseOf k = .measuring ∨ t.phaseOf k = .queued ∧ k ∈ t.rate.wait) ∧
          (a.phaseOf k = .measuring → ∀ i x, a.channelOf k = some i → a.rate.channels[i] = some x →
            t.rate.wait = a.rate.wait ∧ t.rate.phase = a.rate.phase ∧
            (x.collecting = true → t.rate.channels[i] = some { x with lowStart := some a.now }) ∧
            (x.collecting = false → x.since < a.now → t.rate.channels[i] = some { x with
              collecting := true, current := [], lowStart := some a.now, timer := a.now + 96000000 }) ∧
            (x.collecting = false → a.now ≤ x.since → t.rate.channels[i] = some x)))) ∧
    ((a.fe k).mark = false → exec (.joinEvent e k) s = .next a) ∧
    ((a.fe k).mark = false →
      ∃ t, exec (.receiveRisingEdge e k) s = .next t ∧ OnlyLine k a t ∧ (t.fe k).mark = true ∧ t.control = a.control ∧
        t.counters = a.counters ∧ t.pool = a.pool ∧ t.engine = a.engine ∧ t.input = a.input ∧ SameNotices a t ∧
        t.rate.wait = a.rate.wait ∧ t.rate.phase = a.rate.phase ∧
        ((a.fe k).receiver = .waitHigh → (t.fe k).receiver = .idle) ∧
        (∀ c w, (a.fe k).receiver = .candidate c w → (t.fe k).receiver =
          if w = [] ∧ a.now < c.edge + (a.cfg k).deglitch then .idle else .candidate c ((a.now, true) :: w)) ∧
        ((a.fe k).receiver = .stopped ∨ (a.fe k).receiver = .idle → (t.fe k).receiver = (a.fe k).receiver) ∧
        (∀ c w, (a.fe k).receiver = .holding c w → (t.fe k).receiver = .holding c ((a.now, true) :: w)) ∧
        (∀ c rise, (a.fe k).receiver = .inBreak c rise → (t.fe k).receiver = .inBreak c (some a.now)) ∧
        (∀ c w, (a.fe k).receiver = .frame c w → (t.fe k).receiver = .frame c ((a.now, true) :: w)) ∧
        (∀ i x low, a.channelOf k = some i → a.rate.channels[i] = some x → x.collecting = true →
          x.lowStart = some low → x.current.length < 12 →
          t.rate.channels[i] = some { x with
            lowStart := none
            current := if (a.cfg k).deglitch ≤ a.now - low ∧ a.now - low ≤ 11 * maxPeriod (a.cfg k).mask
              then x.current ++ [a.now - low] else x.current }) ∧
        (a.channelOf k = none → t.rate = a.rate)) ∧
    ((a.fe k).mark = true → exec (.receiveRisingEdge e k) s = .next a)

/-- R29 to R36, R40, R49, R50: a due sample reads every line's pins through its role and threshold, a pin with no voltage as
mark or deasserted (R17); HARD flow follows clear-to-send, a changed input that the settings select posts SIGNAL, and the
presence filter of a line that is not OFF and not held by space counts contrary samples and changes the view at S of them,
which takes the line to DARK, with LINE_DOWN behind the notices of what it leaves, or to the state R40 chooses, as does a
recovery from space hold on a raw presence. The lines
follow one another in ascending number. A sample is due at most once on each multiple of 48,000 ticks above 0, as log entry 11
reads R31; one that is not due changes nothing. On a lost presence the order of BREAK_SEEN and INPUT_CUT among the DATA notices of
the records is the model's (log entry 12), and the length that INPUT_CUT shows of a BREAK a free value (log entry 6). -/
def Obligations.SampleReadsEveryLine : Prop :=
  (∀ (e : Event) (pins : Vector Pins 48) (s a : State), a = s.arrive e → a.regionsInside = true →
    (a.sampleDue = true →
      ∃ t, exec (.sample e pins) s = .next t ∧ t.port.shown = { a.port with sampled := some a.now }.shown ∧
        t.now = a.now ∧ SameNotices ((List.finRange 48).foldl (sampleLine pins) a) t ∧
        t.pool = ((List.finRange 48).foldl (sampleLine pins) a).pool ∧
        t.counters = ((List.finRange 48).foldl (sampleLine pins) a).counters ∧
        ∀ (k : LineIx) (r : Readings) (raw : Bool), readPins (a.cfg k) pins[k] = r →
          rawPresence (a.cfg k).source r = raw →
          (t.fe k).readings = r ∧ t.cfg k = a.cfg k ∧ (t.cnt k).traffic = (a.cnt k).traffic ∧
          ((a.cfg k).role = .dte → pins[k].b = none → r.mark = true ∧ (1 ≤ (a.cfg k).threshold → r.active = false)) ∧
          ((a.cfg k).role = .dte → pins[k].s3 = none → r.deviceReady = false) ∧
          ((a.cfg k).role = .dte → pins[k].s4 = none → r.clearToSend = false) ∧
          ((a.cfg k).role = .dce → pins[k].a = none → r.mark = true ∧ (1 ≤ (a.cfg k).threshold → r.active = false)) ∧
          ((a.cfg k).role = .dce → pins[k].s1 = none → r.deviceReady = false) ∧
          ((a.cfg k).role = .dce → pins[k].s2 = none → r.clearToSend = false) ∧
          ((a.ctl k).state = .off → t.ctl k = a.ctl k ∧ t.cap k = a.cap k ∧ (t.fe k).view = (a.fe k).view) ∧
          ((a.ctl k).state ≠ .off → (a.fe k).latch = false →
            (raw = (a.fe k).view → (t.fe k).view = (a.fe k).view ∧ (t.fe k).contrary = 0 ∧ t.ctl k = a.ctl k) ∧
            (raw ≠ (a.fe k).view → (a.fe k).contrary + 1 < (a.cfg k).settle →
              (t.fe k).view = (a.fe k).view ∧ (t.fe k).contrary = (a.fe k).contrary + 1 ∧ t.ctl k = a.ctl k) ∧
            (raw ≠ (a.fe k).view → (a.cfg k).settle ≤ (a.fe k).contrary + 1 →
              (t.fe k).view = raw ∧ (t.fe k).contrary = 0 ∧
              (raw = false → (a.ctl k).state.present = true → t.ctl k = { a.ctl k with state := .dark } ∧
                (t.cap k).openRecord = none ∧ (t.inp k).entry = none) ∧
              (raw = true → (a.ctl k).state = .dark → (t.mat k).console = .unknown ∧ (t.ctl k).state = a.chosen k))) ∧
          ((a.ctl k).state ≠ .off → (a.fe k).latch = true → r.mark = false → (a.cfg k).settle ≠ 0 →
            (t.fe k).latch = true ∧ (t.fe k).highRun = 0 ∧ (t.fe k).view = (a.fe k).view ∧ t.ctl k = a.ctl k) ∧
          ((a.ctl k).state ≠ .off → (a.fe k).latch = true → r.mark = true →
            (a.fe k).highRun + 1 < (a.cfg k).settle →
            (t.fe k).latch = true ∧ (t.fe k).highRun = (a.fe k).highRun + 1 ∧ (t.fe k).view = (a.fe k).view ∧
              t.ctl k = a.ctl k) ∧
          ((a.ctl k).state ≠ .off → (a.fe k).latch = true → r.mark = true →
            (a.cfg k).settle ≤ (a.fe k).highRun + 1 → (t.fe k).latch = false ∧ (t.fe k).highRun = 0 ∧
              (raw = false → (t.fe k).view = (a.fe k).view ∧ t.ctl k = a.ctl k) ∧
              (raw = true → (t.fe k).view = true ∧ ((a.ctl k).state = .dark → (t.mat k).console = .unknown ∧
                (t.ctl k).state = a.chosen k))) ∧
          ((a.cfg k).flow = .hard → (t.ctl k).state.present = true → (t.fe k).flowPause = !r.clearToSend)) ∧
    (a.sampleDue = false → exec (.sample e pins) s = .next a)) ∧
  ∀ (pins : Vector Pins 48) (s t p : State) (k : LineIx) (r : Readings) (raw : Bool), sampleLine pins s k = t →
    readPins (s.cfg k) pins[k] = r → rawPresence (s.cfg k).source r = raw →
    (s.signalNotices k r).foldl (fun u n => post n u) s = p →
    ((s.ctl k).state = .off ∨ (s.fe k).latch = false ∧ (raw = (s.fe k).view ∨ (s.fe k).contrary + 1 < (s.cfg k).settle) ∨
        (s.fe k).latch = true ∧ (raw = false ∨ r.mark = true ∧ (s.fe k).highRun + 1 < (s.cfg k).settle) →
      SameNotices p t ∧ t.pool = s.pool ∧ t.counters = s.counters ∧ t.rate = s.rate) ∧
    ((s.ctl k).state.present = true → (s.fe k).latch = false → raw = false → (s.fe k).view = true →
      (s.cfg k).settle ≤ (s.fe k).contrary + 1 →
      LineLeft k .dark .presenceLost .presence .dark (s.modFe k fun f => { f with readings := r }) t ∧
        SameNotices (p.leaving k .dark .presenceLost .presence .dark) t) ∧
    ((s.ctl k).state = .dark → raw = true →
      ((s.fe k).latch = false ∧ (s.fe k).view = false ∧ (s.cfg k).settle ≤ (s.fe k).contrary + 1 ∨
        (s.fe k).latch = true ∧ r.mark = true ∧ (s.cfg k).settle ≤ (s.fe k).highRun + 1) →
      ∀ records, lineRecord (s.chosen k) .presenceGained s.time ::
          chosenRate (s.chosen k) (s.cfg k) (s.ctl k).remembered s.time = records →
        Wrote k .record records s t ∧ SameNotices (tell k .lineUp [byteOf (s.chosen k).code, 4]
          (p.writing k .record records)) t)

/-- R39, R51 to R53, R56, R59, R69 to R73: a complete window is evaluated: the entry of the window before it again locks the
line, the sixth window without a lock fails it, and any other goes on awaiting an edge. A lock that sets the period writes its
RATE record, with LOCKED on a SEEKING line and with CHANGED, behind the open DATA record closed with RATE, on a CHECKING one.
Every lock posts RATE_LOCKED with the period in force, its entry and the outcome, 0 LOCKED, 1 CONFIRMED or 2 CHANGED, and every
failure RATE_FAILED with the period in force and the state left. The window timer's end makes the line wait for an edge, but not
once the window is complete, and gives its channel to the head of the wait list, if no other channel was given at that tick
(R67). An incomplete window is not evaluated. -/
def Obligations.WindowsLockFailOrGoOn : Prop :=
  ∀ (e : Event) (k : LineIx) (s a : State) (i : Fin 4) (x : Channel) (lock : Prop), a = s.arrive e →
    a.regionsInside = true → a.channelOf k = some i → a.rate.channels[i] = some x →
    (lock ↔ ∃ n, windowResult (a.cfg k).mask (a.cfg k).tolerance x.current = .entry n ∧
      x.previous = some (.entry n)) →
    (x.complete = true → lock →
      ∃ t p, exec (.windowEvaluated e k) s = .next t ∧ OnlyLine k a t ∧ t.phaseOf k = .none ∧ k ∉ t.rate.wait ∧
        x.verdict (a.cfg k) = .lock p ∧ t.cfg k = a.cfg k ∧ (t.cnt k).traffic = (a.cnt k).traffic ∧
        ((a.ctl k).state = .seeking → (t.ctl k).state = .live ∧ (t.ctl k).period = p ∧
          (t.ctl k).remembered = some p ∧ (t.ctl k).lockCause = .locked ∧ (t.ctl k).history = [] ∧
          Wrote k .record [rateRecord p .locked a.time] a t ∧
          SameNotices (tell k .rateLocked (leBytes 4 p ++ [byteOf (reportedEntry p), 0])
            (a.writing k .record [rateRecord p .locked a.time])) t) ∧
        ((a.ctl k).state = .checking →
          (t.ctl k).state = .live ∧ (t.ctl k).remembered = some (t.ctl k).period ∧
          if lockAgrees (a.cfg k).rateMode (a.cfg k).tolerance (a.ctl k).period p = true then
            (t.ctl k).period = (a.ctl k).period ∧ (t.ctl k).history = (a.ctl k).history ∧ t.cap k = a.cap k ∧
              SameNotices (tell k .rateLocked
                (leBytes 4 (a.ctl k).period ++ [byteOf (reportedEntry (a.ctl k).period), 1]) a) t
          else (t.ctl k).period = p ∧ (t.ctl k).lockCause = .changed ∧ (t.ctl k).history = [] ∧
            Wrote k .rate [rateRecord p .changed a.time] a t ∧
            SameNotices (tell k .rateLocked (leBytes 4 p ++ [byteOf (reportedEntry p), 2])
              (a.writing k .rate [rateRecord p .changed a.time])) t)) ∧
    (x.complete = true → ¬lock → 5 ≤ x.evaluated →
      ∃ t, exec (.windowEvaluated e k) s = .next t ∧ OnlyLine k a t ∧ k ∉ t.rate.wait ∧ t.pool = a.pool ∧
        t.counters = a.counters ∧
        SameNotices (tell k .rateFailed (leBytes 4 (a.ctl k).period ++ [byteOf (t.ctl k).state.code]) a) t ∧
        ((a.ctl k).state = .seeking → t.ctl k = a.ctl k ∧ t.phaseOf k = .edgeWait) ∧
        ((a.ctl k).state = .checking → t.ctl k = { a.ctl k with state := .live } ∧ t.phaseOf k = .none)) ∧
    (x.complete = true → ¬lock → x.evaluated < 5 →
      ∃ t, exec (.windowEvaluated e k) s = .next t ∧ OnlyLine k a t ∧ t.control = a.control ∧ t.pool = a.pool ∧
        t.counters = a.counters ∧ SameNotices a t ∧ t.rate.wait = a.rate.wait ∧ t.rate.phase = a.rate.phase ∧
        ∃ y, t.rate.channels[i] = some y ∧ y.line = x.line ∧ y.collecting = false ∧ y.evaluated = x.evaluated + 1 ∧
          y.previous = some (windowResult (a.cfg k).mask (a.cfg k).tolerance x.current) ∧
          y.previousWidths = x.current ∧ y.current = [] ∧ y.timer = a.now + 96000000 ∧ y.since = a.now) ∧
    (x.complete = false → exec (.windowEvaluated e k) s = .next a) ∧
    (x.timer ≤ a.now → x.complete = false →
      ∃ t, exec (.windowTimeout e k) s = .next t ∧ OnlyLine k a t ∧ t.phaseOf k = .edgeWait ∧ k ∉ t.rate.wait ∧
        t.control = a.control ∧ t.counters = a.counters ∧ t.pool = a.pool ∧ t.input = a.input ∧ t.front = a.front ∧
        SameNotices a t ∧
        ((∀ (m : Fin 4) (y : Channel), a.rate.channels[m] = some y → a.rate.granted[y.line] ≠ some a.now) → k ∉ a.rate.wait →
          (a.rate.wait = [] → t.rate.channels[i] = none) ∧
          ∀ j rest, a.rate.wait = j :: rest → (∀ m, m ≠ i → a.rate.channels[m].isSome = true) →
            t.rate.channels[i] = some (Channel.awaiting j a.now) ∧ t.rate.wait = rest)) ∧
    (a.now < x.timer ∨ x.complete = true → exec (.windowTimeout e k) s = .next a)

end Statements
end

