-- ==== Sys2Proof/Laws/State.lean ====
section
/-! SUPPORT. What each update of the state leaves and changes: one lemma for each field of each update, and the same
through the accessors that read one line. All of them hold by unfolding the update. -/

namespace Sys2Proof

/-! ## Tables -/

@[simp] theorem tab_get {α : Type} {n : Nat} (f : Fin n → α) (i : Nat) (h : i < n) : (tab f)[i] = f ⟨i, h⟩ := by
  simp [tab]

@[simp] theorem upd_get_self {α : Type} {n : Nat} (v : Vector α n) (k : Fin n) (f : α → α) :
    (upd v k f)[k.val] = f v[k.val] := by
  simp [upd]

@[simp] theorem upd_get_ne {α : Type} {n : Nat} (v : Vector α n) (k : Fin n) (f : α → α) (j : Nat) (hj : j < n)
    (h : j ≠ k.val) : (upd v k f)[j] = v[j] := by
  simp [upd, Ne.symm h]

/-- An updated table at any index. -/
theorem upd_get {α : Type} {n : Nat} (v : Vector α n) (k j : Fin n) (f : α → α) :
    (upd v k f)[j] = if j = k then f v[k] else v[j] := by
  by_cases h : j = k
  · subst h; simp
  · have : j.val ≠ k.val := fun e => h (Fin.ext e)
    simp [h, this]

namespace Machine

/-! ## Fields under updates -/

section
variable (s : State)

@[simp] theorem modCtl_pending (k : LineIx) (f : Control → Control) : (s.modCtl k f).pending = s.pending := rfl
@[simp] theorem modCtl_now (k : LineIx) (f : Control → Control) : (s.modCtl k f).now = s.now := rfl
@[simp] theorem modCtl_port (k : LineIx) (f : Control → Control) : (s.modCtl k f).port = s.port := rfl
@[simp] theorem modCtl_control (k : LineIx) (f : Control → Control) : (s.modCtl k f).control = upd s.control k f := rfl
@[simp] theorem modCtl_counters (k : LineIx) (f : Control → Control) : (s.modCtl k f).counters = s.counters := rfl
@[simp] theorem modCtl_front (k : LineIx) (f : Control → Control) : (s.modCtl k f).front = s.front := rfl
@[simp] theorem modCtl_rate (k : LineIx) (f : Control → Control) : (s.modCtl k f).rate = s.rate := rfl
@[simp] theorem modCtl_pool (k : LineIx) (f : Control → Control) : (s.modCtl k f).pool = s.pool := rfl
@[simp] theorem modCtl_engine (k : LineIx) (f : Control → Control) : (s.modCtl k f).engine = s.engine := rfl
@[simp] theorem modCtl_input (k : LineIx) (f : Control → Control) : (s.modCtl k f).input = s.input := rfl
@[simp] theorem modCtl_notice (k : LineIx) (f : Control → Control) : (s.modCtl k f).notice = s.notice := rfl
@[simp] theorem modCtl_mem (k : LineIx) (f : Control → Control) : (s.modCtl k f).mem = s.mem := rfl

@[simp] theorem modCnt_pending (k : LineIx) (f : Counters → Counters) : (s.modCnt k f).pending = s.pending := rfl
@[simp] theorem modCnt_now (k : LineIx) (f : Counters → Counters) : (s.modCnt k f).now = s.now := rfl
@[simp] theorem modCnt_port (k : LineIx) (f : Counters → Counters) : (s.modCnt k f).port = s.port := rfl
@[simp] theorem modCnt_control (k : LineIx) (f : Counters → Counters) : (s.modCnt k f).control = s.control := rfl
@[simp] theorem modCnt_counters (k : LineIx) (f : Counters → Counters) : (s.modCnt k f).counters = upd s.counters k f := rfl
@[simp] theorem modCnt_front (k : LineIx) (f : Counters → Counters) : (s.modCnt k f).front = s.front := rfl
@[simp] theorem modCnt_rate (k : LineIx) (f : Counters → Counters) : (s.modCnt k f).rate = s.rate := rfl
@[simp] theorem modCnt_pool (k : LineIx) (f : Counters → Counters) : (s.modCnt k f).pool = s.pool := rfl
@[simp] theorem modCnt_engine (k : LineIx) (f : Counters → Counters) : (s.modCnt k f).engine = s.engine := rfl
@[simp] theorem modCnt_input (k : LineIx) (f : Counters → Counters) : (s.modCnt k f).input = s.input := rfl
@[simp] theorem modCnt_notice (k : LineIx) (f : Counters → Counters) : (s.modCnt k f).notice = s.notice := rfl
@[simp] theorem modCnt_mem (k : LineIx) (f : Counters → Counters) : (s.modCnt k f).mem = s.mem := rfl

@[simp] theorem modFe_pending (k : LineIx) (f : FrontEnd → FrontEnd) : (s.modFe k f).pending = s.pending := rfl
@[simp] theorem modFe_now (k : LineIx) (f : FrontEnd → FrontEnd) : (s.modFe k f).now = s.now := rfl
@[simp] theorem modFe_port (k : LineIx) (f : FrontEnd → FrontEnd) : (s.modFe k f).port = s.port := rfl
@[simp] theorem modFe_control (k : LineIx) (f : FrontEnd → FrontEnd) : (s.modFe k f).control = s.control := rfl
@[simp] theorem modFe_counters (k : LineIx) (f : FrontEnd → FrontEnd) : (s.modFe k f).counters = s.counters := rfl
@[simp] theorem modFe_front (k : LineIx) (f : FrontEnd → FrontEnd) : (s.modFe k f).front = upd s.front k f := rfl
@[simp] theorem modFe_rate (k : LineIx) (f : FrontEnd → FrontEnd) : (s.modFe k f).rate = s.rate := rfl
@[simp] theorem modFe_pool (k : LineIx) (f : FrontEnd → FrontEnd) : (s.modFe k f).pool = s.pool := rfl
@[simp] theorem modFe_engine (k : LineIx) (f : FrontEnd → FrontEnd) : (s.modFe k f).engine = s.engine := rfl
@[simp] theorem modFe_input (k : LineIx) (f : FrontEnd → FrontEnd) : (s.modFe k f).input = s.input := rfl
@[simp] theorem modFe_notice (k : LineIx) (f : FrontEnd → FrontEnd) : (s.modFe k f).notice = s.notice := rfl
@[simp] theorem modFe_mem (k : LineIx) (f : FrontEnd → FrontEnd) : (s.modFe k f).mem = s.mem := rfl

@[simp] theorem modCap_pending (k : LineIx) (f : Capture → Capture) : (s.modCap k f).pending = s.pending := rfl
@[simp] theorem modCap_now (k : LineIx) (f : Capture → Capture) : (s.modCap k f).now = s.now := rfl
@[simp] theorem modCap_port (k : LineIx) (f : Capture → Capture) : (s.modCap k f).port = s.port := rfl
@[simp] theorem modCap_control (k : LineIx) (f : Capture → Capture) : (s.modCap k f).control = s.control := rfl
@[simp] theorem modCap_counters (k : LineIx) (f : Capture → Capture) : (s.modCap k f).counters = s.counters := rfl
@[simp] theorem modCap_front (k : LineIx) (f : Capture → Capture) : (s.modCap k f).front = s.front := rfl
@[simp] theorem modCap_rate (k : LineIx) (f : Capture → Capture) : (s.modCap k f).rate = s.rate := rfl
@[simp] theorem modCap_pool (k : LineIx) (f : Capture → Capture) : (s.modCap k f).pool = { s.pool with lines := upd s.pool.lines k f } := rfl
@[simp] theorem modCap_engine (k : LineIx) (f : Capture → Capture) : (s.modCap k f).engine = s.engine := rfl
@[simp] theorem modCap_input (k : LineIx) (f : Capture → Capture) : (s.modCap k f).input = s.input := rfl
@[simp] theorem modCap_notice (k : LineIx) (f : Capture → Capture) : (s.modCap k f).notice = s.notice := rfl
@[simp] theorem modCap_mem (k : LineIx) (f : Capture → Capture) : (s.modCap k f).mem = s.mem := rfl

@[simp] theorem modMat_pending (k : LineIx) (f : MatchLine → MatchLine) : (s.modMat k f).pending = s.pending := rfl
@[simp] theorem modMat_now (k : LineIx) (f : MatchLine → MatchLine) : (s.modMat k f).now = s.now := rfl
@[simp] theorem modMat_port (k : LineIx) (f : MatchLine → MatchLine) : (s.modMat k f).port = s.port := rfl
@[simp] theorem modMat_control (k : LineIx) (f : MatchLine → MatchLine) : (s.modMat k f).control = s.control := rfl
@[simp] theorem modMat_counters (k : LineIx) (f : MatchLine → MatchLine) : (s.modMat k f).counters = s.counters := rfl
@[simp] theorem modMat_front (k : LineIx) (f : MatchLine → MatchLine) : (s.modMat k f).front = s.front := rfl
@[simp] theorem modMat_rate (k : LineIx) (f : MatchLine → MatchLine) : (s.modMat k f).rate = s.rate := rfl
@[simp] theorem modMat_pool (k : LineIx) (f : MatchLine → MatchLine) : (s.modMat k f).pool = s.pool := rfl
@[simp] theorem modMat_engine (k : LineIx) (f : MatchLine → MatchLine) : (s.modMat k f).engine = { s.engine with lines := upd s.engine.lines k f } := rfl
@[simp] theorem modMat_input (k : LineIx) (f : MatchLine → MatchLine) : (s.modMat k f).input = s.input := rfl
@[simp] theorem modMat_notice (k : LineIx) (f : MatchLine → MatchLine) : (s.modMat k f).notice = s.notice := rfl
@[simp] theorem modMat_mem (k : LineIx) (f : MatchLine → MatchLine) : (s.modMat k f).mem = s.mem := rfl

@[simp] theorem modInp_pending (k : LineIx) (f : InputLine → InputLine) : (s.modInp k f).pending = s.pending := rfl
@[simp] theorem modInp_now (k : LineIx) (f : InputLine → InputLine) : (s.modInp k f).now = s.now := rfl
@[simp] theorem modInp_port (k : LineIx) (f : InputLine → InputLine) : (s.modInp k f).port = s.port := rfl
@[simp] theorem modInp_control (k : LineIx) (f : InputLine → InputLine) : (s.modInp k f).control = s.control := rfl
@[simp] theorem modInp_counters (k : LineIx) (f : InputLine → InputLine) : (s.modInp k f).counters = s.counters := rfl
@[simp] theorem modInp_front (k : LineIx) (f : InputLine → InputLine) : (s.modInp k f).front = s.front := rfl
@[simp] theorem modInp_rate (k : LineIx) (f : InputLine → InputLine) : (s.modInp k f).rate = s.rate := rfl
@[simp] theorem modInp_pool (k : LineIx) (f : InputLine → InputLine) : (s.modInp k f).pool = s.pool := rfl
@[simp] theorem modInp_engine (k : LineIx) (f : InputLine → InputLine) : (s.modInp k f).engine = s.engine := rfl
@[simp] theorem modInp_input (k : LineIx) (f : InputLine → InputLine) : (s.modInp k f).input = upd s.input k f := rfl
@[simp] theorem modInp_notice (k : LineIx) (f : InputLine → InputLine) : (s.modInp k f).notice = s.notice := rfl
@[simp] theorem modInp_mem (k : LineIx) (f : InputLine → InputLine) : (s.modInp k f).mem = s.mem := rfl

@[simp] theorem modPort_pending (f : EnginePort → EnginePort) : (s.modPort f).pending = s.pending := rfl
@[simp] theorem modPort_now (f : EnginePort → EnginePort) : (s.modPort f).now = s.now := rfl
@[simp] theorem modPort_port (f : EnginePort → EnginePort) : (s.modPort f).port = f s.port := rfl
@[simp] theorem modPort_control (f : EnginePort → EnginePort) : (s.modPort f).control = s.control := rfl
@[simp] theorem modPort_counters (f : EnginePort → EnginePort) : (s.modPort f).counters = s.counters := rfl
@[simp] theorem modPort_front (f : EnginePort → EnginePort) : (s.modPort f).front = s.front := rfl
@[simp] theorem modPort_rate (f : EnginePort → EnginePort) : (s.modPort f).rate = s.rate := rfl
@[simp] theorem modPort_pool (f : EnginePort → EnginePort) : (s.modPort f).pool = s.pool := rfl
@[simp] theorem modPort_engine (f : EnginePort → EnginePort) : (s.modPort f).engine = s.engine := rfl
@[simp] theorem modPort_input (f : EnginePort → EnginePort) : (s.modPort f).input = s.input := rfl
@[simp] theorem modPort_notice (f : EnginePort → EnginePort) : (s.modPort f).notice = s.notice := rfl
@[simp] theorem modPort_mem (f : EnginePort → EnginePort) : (s.modPort f).mem = s.mem := rfl

@[simp] theorem modNotice_pending (f : NoticeUnit → NoticeUnit) : (s.modNotice f).pending = s.pending := rfl
@[simp] theorem modNotice_now (f : NoticeUnit → NoticeUnit) : (s.modNotice f).now = s.now := rfl
@[simp] theorem modNotice_port (f : NoticeUnit → NoticeUnit) : (s.modNotice f).port = s.port := rfl
@[simp] theorem modNotice_control (f : NoticeUnit → NoticeUnit) : (s.modNotice f).control = s.control := rfl
@[simp] theorem modNotice_counters (f : NoticeUnit → NoticeUnit) : (s.modNotice f).counters = s.counters := rfl
@[simp] theorem modNotice_front (f : NoticeUnit → NoticeUnit) : (s.modNotice f).front = s.front := rfl
@[simp] theorem modNotice_rate (f : NoticeUnit → NoticeUnit) : (s.modNotice f).rate = s.rate := rfl
@[simp] theorem modNotice_pool (f : NoticeUnit → NoticeUnit) : (s.modNotice f).pool = s.pool := rfl
@[simp] theorem modNotice_engine (f : NoticeUnit → NoticeUnit) : (s.modNotice f).engine = s.engine := rfl
@[simp] theorem modNotice_input (f : NoticeUnit → NoticeUnit) : (s.modNotice f).input = s.input := rfl
@[simp] theorem modNotice_notice (f : NoticeUnit → NoticeUnit) : (s.modNotice f).notice = f s.notice := rfl
@[simp] theorem modNotice_mem (f : NoticeUnit → NoticeUnit) : (s.modNotice f).mem = s.mem := rfl

@[simp] theorem modRate_pending (f : RateFinder → RateFinder) : (s.modRate f).pending = s.pending := rfl
@[simp] theorem modRate_now (f : RateFinder → RateFinder) : (s.modRate f).now = s.now := rfl
@[simp] theorem modRate_port (f : RateFinder → RateFinder) : (s.modRate f).port = s.port := rfl
@[simp] theorem modRate_control (f : RateFinder → RateFinder) : (s.modRate f).control = s.control := rfl
@[simp] theorem modRate_counters (f : RateFinder → RateFinder) : (s.modRate f).counters = s.counters := rfl
@[simp] theorem modRate_front (f : RateFinder → RateFinder) : (s.modRate f).front = s.front := rfl
@[simp] theorem modRate_rate (f : RateFinder → RateFinder) : (s.modRate f).rate = f s.rate := rfl
@[simp] theorem modRate_pool (f : RateFinder → RateFinder) : (s.modRate f).pool = s.pool := rfl
@[simp] theorem modRate_engine (f : RateFinder → RateFinder) : (s.modRate f).engine = s.engine := rfl
@[simp] theorem modRate_input (f : RateFinder → RateFinder) : (s.modRate f).input = s.input := rfl
@[simp] theorem modRate_notice (f : RateFinder → RateFinder) : (s.modRate f).notice = s.notice := rfl
@[simp] theorem modRate_mem (f : RateFinder → RateFinder) : (s.modRate f).mem = s.mem := rfl

@[simp] theorem setPhase_rate (k : LineIx) (p : Phase) :
    (s.setPhase k p).rate = { s.rate with phase := upd s.rate.phase k fun _ => p } := rfl
@[simp] theorem setPhase_pending (k : LineIx) (p : Phase) : (s.setPhase k p).pending = s.pending := rfl
@[simp] theorem setPhase_now (k : LineIx) (p : Phase) : (s.setPhase k p).now = s.now := rfl
@[simp] theorem setPhase_port (k : LineIx) (p : Phase) : (s.setPhase k p).port = s.port := rfl
@[simp] theorem setPhase_control (k : LineIx) (p : Phase) : (s.setPhase k p).control = s.control := rfl
@[simp] theorem setPhase_counters (k : LineIx) (p : Phase) : (s.setPhase k p).counters = s.counters := rfl
@[simp] theorem setPhase_front (k : LineIx) (p : Phase) : (s.setPhase k p).front = s.front := rfl
@[simp] theorem setPhase_pool (k : LineIx) (p : Phase) : (s.setPhase k p).pool = s.pool := rfl
@[simp] theorem setPhase_engine (k : LineIx) (p : Phase) : (s.setPhase k p).engine = s.engine := rfl
@[simp] theorem setPhase_input (k : LineIx) (p : Phase) : (s.setPhase k p).input = s.input := rfl
@[simp] theorem setPhase_notice (k : LineIx) (p : Phase) : (s.setPhase k p).notice = s.notice := rfl
@[simp] theorem setPhase_mem (k : LineIx) (p : Phase) : (s.setPhase k p).mem = s.mem := rfl


@[simp] theorem store_pending (g : Regions → Region) (a : Nat) (bs : List Byte) : (s.store g a bs).pending = s.pending := by
  unfold State.store; split <;> rfl
@[simp] theorem store_now (g : Regions → Region) (a : Nat) (bs : List Byte) : (s.store g a bs).now = s.now := by
  unfold State.store; split <;> rfl
@[simp] theorem store_port (g : Regions → Region) (a : Nat) (bs : List Byte) : (s.store g a bs).port = s.port := by
  unfold State.store; split <;> rfl
@[simp] theorem store_control (g : Regions → Region) (a : Nat) (bs : List Byte) : (s.store g a bs).control = s.control := by
  unfold State.store; split <;> rfl
@[simp] theorem store_counters (g : Regions → Region) (a : Nat) (bs : List Byte) : (s.store g a bs).counters = s.counters := by
  unfold State.store; split <;> rfl
@[simp] theorem store_front (g : Regions → Region) (a : Nat) (bs : List Byte) : (s.store g a bs).front = s.front := by
  unfold State.store; split <;> rfl
@[simp] theorem store_rate (g : Regions → Region) (a : Nat) (bs : List Byte) : (s.store g a bs).rate = s.rate := by
  unfold State.store; split <;> rfl
@[simp] theorem store_pool (g : Regions → Region) (a : Nat) (bs : List Byte) : (s.store g a bs).pool = s.pool := by
  unfold State.store; split <;> rfl
@[simp] theorem store_engine (g : Regions → Region) (a : Nat) (bs : List Byte) : (s.store g a bs).engine = s.engine := by
  unfold State.store; split <;> rfl
@[simp] theorem store_input (g : Regions → Region) (a : Nat) (bs : List Byte) : (s.store g a bs).input = s.input := by
  unfold State.store; split <;> rfl
@[simp] theorem store_notice (g : Regions → Region) (a : Nat) (bs : List Byte) : (s.store g a bs).notice = s.notice := by
  unfold State.store; split <;> rfl

end

/-! ## Accessors under updates -/

section
variable (s : State) (j : LineIx)

@[simp] theorem modCtl_ctl_self (k : LineIx) (f : Control → Control) : (s.modCtl k f).ctl k = f (s.ctl k) := by
  simp [State.ctl]
@[simp] theorem modCtl_ctl_ne (k : LineIx) (f : Control → Control) (h : j ≠ k) : (s.modCtl k f).ctl j = s.ctl j := by
  have : j.val ≠ k.val := fun e => h (Fin.ext e)
  simp [State.ctl, this]
@[simp] theorem modCtl_cnt (k : LineIx) (f : Control → Control) : (s.modCtl k f).cnt j = s.cnt j := rfl
@[simp] theorem modCtl_fe (k : LineIx) (f : Control → Control) : (s.modCtl k f).fe j = s.fe j := rfl
@[simp] theorem modCtl_cap (k : LineIx) (f : Control → Control) : (s.modCtl k f).cap j = s.cap j := rfl
@[simp] theorem modCtl_mat (k : LineIx) (f : Control → Control) : (s.modCtl k f).mat j = s.mat j := rfl
@[simp] theorem modCtl_inp (k : LineIx) (f : Control → Control) : (s.modCtl k f).inp j = s.inp j := rfl

@[simp] theorem modCnt_ctl (k : LineIx) (f : Counters → Counters) : (s.modCnt k f).ctl j = s.ctl j := rfl
@[simp] theorem modCnt_cnt_self (k : LineIx) (f : Counters → Counters) : (s.modCnt k f).cnt k = f (s.cnt k) := by
  simp [State.cnt]
@[simp] theorem modCnt_cnt_ne (k : LineIx) (f : Counters → Counters) (h : j ≠ k) : (s.modCnt k f).cnt j = s.cnt j := by
  have : j.val ≠ k.val := fun e => h (Fin.ext e)
  simp [State.cnt, this]
@[simp] theorem modCnt_fe (k : LineIx) (f : Counters → Counters) : (s.modCnt k f).fe j = s.fe j := rfl
@[simp] theorem modCnt_cap (k : LineIx) (f : Counters → Counters) : (s.modCnt k f).cap j = s.cap j := rfl
@[simp] theorem modCnt_mat (k : LineIx) (f : Counters → Counters) : (s.modCnt k f).mat j = s.mat j := rfl
@[simp] theorem modCnt_inp (k : LineIx) (f : Counters → Counters) : (s.modCnt k f).inp j = s.inp j := rfl

@[simp] theorem modFe_ctl (k : LineIx) (f : FrontEnd → FrontEnd) : (s.modFe k f).ctl j = s.ctl j := rfl
@[simp] theorem modFe_cnt (k : LineIx) (f : FrontEnd → FrontEnd) : (s.modFe k f).cnt j = s.cnt j := rfl
@[simp] theorem modFe_fe_self (k : LineIx) (f : FrontEnd → FrontEnd) : (s.modFe k f).fe k = f (s.fe k) := by
  simp [State.fe]
@[simp] theorem modFe_fe_ne (k : LineIx) (f : FrontEnd → FrontEnd) (h : j ≠ k) : (s.modFe k f).fe j = s.fe j := by
  have : j.val ≠ k.val := fun e => h (Fin.ext e)
  simp [State.fe, this]
@[simp] theorem modFe_cap (k : LineIx) (f : FrontEnd → FrontEnd) : (s.modFe k f).cap j = s.cap j := rfl
@[simp] theorem modFe_mat (k : LineIx) (f : FrontEnd → FrontEnd) : (s.modFe k f).mat j = s.mat j := rfl
@[simp] theorem modFe_inp (k : LineIx) (f : FrontEnd → FrontEnd) : (s.modFe k f).inp j = s.inp j := rfl

@[simp] theorem modCap_ctl (k : LineIx) (f : Capture → Capture) : (s.modCap k f).ctl j = s.ctl j := rfl
@[simp] theorem modCap_cnt (k : LineIx) (f : Capture → Capture) : (s.modCap k f).cnt j = s.cnt j := rfl
@[simp] theorem modCap_fe (k : LineIx) (f : Capture → Capture) : (s.modCap k f).fe j = s.fe j := rfl
@[simp] theorem modCap_cap_self (k : LineIx) (f : Capture → Capture) : (s.modCap k f).cap k = f (s.cap k) := by
  simp [State.cap]
@[simp] theorem modCap_cap_ne (k : LineIx) (f : Capture → Capture) (h : j ≠ k) : (s.modCap k f).cap j = s.cap j := by
  have : j.val ≠ k.val := fun e => h (Fin.ext e)
  simp [State.cap, this]
@[simp] theorem modCap_mat (k : LineIx) (f : Capture → Capture) : (s.modCap k f).mat j = s.mat j := rfl
@[simp] theorem modCap_inp (k : LineIx) (f : Capture → Capture) : (s.modCap k f).inp j = s.inp j := rfl

@[simp] theorem modMat_ctl (k : LineIx) (f : MatchLine → MatchLine) : (s.modMat k f).ctl j = s.ctl j := rfl
@[simp] theorem modMat_cnt (k : LineIx) (f : MatchLine → MatchLine) : (s.modMat k f).cnt j = s.cnt j := rfl
@[simp] theorem modMat_fe (k : LineIx) (f : MatchLine → MatchLine) : (s.modMat k f).fe j = s.fe j := rfl
@[simp] theorem modMat_cap (k : LineIx) (f : MatchLine → MatchLine) : (s.modMat k f).cap j = s.cap j := rfl
@[simp] theorem modMat_mat_self (k : LineIx) (f : MatchLine → MatchLine) : (s.modMat k f).mat k = f (s.mat k) := by
  simp [State.mat]
@[simp] theorem modMat_mat_ne (k : LineIx) (f : MatchLine → MatchLine) (h : j ≠ k) : (s.modMat k f).mat j = s.mat j := by
  have : j.val ≠ k.val := fun e => h (Fin.ext e)
  simp [State.mat, this]
@[simp] theorem modMat_inp (k : LineIx) (f : MatchLine → MatchLine) : (s.modMat k f).inp j = s.inp j := rfl

@[simp] theorem modInp_ctl (k : LineIx) (f : InputLine → InputLine) : (s.modInp k f).ctl j = s.ctl j := rfl
@[simp] theorem modInp_cnt (k : LineIx) (f : InputLine → InputLine) : (s.modInp k f).cnt j = s.cnt j := rfl
@[simp] theorem modInp_fe (k : LineIx) (f : InputLine → InputLine) : (s.modInp k f).fe j = s.fe j := rfl
@[simp] theorem modInp_cap (k : LineIx) (f : InputLine → InputLine) : (s.modInp k f).cap j = s.cap j := rfl
@[simp] theorem modInp_mat (k : LineIx) (f : InputLine → InputLine) : (s.modInp k f).mat j = s.mat j := rfl
@[simp] theorem modInp_inp_self (k : LineIx) (f : InputLine → InputLine) : (s.modInp k f).inp k = f (s.inp k) := by
  simp [State.inp]
@[simp] theorem modInp_inp_ne (k : LineIx) (f : InputLine → InputLine) (h : j ≠ k) : (s.modInp k f).inp j = s.inp j := by
  have : j.val ≠ k.val := fun e => h (Fin.ext e)
  simp [State.inp, this]

@[simp] theorem modPort_ctl (f : EnginePort → EnginePort) : (s.modPort f).ctl j = s.ctl j := rfl
@[simp] theorem modPort_cnt (f : EnginePort → EnginePort) : (s.modPort f).cnt j = s.cnt j := rfl
@[simp] theorem modPort_fe (f : EnginePort → EnginePort) : (s.modPort f).fe j = s.fe j := rfl
@[simp] theorem modPort_cap (f : EnginePort → EnginePort) : (s.modPort f).cap j = s.cap j := rfl
@[simp] theorem modPort_mat (f : EnginePort → EnginePort) : (s.modPort f).mat j = s.mat j := rfl
@[simp] theorem modPort_inp (f : EnginePort → EnginePort) : (s.modPort f).inp j = s.inp j := rfl

@[simp] theorem modNotice_ctl (f : NoticeUnit → NoticeUnit) : (s.modNotice f).ctl j = s.ctl j := rfl
@[simp] theorem modNotice_cnt (f : NoticeUnit → NoticeUnit) : (s.modNotice f).cnt j = s.cnt j := rfl
@[simp] theorem modNotice_fe (f : NoticeUnit → NoticeUnit) : (s.modNotice f).fe j = s.fe j := rfl
@[simp] theorem modNotice_cap (f : NoticeUnit → NoticeUnit) : (s.modNotice f).cap j = s.cap j := rfl
@[simp] theorem modNotice_mat (f : NoticeUnit → NoticeUnit) : (s.modNotice f).mat j = s.mat j := rfl
@[simp] theorem modNotice_inp (f : NoticeUnit → NoticeUnit) : (s.modNotice f).inp j = s.inp j := rfl

@[simp] theorem modRate_ctl (f : RateFinder → RateFinder) : (s.modRate f).ctl j = s.ctl j := rfl
@[simp] theorem modRate_cnt (f : RateFinder → RateFinder) : (s.modRate f).cnt j = s.cnt j := rfl
@[simp] theorem modRate_fe (f : RateFinder → RateFinder) : (s.modRate f).fe j = s.fe j := rfl
@[simp] theorem modRate_cap (f : RateFinder → RateFinder) : (s.modRate f).cap j = s.cap j := rfl
@[simp] theorem modRate_mat (f : RateFinder → RateFinder) : (s.modRate f).mat j = s.mat j := rfl
@[simp] theorem modRate_inp (f : RateFinder → RateFinder) : (s.modRate f).inp j = s.inp j := rfl

@[simp] theorem setPhase_ctl (k : LineIx) (p : Phase) : (s.setPhase k p).ctl j = s.ctl j := rfl
@[simp] theorem store_ctl (g : Regions → Region) (b : Nat) (bs : List Byte) : (s.store g b bs).ctl j = s.ctl j := by
  unfold State.store; split <;> rfl
@[simp] theorem setPhase_cnt (k : LineIx) (p : Phase) : (s.setPhase k p).cnt j = s.cnt j := rfl
@[simp] theorem store_cnt (g : Regions → Region) (b : Nat) (bs : List Byte) : (s.store g b bs).cnt j = s.cnt j := by
  unfold State.store; split <;> rfl
@[simp] theorem setPhase_fe (k : LineIx) (p : Phase) : (s.setPhase k p).fe j = s.fe j := rfl
@[simp] theorem store_fe (g : Regions → Region) (b : Nat) (bs : List Byte) : (s.store g b bs).fe j = s.fe j := by
  unfold State.store; split <;> rfl
@[simp] theorem setPhase_cap (k : LineIx) (p : Phase) : (s.setPhase k p).cap j = s.cap j := rfl
@[simp] theorem store_cap (g : Regions → Region) (b : Nat) (bs : List Byte) : (s.store g b bs).cap j = s.cap j := by
  unfold State.store; split <;> rfl
@[simp] theorem setPhase_mat (k : LineIx) (p : Phase) : (s.setPhase k p).mat j = s.mat j := rfl
@[simp] theorem store_mat (g : Regions → Region) (b : Nat) (bs : List Byte) : (s.store g b bs).mat j = s.mat j := by
  unfold State.store; split <;> rfl
@[simp] theorem setPhase_inp (k : LineIx) (p : Phase) : (s.setPhase k p).inp j = s.inp j := rfl
@[simp] theorem store_inp (g : Regions → Region) (b : Nat) (bs : List Byte) : (s.store g b bs).inp j = s.inp j := by
  unfold State.store; split <;> rfl

end

@[simp] theorem ifThen_true (f : State → State) (s : State) : s.ifThen true f = f s := rfl
@[simp] theorem ifThen_false (f : State → State) (s : State) : s.ifThen false f = s := rfl

end Machine

end Sys2Proof
end

