-- ==== Sys2Proof/Laws/Frames.lean ====
section
/-! SUPPORT. What recording can change. `Recorded s t` says that the step from `s` to `t` is work of the Capture Store, the
Pin Unit and the Notice Unit alone: line states and settings, front ends, the Rate Finder, matching, inputs, the Engine
Port, TIME and the queue stay. One lemma for each of their operations. -/

namespace Sys2Proof.Machine

/-- Only counters, the pool, notices and the shared region may differ. -/
structure Recorded (s t : State) : Prop where
  pending : t.pending = s.pending
  now : t.now = s.now
  port : t.port = s.port
  control : t.control = s.control
  front : t.front = s.front
  rate : t.rate = s.rate
  engine : t.engine = s.engine
  input : t.input = s.input

theorem Recorded.refl (s : State) : Recorded s s := ⟨rfl, rfl, rfl, rfl, rfl, rfl, rfl, rfl⟩

theorem Recorded.trans {s t u : State} (h : Recorded s t) (g : Recorded t u) : Recorded s u :=
  ⟨g.pending.trans h.pending, g.now.trans h.now, g.port.trans h.port, g.control.trans h.control, g.front.trans h.front,
    g.rate.trans h.rate, g.engine.trans h.engine, g.input.trans h.input⟩

theorem Recorded.ctl {s t : State} (h : Recorded s t) (k : LineIx) : t.ctl k = s.ctl k := by simp [State.ctl, h.control]
theorem Recorded.cfg {s t : State} (h : Recorded s t) (k : LineIx) : t.cfg k = s.cfg k := by simp [State.cfg, h.ctl]
theorem Recorded.fe {s t : State} (h : Recorded s t) (k : LineIx) : t.fe k = s.fe k := by simp [State.fe, h.front]
theorem Recorded.mat {s t : State} (h : Recorded s t) (k : LineIx) : t.mat k = s.mat k := by simp [State.mat, h.engine]
theorem Recorded.inp {s t : State} (h : Recorded s t) (k : LineIx) : t.inp k = s.inp k := by simp [State.inp, h.input]
theorem Recorded.phaseOf {s t : State} (h : Recorded s t) (k : LineIx) : t.phaseOf k = s.phaseOf k := by
  simp [State.phaseOf, h.rate]
theorem Recorded.time {s t : State} (h : Recorded s t) : t.time = s.time := by simp [State.time, h.now]

theorem Recorded.ifThen {s : State} {c : Bool} {f : State → State} (h : Recorded s (f s)) : Recorded s (s.ifThen c f) := by
  cases c
  · exact Recorded.refl s
  · exact h

theorem Recorded.foldl {α : Type} (f : State → α → State) (h : ∀ s a, Recorded s (f s a)) (l : List α) (s : State) :
    Recorded s (l.foldl f s) := by
  induction l generalizing s with
  | nil => exact Recorded.refl s
  | cons a l ih => exact (h s a).trans (ih _)

section
variable (k : LineIx) (s : State)

theorem modCap_recorded (f : Capture → Capture) : Recorded s (s.modCap k f) := ⟨rfl, rfl, rfl, rfl, rfl, rfl, rfl, rfl⟩
theorem modCnt_recorded (f : Counters → Counters) : Recorded s (s.modCnt k f) := ⟨rfl, rfl, rfl, rfl, rfl, rfl, rfl, rfl⟩
theorem modNotice_recorded (f : NoticeUnit → NoticeUnit) : Recorded s (s.modNotice f) :=
  ⟨rfl, rfl, rfl, rfl, rfl, rfl, rfl, rfl⟩

theorem store_recorded (g : Regions → Region) (a : Nat) (bs : List Byte) : Recorded s (s.store g a bs) := by
  unfold State.store
  split <;> exact ⟨rfl, rfl, rfl, rfl, rfl, rfl, rfl, rfl⟩

/-! ## Notices -/

theorem raiseAttention_recorded : Recorded s (raiseAttention s) := by
  unfold raiseAttention
  split
  · exact modNotice_recorded s _
  · exact Recorded.refl s

theorem appendNotice_recorded (n : Notice) : Recorded s (appendNotice n s) :=
  ((store_recorded s _ _ _).trans (modNotice_recorded _ _)).trans (raiseAttention_recorded _)

theorem post_recorded (n : Notice) : Recorded s (post n s) := by
  unfold post
  split
  · exact appendNotice_recorded s n
  · exact modNotice_recorded s _

theorem tell_recorded (kind : NoticeKind) (args : List Byte) : Recorded s (tell k kind args s) := post_recorded s _

theorem deliverSummary_recorded (i : EntryIx) : Recorded s (deliverSummary s i) := by
  unfold deliverSummary
  split
  · exact (appendNotice_recorded s _).trans (modNotice_recorded _ _)
  · exact Recorded.refl s

theorem deliverSummaries_recorded : Recorded s (deliverSummaries s) :=
  Recorded.foldl _ (fun s i => deliverSummary_recorded s i) _ s

theorem postData_recorded : Recorded s (postData k s) := (tell_recorded k s _ _).trans (modNotice_recorded _ _)

theorem noteRecord_recorded : Recorded s (noteRecord k s) := by
  unfold noteRecord
  refine (modNotice_recorded s fun u => { u with data := upd u.data k fun d => { d with count := satAdd d.count 1 } }).trans ?_
  dsimp only
  split
  · exact Recorded.refl _
  · split
    · exact postData_recorded k _
    · split
      · exact postData_recorded k _
      · exact modNotice_recorded _ _

theorem dataTimerTick_recorded : Recorded s (dataTimerTick k s) := by
  unfold dataTimerTick
  split
  · exact Recorded.refl s
  · split
    · exact postData_recorded k s
    · exact Recorded.refl s

theorem dataIntervalChanged_recorded : Recorded s (dataIntervalChanged k s) := by
  unfold dataIntervalChanged
  split
  · exact modNotice_recorded s _
  · exact dataTimerTick_recorded k s

/-! ## Pins -/

theorem removePin_recorded (p : Pin) : Recorded s (removePin k p s) := modCap_recorded k s _

theorem dropPin_recorded (p : Pin) (r : DropReason) : Recorded s (dropPin k p r s) :=
  (removePin_recorded k s p).trans (tell_recorded k _ _ _)

theorem settlePin_recorded (p : Pin) : Recorded s (settlePin k p s) := by
  unfold settlePin
  dsimp only
  split
  · exact modCap_recorded k s _
  · exact (modCap_recorded k s _).trans (tell_recorded k _ _ _)

theorem makeRoom_recorded (q : Word32) (id fuel : Nat) : Recorded s (makeRoom k q id fuel s) := by
  induction fuel generalizing s with
  | zero => exact Recorded.refl s
  | succ n ih =>
    unfold makeRoom
    split
    · exact Recorded.refl s
    · split
      · exact Recorded.refl s
      · exact (dropPin_recorded k s _ _).trans (ih _)

theorem extendPin_recorded (q : Word32) (id : Nat) : Recorded s (extendPin k q s id) := by
  unfold extendPin
  split
  · exact Recorded.refl s
  · split
    · dsimp only
      refine (makeRoom_recorded k s q id (s.cap k).pins.length).trans ?_
      split <;> exact settlePin_recorded k _ _
    · exact Recorded.refl s

theorem extendPins_recorded (q : Word32) : Recorded s (extendPins k q s) :=
  Recorded.foldl _ (fun s id => extendPin_recorded k s q id) _ s

theorem dropOver_recorded (limit : Nat) (r : DropReason) (fuel : Nat) : Recorded s (dropOver k limit r fuel s) := by
  induction fuel generalizing s with
  | zero => exact Recorded.refl s
  | succ n ih =>
    unfold dropOver
    split
    · split
      · exact Recorded.refl s
      · exact (dropPin_recorded k s _ _).trans (ih _)
    · exact Recorded.refl s

theorem dropAllPins_recorded (r : DropReason) : Recorded s (dropAllPins k r s) :=
  Recorded.foldl (fun t p => dropPin k p r t) (fun s p => dropPin_recorded k s p r) _ s

/-! ## Blocks -/

theorem writeHeader_recorded (i o n v : Nat) : Recorded s (writeHeader i o n v s) :=
  (store_recorded s _ _ _).trans (store_recorded _ _ _ _)

theorem unlink_recorded (i : Nat) : Recorded s (unlink k i s) := by
  unfold unlink
  exact ((Recorded.ifThen (writeHeader_recorded s _ _ _ _)).trans (Recorded.ifThen (writeHeader_recorded _ _ _ _ _))).trans
    (modCap_recorded k _ _)

theorem returnBlock_recorded (i : Nat) : Recorded s (returnBlock k s i) := by
  have h := (unlink_recorded k s i).trans (writeHeader_recorded (unlink k i s) i 0x04 1 0)
  exact ⟨h.pending, h.now, h.port, h.control, h.front, h.rate, h.engine, h.input⟩

theorem sealFilling_recorded : Recorded s (sealFilling k s) := by
  unfold sealFilling
  split
  · exact Recorded.refl s
  · exact (writeHeader_recorded s _ _ _ _).trans (modCap_recorded k _ _)

theorem joinBlock_recorded (i : Nat) : Recorded s (joinBlock k i s) := by
  unfold joinBlock
  exact (((store_recorded s _ _ _).trans (Recorded.ifThen (writeHeader_recorded _ _ _ _ _))).trans
    (modCap_recorded k _ _)).trans (extendPins_recorded k _ _)

theorem reclaimBlock_recorded : Recorded s (reclaimBlock k s) := by
  unfold reclaimBlock
  split
  · exact Recorded.refl s
  · exact ((unlink_recorded k s _).trans (modCnt_recorded k _ _)).trans (joinBlock_recorded k _ _)

theorem chooseAhead_recorded : Recorded s (chooseAhead k s) := by
  unfold chooseAhead
  generalize s.pool.plan.ahead s.pool.takes.length k = l
  induction l generalizing s with
  | nil => exact Recorded.refl s
  | cons t l ih => exact Recorded.trans (t := choose s t) ⟨rfl, rfl, rfl, rfl, rfl, rfl, rfl, rfl⟩ (ih _)

theorem noteTake_recorded : Recorded s (noteTake k s) := ⟨rfl, rfl, rfl, rfl, rfl, rfl, rfl, rfl⟩

theorem takeBlock_recorded : Recorded s (takeBlock k s) := by
  unfold takeBlock
  refine (((sealFilling_recorded k s).trans (chooseAhead_recorded k _)).trans (noteTake_recorded k _)).trans ?_
  dsimp only
  generalize State.grant _ k = g
  generalize noteTake k _ = u
  cases g with
  | none => exact reclaimBlock_recorded k _
  | some index =>
    exact Recorded.trans (t := { u with pool := { u.pool with free := u.pool.free.erase index } })
      ⟨rfl, rfl, rfl, rfl, rfl, rfl, rfl, rfl⟩ (joinBlock_recorded k _ _)

/-! ## Records -/

theorem placeRecord_recorded (number : Word32) (r : Record) : Recorded s (placeRecord k number r s) := by
  unfold placeRecord
  split
  · exact Recorded.refl s
  · refine Recorded.trans ?_ (modCap_recorded k _ _)
    refine Recorded.trans ?_ (Recorded.ifThen (Recorded.trans (writeHeader_recorded _ _ _ _ _) (writeHeader_recorded _ _ _ _ _)))
    refine Recorded.trans ?_ (writeHeader_recorded _ _ _ _ _)
    refine Recorded.trans ?_ (writeHeader_recorded _ _ _ _ _)
    exact (store_recorded s _ _ _).trans (writeHeader_recorded _ _ _ _ _)

theorem putRecord_recorded (r : Record) : Recorded s (putRecord k r s) := by
  unfold putRecord
  exact ((((Recorded.ifThen (takeBlock_recorded k s)).trans (placeRecord_recorded k _ _ _)).trans
    (modCap_recorded k _ _)).trans (modCnt_recorded k _ _)).trans (noteRecord_recorded k _)

theorem closeOpen_recorded (c : CloseCause) : Recorded s (closeOpen k c s) := by
  unfold closeOpen
  split
  · exact Recorded.refl s
  · exact (modCap_recorded k s _).trans (putRecord_recorded k _ _)

theorem record_recorded (r : Record) : Recorded s (record k r s) :=
  (closeOpen_recorded k s _).trans (putRecord_recorded k _ _)

theorem appendChar_recorded (b : Byte) (marks time : Nat) : Recorded s (appendChar k b marks time s) :=
  modCap_recorded k s _

/-! ## Returning blocks, making pins -/

theorem clearCapture_recorded (drop : Bool) : Recorded s (clearCapture k drop s).1 := by
  unfold clearCapture
  exact ((closeOpen_recorded k s _).trans (Recorded.ifThen (dropAllPins_recorded k _ _))).trans
    (Recorded.foldl (returnBlock k) (fun s i => returnBlock_recorded k s i) _ _)

theorem shrinkTo_recorded (max fuel : Nat) : Recorded s (shrinkTo k max fuel s) := by
  induction fuel generalizing s with
  | zero => exact Recorded.refl s
  | succ n ih =>
    unfold shrinkTo
    split
    · split
      · exact Recorded.refl s
      · exact (returnBlock_recorded k s _).trans (ih _)
    · exact Recorded.refl s

theorem quotaChange_recorded (n : Settings) : Recorded s (quotaChange k n s) :=
  (Recorded.ifThen (dropOver_recorded k s _ _ _)).trans (shrinkTo_recorded k _ _ _)

theorem fitBudget_recorded (p : Pin) (fuel : Nat) : Recorded s (fitBudget k p fuel s) := by
  induction fuel generalizing s with
  | zero => exact Recorded.refl s
  | succ n ih =>
    unfold fitBudget
    split
    · exact Recorded.refl s
    · split
      · exact (dropPin_recorded k s _ _).trans (ih _)
      · exact Recorded.refl s

theorem dropOverflow_recorded : Recorded s (dropOverflow k s) := by
  unfold dropOverflow
  split
  · split
    · exact dropPin_recorded k s _ _
    · exact Recorded.refl s
  · exact Recorded.refl s

theorem placePin_recorded (p : Pin) : Recorded s (placePin k p s) :=
  ((dropOverflow_recorded k s).trans (fitBudget_recorded k _ _ _)).trans (modCap_recorded k _ _)

theorem createPin_recorded (pattern before after : Nat) (c : Console) :
    Recorded s (createPin k pattern before after c s) := by
  unfold createPin
  dsimp only
  have h := (modCap_recorded k s fun c => { c with nextPinId := nextId (s.pinId k) }).trans
    (record_recorded k _ (markRecord pattern c (s.pinId k) s.time))
  split
  · exact h.trans (placePin_recorded k _ _)
  · exact h

theorem markCompletion_recorded (i : Fin 32) (p : Pattern) : Recorded s (markCompletion k i p s).1 := by
  unfold markCompletion
  dsimp only
  split
  · exact createPin_recorded k s _ _ _ _
  · split
    · exact record_recorded k s _
    · exact Recorded.refl s

/-! ## What Line Control and the Input Path record -/

theorem reportBreak_recorded (c : StartEdge) (ended : Nat) (cut : Bool) : Recorded s (reportBreak k c ended cut s) :=
  (record_recorded k s _).trans (tell_recorded k _ _ _)

theorem writeLine_recorded (state : LineState) (cause : LineCause) : Recorded s (writeLine k state cause s) :=
  record_recorded k s _

theorem tellLine_recorded (kind : NoticeKind) (state : LineState) (cause : LineCause) :
    Recorded s (tellLine k kind state cause s) := tell_recorded k s _ _

theorem tellLocked_recorded (outcome : Nat) : Recorded s (tellLocked k outcome s) := tell_recorded k s _ _

theorem tellNoisy_recorded (on : Bool) (errors : Nat) : Recorded s (tellNoisy k on errors s) := tell_recorded k s _ _

theorem tellSignal_recorded (signal : Nat) (e : EdgeSelect) (b a : Bool) (r : Readings) :
    Recorded s (tellSignal k signal e b a r s) := Recorded.ifThen (tell_recorded k s _ _)

theorem sampleSignals_recorded (r : Readings) : Recorded s (sampleSignals k r s) := by
  unfold sampleSignals
  refine Recorded.ifThen ?_
  exact (tellSignal_recorded k s _ _ _ _ _).trans (tellSignal_recorded k _ _ _ _ _ _)

theorem endKeys_recorded (e : InFlight) (c : Option CutReason) : Recorded s (endKeys k e c s) :=
  Recorded.ifThen (record_recorded k s _)

theorem tellCut_recorded (e : InFlight) (r : CutReason) : Recorded s (tellCut k e r s) := tell_recorded k s _ _

theorem refuseHead_recorded (r : RingEntry) (reason : RefuseReason) :
    Recorded (consumeHead k s) (refuseHead k r reason s) :=
  (modCnt_recorded k _ _).trans (tell_recorded k _ _ _)

end

end Sys2Proof.Machine
end

