-- ==== Sys2Proof/Laws/Mem.lean ====
section
/-! SUPPORT. The laws of the shared region: a write keeps the canonical form, is read back where it was made, and
leaves every other byte alone. -/

namespace Sys2Proof.Machine

theorem Mem.cells_range (a : Nat) (bs : List Byte) (c : Host.Cell) (h : c ∈ Mem.cells a bs) :
    a ≤ c.1 ∧ c.1 < a + bs.length ∧ c.2 ≠ 0 ∧ c.1 < regionBytes := by
  induction bs generalizing a with
  | nil => simp [Mem.cells] at h
  | cons b bs ih =>
    simp only [Mem.cells] at h
    split at h
    · obtain ⟨h1, h2, h3, h4⟩ := ih (a + 1) h
      exact ⟨by omega, by simp; omega, h3, h4⟩
    · rename_i hb
      rcases List.mem_cons.mp h with rfl | h
      · exact ⟨Nat.le_refl _, by simp, fun e => hb (.inl e), by
          have : ¬ regionBytes ≤ a := fun e => hb (.inr e)
          simp; omega⟩
      · obtain ⟨h1, h2, h3, h4⟩ := ih (a + 1) h
        exact ⟨by omega, by simp; omega, h3, h4⟩

theorem Mem.cells_sorted (a : Nat) (bs : List Byte) : (Mem.cells a bs).Pairwise fun c d => c.1 < d.1 := by
  induction bs generalizing a with
  | nil => simp [Mem.cells]
  | cons b bs ih =>
    simp only [Mem.cells]
    split
    · exact ih (a + 1)
    · refine List.pairwise_cons.mpr ⟨fun d hd => ?_, ih (a + 1)⟩
      have := (Mem.cells_range (a + 1) bs d hd).1
      simp; omega

/-- A write keeps the canonical form. -/
theorem Mem.write_wf (m : Mem) (a : Nat) (bs : List Byte) (h : m.wf) : (m.write a bs).wf := by
  constructor
  · unfold Mem.write
    rw [List.append_assoc, List.pairwise_append]
    refine ⟨h.1.filter _, List.pairwise_append.mpr ⟨Mem.cells_sorted a bs, h.1.filter _, ?_⟩, ?_⟩
    · intro c hc d hd
      have hd := (List.mem_filter.mp hd).2
      have hc := Mem.cells_range a bs c hc
      simp at hd; omega
    · intro c hc d hd
      have hc := (List.mem_filter.mp hc).2
      simp at hc
      rcases List.mem_append.mp hd with hd | hd
      · have := Mem.cells_range a bs d hd; omega
      · have := (List.mem_filter.mp hd).2; simp at this; omega
  · intro c hc
    unfold Mem.write at hc
    rcases List.mem_append.mp hc with hc | hc
    · rcases List.mem_append.mp hc with hc | hc
      · exact h.2 c (List.mem_filter.mp hc).1
      · exact (Mem.cells_range a bs c hc).2.2
    · exact h.2 c (List.mem_filter.mp hc).1

/-- Host writes keep the canonical form. -/
theorem Mem.hostWrites_wf (m : Mem) (ws : List (BitVec 25 × Byte)) (h : m.wf) : (m.hostWrites ws).wf := by
  induction ws generalizing m with
  | nil => exact h
  | cons w ws ih => exact ih _ (Mem.write_wf m _ _ h)

theorem Mem.find_filter (m : Mem) (p : Nat → Bool) (x : Nat) (h : p x = true) :
    (m.filter fun c => p c.1).find? (fun c => c.1 == x) = m.find? fun c => c.1 == x := by
  induction m with
  | nil => rfl
  | cons c m ih =>
    by_cases hc : c.1 = x
    · subst hc; simp [h]
    · by_cases hp : p c.1 = true
      · simp [hp, hc, ih]
      · simp [hp, hc, ih]

theorem Mem.find_filter_none (m : Mem) (p : Nat → Bool) (x : Nat) (h : p x = false) :
    (m.filter fun c => p c.1).find? (fun c => c.1 == x) = none := by
  simp only [List.find?_eq_none, List.mem_filter, beq_iff_eq]
  rintro c ⟨-, hc⟩ rfl
  simp [h] at hc

theorem Mem.find_cells_none (a : Nat) (bs : List Byte) (x : Nat) (h : x < a ∨ a + bs.length ≤ x) :
    (Mem.cells a bs).find? (fun c => c.1 == x) = none := by
  simp only [List.find?_eq_none, beq_iff_eq]
  rintro c hc rfl
  have := Mem.cells_range a bs c hc
  omega

/-- A write leaves every byte outside it alone. -/
theorem Mem.read_write_outside (m : Mem) (a : Nat) (bs : List Byte) (x : Nat) (h : x < a ∨ a + bs.length ≤ x) :
    (m.write a bs).read x = m.read x := by
  unfold Mem.read Mem.write
  rw [List.find?_append, List.find?_append, Mem.find_cells_none a bs x h]
  rcases h with h | h
  · rw [Mem.find_filter m (fun y => decide (y < a)) x (by simpa using h),
      Mem.find_filter_none m (fun y => decide (a + bs.length ≤ y)) x (by simp; omega)]
    simp
  · rw [Mem.find_filter_none m (fun y => decide (y < a)) x (by simp; omega),
      Mem.find_filter m (fun y => decide (a + bs.length ≤ y)) x (by simpa using h)]
    simp

theorem Mem.find_cells (a : Nat) (bs : List Byte) (i : Nat) (hi : i < bs.length) (hr : a + i < regionBytes) :
    (Mem.cells a bs).find? (fun c => c.1 == a + i) = if bs[i] = 0 then none else some (a + i, bs[i]) := by
  induction bs generalizing a i with
  | nil => simp at hi
  | cons b bs ih =>
    rcases i with _ | i
    · simp only [Mem.cells, Nat.add_zero, List.getElem_cons_zero]
      by_cases hb : b = 0
      · simp only [hb, true_or, if_true]
        exact Mem.find_cells_none (a + 1) bs a (.inl (by omega))
      · have : ¬ regionBytes ≤ a := by omega
        have hb' : ¬ b = 0#8 := hb
        simp [hb', this]
    · have hr' : a + 1 + i < regionBytes := by omega
      have := ih (a + 1) i (by simpa using hi) hr'
      have e : a + (i + 1) = a + 1 + i := by omega
      simp only [Mem.cells, List.getElem_cons_succ, e]
      split
      · exact this
      · rw [List.find?_cons]
        have : (a == a + 1 + i) = false := by simp; omega
        simp only [this]
        assumption

/-- A written byte is read back. -/
theorem Mem.read_write_inside (m : Mem) (a : Nat) (bs : List Byte) (i : Nat) (hi : i < bs.length)
    (hr : a + i < regionBytes) : (m.write a bs).read (a + i) = bs[i] := by
  unfold Mem.read Mem.write
  rw [List.find?_append, List.find?_append, Mem.find_cells a bs i hi hr,
    Mem.find_filter_none m (fun y => decide (y < a)) (a + i) (by simp),
    Mem.find_filter_none m (fun y => decide (a + bs.length ≤ y)) (a + i) (by simp; omega)]
  by_cases hb : bs[i] = 0#8 <;> simp [hb]

/-- A store into a region keeps the canonical form. -/
theorem store_wf (s : State) (g : Regions → Region) (a : Nat) (bs : List Byte) (h : s.mem.wf) :
    (s.store g a bs).mem.wf := by
  unfold State.store
  split
  · exact h
  · exact Mem.write_wf _ _ _ h

end Sys2Proof.Machine
end

