-- ==== Sys2Proof/Laws/Lines.lean ====
section
/-! SUPPORT. What the work of one line can do. `Apart k s t` says that a step from `s` to `t` touches no other line, not
the queue, the time or the Engine Port, and keeps the shared region canonical; `Lawful k s t` adds that it keeps the
laws of Safety. Both are closed under composition. -/

namespace Sys2Proof.Machine

/-- Work of line `k`: the other lines, the queue, the time and the Engine Port stay, and so does the ring's capacity and
consume count; the shared region stays canonical. -/
structure Apart (k : LineIx) (s t : State) : Prop extends SameElsewhere k s t where
  pending : t.pending = s.pending
  now : t.now = s.now
  port : t.port = s.port
  capacity : t.notice.capacity = s.notice.capacity
  consumed : t.notice.consume = s.notice.consume
  wf : s.mem.wf → t.mem.wf

theorem SameElsewhere.refl (k : LineIx) (s : State) : SameElsewhere k s s :=
  ⟨fun _ _ => rfl, fun _ _ => rfl, fun _ _ => rfl, fun _ _ => rfl, fun _ _ => rfl, fun _ _ => rfl, fun _ _ => rfl,
    fun _ _ => rfl, rfl, rfl, rfl⟩

theorem SameElsewhere.trans {k : LineIx} {s t u : State} (h : SameElsewhere k s t) (g : SameElsewhere k t u) :
    SameElsewhere k s u :=
  ⟨fun j n => (g.control j n).trans (h.control j n), fun j n => (g.counters j n).trans (h.counters j n),
    fun j n => (g.front j n).trans (h.front j n), fun j n => (g.capture j n).trans (h.capture j n),
    fun j n => (g.matching j n).trans (h.matching j n), fun j n => (g.input j n).trans (h.input j n),
    fun j n => (g.data j n).trans (h.data j n), fun j n => (g.summaries j n).trans (h.summaries j n),
    g.table.trans h.table, g.loads.trans h.loads, g.blocks.trans h.blocks⟩

theorem Apart.refl (k : LineIx) (s : State) : Apart k s s := ⟨SameElsewhere.refl k s, rfl, rfl, rfl, rfl, rfl, id⟩

theorem Apart.trans {k : LineIx} {s t u : State} (h : Apart k s t) (g : Apart k t u) : Apart k s u :=
  ⟨h.toSameElsewhere.trans g.toSameElsewhere, g.pending.trans h.pending, g.now.trans h.now, g.port.trans h.port,
    g.capacity.trans h.capacity, g.consumed.trans h.consumed, fun w => g.wf (h.wf w)⟩

/-- Work of line `k` that keeps the laws of Safety but for those of the pool. -/
structure Steady (k : LineIx) (s t : State) : Prop extends Apart k s t where
  decodingKept : s.decodingLaw k → t.decodingLaw k
  grantKept : s.grantLaw → t.grantLaw

theorem Steady.trans {k : LineIx} {s t u : State} (h : Steady k s t) (g : Steady k t u) : Steady k s u :=
  ⟨h.toApart.trans g.toApart, fun w => g.decodingKept (h.decodingKept w), fun w => g.grantKept (h.grantKept w)⟩

/-- Stores only into the part's own areas of the shared region. -/
structure Within (s t : State) : Prop where
  regions : t.port.regions = s.port.regions
  capacity : t.notice.capacity = s.notice.capacity
  blocks : t.pool.blocks = s.pool.blocks
  reads : ∀ a, ¬ s.partArea a → t.mem.read a = s.mem.read a

theorem partArea_congr {s t : State} (p : t.port.regions = s.port.regions) (c : t.notice.capacity = s.notice.capacity)
    (b : t.pool.blocks = s.pool.blocks) (a : Nat) : t.partArea a ↔ s.partArea a := by
  simp [State.partArea, State.statusArea, State.ringArea, State.poolArea, p, c, b]

theorem Within.refl (s : State) : Within s s := ⟨rfl, rfl, rfl, fun _ _ => rfl⟩

theorem Within.trans {s t u : State} (h : Within s t) (g : Within t u) : Within s u :=
  ⟨g.regions.trans h.regions, g.capacity.trans h.capacity, g.blocks.trans h.blocks, fun a n =>
    (g.reads a fun x => n ((partArea_congr h.regions h.capacity h.blocks a).mp x)).trans (h.reads a n)⟩

/-- Work of line `k` that keeps the laws of Safety. -/
structure Lawful (k : LineIx) (s t : State) : Prop extends Steady k s t where
  poolKept : s.poolLaw → t.poolLaw
  fillingKept : s.fillingLaw k → t.fillingLaw k
  sizeKept : s.sizeLaw k → t.sizeLaw k
  within : s.poolLaw → s.sizeLaw k → Within s t

theorem Lawful.refl (k : LineIx) (s : State) : Lawful k s s := ⟨⟨Apart.refl k s, id, id⟩, id, id, id, fun _ _ => Within.refl s⟩

theorem Lawful.trans {k : LineIx} {s t u : State} (h : Lawful k s t) (g : Lawful k t u) : Lawful k s u :=
  ⟨h.toSteady.trans g.toSteady, fun w => g.poolKept (h.poolKept w), fun w => g.fillingKept (h.fillingKept w),
    fun w => g.sizeKept (h.sizeKept w), fun p z => (h.within p z).trans (g.within (h.poolKept p) (h.sizeKept z))⟩

/-- A conditional step. -/
theorem Lawful.ifThen {k : LineIx} {s : State} {c : Bool} {f : State → State} (h : c = true → Lawful k s (f s)) :
    Lawful k s (s.ifThen c f) := by
  cases c
  · exact Lawful.refl k s
  · exact h rfl

/-! ## The pool law under a change of one chain -/

/-- The indices held by the lines other than `k`. -/
def heldByOthers (s : State) (k : LineIx) : List Nat := ((List.finRange 48).erase k).flatMap (chainIndices s)

theorem heldIndices_perm (s : State) (k : LineIx) : (heldIndices s).Perm (chainIndices s k ++ heldByOthers s k) := by
  have h : (List.finRange 48).Perm (k :: (List.finRange 48).erase k) := List.perm_cons_erase (List.mem_finRange k)
  exact (h.flatMap_right (chainIndices s))

theorem heldByOthers_congr {k : LineIx} {s t : State} (h : ∀ j, j ≠ k → t.cap j = s.cap j) :
    heldByOthers t k = heldByOthers s k := by
  unfold heldByOthers
  refine List.flatMap_congr fun j hj => ?_
  have : j ≠ k := fun e => by
    subst e
    exact (List.Nodup.not_mem_erase (List.nodup_finRange 48)) hj
  simp [chainIndices, h j this]

/-- A change of the free list and of one line's chain keeps the pool law when together they hold the same indices. -/
theorem poolLaw_of_perm {k : LineIx} {s t : State} (others : ∀ j, j ≠ k → t.cap j = s.cap j)
    (blocks : t.pool.blocks = s.pool.blocks)
    (p : (t.pool.free ++ chainIndices t k).Perm (s.pool.free ++ chainIndices s k)) (h : s.poolLaw) : t.poolLaw := by
  have e := heldByOthers_congr others
  unfold State.poolLaw at *
  rw [blocks]
  refine List.Perm.trans ?_ h
  refine ((List.Perm.refl _).append (heldIndices_perm t k)).trans ?_
  refine List.Perm.trans ?_ ((List.Perm.refl _).append (heldIndices_perm s k).symm)
  rw [e, ← List.append_assoc, ← List.append_assoc]
  exact p.append (List.Perm.refl _)

/-- The indices of a chain are block numbers (R80). -/
theorem chain_index {s : State} {k : LineIx} (h : s.poolLaw) {b : Block} (m : b ∈ (s.cap k).chain) :
    1 ≤ b.index ∧ b.index ≤ s.pool.blocks := by
  have i : b.index ∈ s.pool.free ++ heldIndices s := by
    refine List.mem_append_right _ ((heldIndices_perm s k).mem_iff.mpr (List.mem_append_left _ ?_))
    exact List.mem_map_of_mem m
  have := (h.mem_iff.mp i)
  simp [List.mem_range'_1] at this
  omega

theorem free_index {s : State} (h : s.poolLaw) {i : Nat} (m : i ∈ s.pool.free) : 1 ≤ i ∧ i ≤ s.pool.blocks := by
  have := (h.mem_iff.mp (List.mem_append_left _ m))
  simp [List.mem_range'_1] at this
  omega

/-! ## Single updates -/

section
variable (k : LineIx) (s : State)

/-- Stores that lie in the part's own areas. -/
theorem Within.ofStore (g : Regions → Region) (o : Nat) (bs : List Byte)
    (h : ∀ r, s.port.regions = some r → ∀ x, (g r).base + o ≤ x → x < (g r).base + o + bs.length → s.partArea x) :
    Within s (s.store g o bs) := by
  unfold State.store
  split
  · exact Within.refl s
  · rename_i r e
    refine ⟨rfl, rfl, rfl, fun a n => Mem.read_write_outside _ _ _ _ ?_⟩
    by_contra c
    exact n (h r e a (by omega) (by omega))

/-- Apart from the laws, a state that differs from another only at line `k`. -/
theorem Lawful.ofCtl (f : Control → Control) (h : (f (s.ctl k)).state = (s.ctl k).state) : Lawful k s (s.modCtl k f) :=
  ⟨⟨⟨⟨fun j n => by simp [n], fun _ _ => rfl, fun _ _ => rfl, fun _ _ => rfl, fun _ _ => rfl, fun _ _ => rfl,
    fun _ _ => rfl, fun _ _ => rfl, rfl, rfl, rfl⟩, rfl, rfl, rfl, rfl, rfl, id⟩, by simp [State.decodingLaw, h], id⟩,
    id, id, id, fun _ _ => ⟨rfl, rfl, rfl, fun _ _ => rfl⟩⟩

theorem Lawful.ofCnt (f : Counters → Counters) : Lawful k s (s.modCnt k f) :=
  ⟨⟨⟨⟨fun _ _ => rfl, fun j n => by simp [n], fun _ _ => rfl, fun _ _ => rfl, fun _ _ => rfl, fun _ _ => rfl,
    fun _ _ => rfl, fun _ _ => rfl, rfl, rfl, rfl⟩, rfl, rfl, rfl, rfl, rfl, id⟩, id, id⟩,
    id, id, id, fun _ _ => ⟨rfl, rfl, rfl, fun _ _ => rfl⟩⟩

theorem Lawful.ofFe (f : FrontEnd → FrontEnd)
    (h : s.decodingLaw k → ((f (s.fe k)).receiver = .stopped ↔ (s.fe k).receiver = .stopped)) :
    Lawful k s (s.modFe k f) :=
  ⟨⟨⟨⟨fun _ _ => rfl, fun _ _ => rfl, fun j n => by simp [n], fun _ _ => rfl, fun _ _ => rfl, fun _ _ => rfl,
    fun _ _ => rfl, fun _ _ => rfl, rfl, rfl, rfl⟩, rfl, rfl, rfl, rfl, rfl, id⟩,
    fun d => ⟨d.1, by simpa using (h d).trans d.2⟩, id⟩,
    id, id, id, fun _ _ => ⟨rfl, rfl, rfl, fun _ _ => rfl⟩⟩

theorem Lawful.ofMat (f : MatchLine → MatchLine) : Lawful k s (s.modMat k f) :=
  ⟨⟨⟨⟨fun _ _ => rfl, fun _ _ => rfl, fun _ _ => rfl, fun _ _ => rfl, fun j n => by simp [n], fun _ _ => rfl,
    fun _ _ => rfl, fun _ _ => rfl, rfl, rfl, rfl⟩, rfl, rfl, rfl, rfl, rfl, id⟩, id, id⟩,
    id, id, id, fun _ _ => ⟨rfl, rfl, rfl, fun _ _ => rfl⟩⟩

/-- A change of a line's input that keeps NOT_LIVE and puts no entry of more than 56 keys in flight. -/
theorem Lawful.ofInp (f : InputLine → InputLine) (h : (f (s.inp k)).gate.notLive = (s.inp k).gate.notLive)
    (z : (∀ e, (s.inp k).entry = some e → e.keys.length ≤ 56) →
      ∀ e, (f (s.inp k)).entry = some e → e.keys.length ≤ 56) :
    Lawful k s (s.modInp k f) :=
  ⟨⟨⟨⟨fun _ _ => rfl, fun _ _ => rfl, fun _ _ => rfl, fun _ _ => rfl, fun _ _ => rfl, fun j n => by simp [n],
    fun _ _ => rfl, fun _ _ => rfl, rfl, rfl, rfl⟩, rfl, rfl, rfl, rfl, rfl, id⟩, by simp [State.decodingLaw, h], id⟩,
    id, id, fun w => ⟨w.1, by simpa using z w.2.1, w.2.2⟩, fun _ _ => ⟨rfl, rfl, rfl, fun _ _ => rfl⟩⟩

theorem Steady.ofCap (f : Capture → Capture) : Steady k s (s.modCap k f) :=
  ⟨⟨⟨fun _ _ => rfl, fun _ _ => rfl, fun _ _ => rfl, fun j n => by simp [n], fun _ _ => rfl, fun _ _ => rfl,
    fun _ _ => rfl, fun _ _ => rfl, rfl, rfl, rfl⟩, rfl, rfl, rfl, rfl, rfl, id⟩, id, id⟩

/-- A change of a line's capture that keeps its indices in order. -/
theorem Lawful.ofCap (f : Capture → Capture)
    (h : (f (s.cap k)).chain.map Block.index = (s.cap k).chain.map Block.index)
    (g : s.fillingLaw k → (s.modCap k f).fillingLaw k) (z : s.sizeLaw k → (s.modCap k f).sizeLaw k) :
    Lawful k s (s.modCap k f) :=
  ⟨Steady.ofCap k s f, poolLaw_of_perm (k := k) (fun j n => by simp [n]) rfl (by simp [chainIndices, h]), g, z,
    fun _ _ => ⟨rfl, rfl, rfl, fun _ _ => rfl⟩⟩

/-- A change of a line's capture that keeps its chain. -/
theorem Lawful.ofCapChain (f : Capture → Capture) (h : (f (s.cap k)).chain = (s.cap k).chain)
    (z : (∀ o, (s.cap k).openRecord = some o → o.bytes.length < 240) →
      ∀ o, (f (s.cap k)).openRecord = some o → o.bytes.length < 240) :
    Lawful k s (s.modCap k f) :=
  Lawful.ofCap k s f (by rw [h]) (by simp [State.fillingLaw, h]) fun w =>
    ⟨by simpa using z w.1, w.2.1, by simpa [h] using w.2.2⟩

/-- A change of the Notice Unit at the line's own entry. -/
theorem Lawful.ofNotice (f : NoticeUnit → NoticeUnit) (hc : (f s.notice).capacity = s.notice.capacity)
    (hn : (f s.notice).consume = s.notice.consume)
    (hd : ∀ j : LineIx, j ≠ k → (f s.notice).data[j] = s.notice.data[j])
    (hs : ∀ j : LineIx, j ≠ k → (f s.notice).summaries[entryOf j] = s.notice.summaries[entryOf j]) :
    Lawful k s (s.modNotice f) :=
  ⟨⟨⟨⟨fun _ _ => rfl, fun _ _ => rfl, fun _ _ => rfl, fun _ _ => rfl, fun _ _ => rfl, fun _ _ => rfl, hd, hs, rfl, rfl,
    rfl⟩, rfl, rfl, rfl, hc, hn, id⟩, id, id⟩, id, id, id, fun _ _ => ⟨rfl, hc, rfl, fun _ _ => rfl⟩⟩

/-- A change of the Rate Finder that keeps the grant law. -/
theorem Lawful.ofRate (f : RateFinder → RateFinder) (h : s.grantLaw → (s.modRate f).grantLaw) :
    Lawful k s (s.modRate f) :=
  ⟨⟨⟨⟨fun _ _ => rfl, fun _ _ => rfl, fun _ _ => rfl, fun _ _ => rfl, fun _ _ => rfl, fun _ _ => rfl, fun _ _ => rfl,
    fun _ _ => rfl, rfl, rfl, rfl⟩, rfl, rfl, rfl, rfl, rfl, id⟩, id, h⟩, id, id, id,
    fun _ _ => ⟨rfl, rfl, rfl, fun _ _ => rfl⟩⟩

/-- A state that differs in the Rate Finder only. -/
theorem Lawful.ofRateEq {t : State} (e : t = { s with rate := t.rate }) (h : s.grantLaw → t.grantLaw) : Lawful k s t := by
  rw [e]
  exact Lawful.ofRate k s (fun _ => t.rate) fun g => by have := h g; rw [e] at this; exact this

/-- A store into a region in force, when it lies in the part's own areas. -/
theorem Lawful.ofStore (g : Regions → Region) (a : Nat) (bs : List Byte)
    (h : s.poolLaw → s.sizeLaw k → Within s (s.store g a bs)) : Lawful k s (s.store g a bs) := by
  have e : s.store g a bs = { s with mem := (s.store g a bs).mem } := by unfold State.store; split <;> rfl
  have w := store_wf s g a bs
  rw [e] at w h ⊢
  exact ⟨⟨⟨⟨fun _ _ => rfl, fun _ _ => rfl, fun _ _ => rfl, fun _ _ => rfl, fun _ _ => rfl, fun _ _ => rfl, fun _ _ => rfl,
    fun _ _ => rfl, rfl, rfl, rfl⟩, rfl, rfl, rfl, rfl, rfl, w⟩, id, id⟩, id, id, id, h⟩

end

/-! ## Notices -/

section
variable (k : LineIx) (s : State)

theorem raiseAttention_lawful : Lawful k s (raiseAttention s) := by
  unfold raiseAttention
  split
  · exact Lawful.ofNotice k s _ rfl rfl (fun _ _ => rfl) (fun _ _ => rfl)
  · exact Lawful.refl k s

theorem leBytes_length (n v : Nat) : (leBytes n v).length = n := by
  induction n generalizing v with
  | zero => rfl
  | succ n ih => simp [leBytes, ih]

/-- The arguments of a notice fit its record. -/
theorem noticeBytes_length (p : Word32) (n : Notice) (h : n.args.length ≤ 16) : (noticeBytes p n).length = 32 := by
  simp [noticeBytes, leBytes_length, padTo]
  omega

/-- A notice appended while there is room is stored in a slot of the ring. -/
theorem notice_within (n : Notice) (h : n.args.length ≤ 16) (r : 0 < s.room) :
    Within s (s.store Regions.ring (s.notice.produce.toNat % s.notice.capacity.getD 1 * 32)
      (noticeBytes s.notice.produce n)) := by
  refine Within.ofStore s _ _ _ fun g e x lo hi => Or.inr (Or.inl ?_)
  unfold State.room at r
  split at r
  · simp at r
  · rename_i c hc
    have m := Nat.mod_lt s.notice.produce.toNat (show 0 < c by omega)
    rw [noticeBytes_length _ _ h] at hi
    rw [hc] at lo hi
    simp only [Option.getD_some] at lo hi
    exact ⟨g, c, e, hc, by omega, by omega⟩

/-- Appending changes the ring's bytes, the produce count and attention only. -/
theorem appendNotice_lawful (n : Notice) (h : n.args.length ≤ 16) (r : 0 < s.room) : Lawful k s (appendNotice n s) :=
  ((Lawful.ofStore k s _ _ _ fun _ _ => notice_within s n h r).trans
    (Lawful.ofNotice k _ _ rfl rfl (fun _ _ => rfl) (fun _ _ => rfl))).trans (raiseAttention_lawful k _)

theorem entryOf_ne {j k : LineIx} (h : j ≠ k) : (entryOf j).val ≠ (entryOf k).val := fun e => h (Fin.ext (by
  simp [entryOf] at e; exact e))

/-- A notice of a line is appended or folded into that line's summary. -/
theorem tell_lawful (kind : NoticeKind) (args : List Byte) (h : args.length ≤ 16 := by simp [leBytes_length]) :
    Lawful k s (tell k kind args s) := by
  unfold tell post
  split
  · exact appendNotice_lawful k s _ h (by assumption)
  · refine Lawful.ofNotice k s _ rfl rfl (fun _ _ => rfl) fun j n => ?_
    have := entryOf_ne n
    simp [this]

theorem noticeData_lawful (f : DataTimer → DataTimer) :
    Lawful k s (s.modNotice fun u => { u with data := upd u.data k f }) := by
  refine Lawful.ofNotice k s _ rfl rfl (fun j n => ?_) fun _ _ => rfl
  have : j.val ≠ k.val := fun e => n (Fin.ext e)
  simp [this]

/-- A DATA notice of a line, with its timer started again. -/
theorem postData_lawful : Lawful k s (postData k s) :=
  (tell_lawful k s _ _).trans (noticeData_lawful k _ _)

/-- The Notice Unit hears of a record of the line. -/
theorem noteRecord_lawful : Lawful k s (noteRecord k s) := by
  unfold noteRecord
  refine (noticeData_lawful k s fun d => { d with count := satAdd d.count 1 }).trans ?_
  dsimp only
  split
  · exact Lawful.refl k _
  · split
    · exact postData_lawful k _
    · split
      · exact postData_lawful k _
      · exact noticeData_lawful k _ _

theorem dataTimerTick_lawful : Lawful k s (dataTimerTick k s) := by
  unfold dataTimerTick
  split
  · exact Lawful.refl k s
  · split
    · exact postData_lawful k s
    · exact Lawful.refl k s

theorem dataIntervalChanged_lawful : Lawful k s (dataIntervalChanged k s) := by
  unfold dataIntervalChanged
  split
  · exact noticeData_lawful k s _
  · exact dataTimerTick_lawful k s

end

end Sys2Proof.Machine
end

