-- ==== Sys2Proof/Laws/Store.lean ====
section
/-! SUPPORT. What the Pin Unit and the Capture Store can do for a line: every operation is the line's own work and keeps
the laws of every tick. -/

namespace Sys2Proof.Machine

section
variable (k : LineIx) (s : State)

/-! ## Pins -/

theorem removePin_lawful (p : Pin) : Lawful k s (removePin k p s) := Lawful.ofCapChain k s _ rfl id

theorem dropPin_lawful (p : Pin) (r : DropReason) : Lawful k s (dropPin k p r s) :=
  (removePin_lawful k s p).trans (tell_lawful k _ _ _ (by simp [pinArgs, leBytes_length]))

theorem settlePin_lawful (p : Pin) : Lawful k s (settlePin k p s) := by
  have h : Lawful k s (replacePin k p s) := Lawful.ofCapChain k s _ rfl id
  unfold settlePin
  dsimp only
  split
  · exact h
  · exact h.trans (tell_lawful k _ _ _ (by simp [pinArgs, leBytes_length]))

theorem makeRoom_lawful (q : Word32) (id fuel : Nat) : Lawful k s (makeRoom k q id fuel s) := by
  induction fuel generalizing s with
  | zero => exact Lawful.refl k s
  | succ n ih =>
    unfold makeRoom
    split
    · exact Lawful.refl k s
    · split
      · exact Lawful.refl k s
      · exact (dropPin_lawful k s _ _).trans (ih _)

theorem extendPin_lawful (q : Word32) (id : Nat) : Lawful k s (extendPin k q s id) := by
  unfold extendPin
  split
  · exact Lawful.refl k s
  · split
    · dsimp only
      refine (makeRoom_lawful k s q id (s.cap k).pins.length).trans ?_
      split
      · exact settlePin_lawful k _ _
      · exact settlePin_lawful k _ _
    · exact Lawful.refl k s

end

theorem foldl_lawful {α : Type} (k : LineIx) (f : State → α → State) (h : ∀ s a, Lawful k s (f s a)) (l : List α)
    (s : State) : Lawful k s (l.foldl f s) := by
  induction l generalizing s with
  | nil => exact Lawful.refl k s
  | cons a l ih => exact (h s a).trans (ih _)

section
variable (k : LineIx) (s : State)

/-- Extending pins is the line's own work; chains stay. -/
theorem extendPins_lawful (q : Word32) : Lawful k s (extendPins k q s) :=
  foldl_lawful k _ (fun s id => extendPin_lawful k s q id) _ s

theorem dropOver_lawful (limit : Nat) (r : DropReason) (fuel : Nat) : Lawful k s (dropOver k limit r fuel s) := by
  induction fuel generalizing s with
  | zero => exact Lawful.refl k s
  | succ n ih =>
    unfold dropOver
    split
    · split
      · exact Lawful.refl k s
      · exact (dropPin_lawful k s _ _).trans (ih _)
    · exact Lawful.refl k s

theorem dropAllPins_lawful (r : DropReason) : Lawful k s (dropAllPins k r s) :=
  foldl_lawful k (fun t p => dropPin k p r t) (fun s p => dropPin_lawful k s p r) _ s

/-! ## Blocks -/

/-- A block of the pool in force (R79). -/
def State.isBlock (s : State) (i : Nat) : Prop := 1 ≤ i ∧ i ≤ s.pool.blocks

/-- A store into a block stays in the pool. -/
theorem block_within (i o : Nat) (bs : List Byte) (hi : s.isBlock i) (h : o + bs.length ≤ 2048) :
    Within s (s.store Regions.pool (blockOffset i + o) bs) := by
  refine Within.ofStore s _ _ _ fun r e x lo hi' => Or.inr (Or.inr ⟨r, e, by omega, ?_⟩)
  unfold blockOffset at lo hi'
  obtain ⟨h1, h2⟩ := hi
  have : (i - 1) * 2048 + 2048 ≤ s.pool.blocks * 2048 := by omega
  omega

theorem writeHeader_within (i o n v : Nat) (hi : s.isBlock i) (h : o + n ≤ 32 := by decide) :
    Within s (writeHeader i o n v s) := by
  have second (u : State) (hu : u.isBlock i) : Within u (u.store Regions.pool (blockOffset i + 0x1E) (leBytes 2 0)) :=
    block_within u i 0x1E _ hu (by decide)
  refine Within.trans (block_within s i o (leBytes n v) hi (by rw [leBytes_length]; omega)) (second _ ?_)
  simpa [State.isBlock] using hi

theorem store_lawful_steady (g : Regions → Region) (a : Nat) (bs : List Byte) : Steady k s (s.store g a bs) := by
  have e : s.store g a bs = { s with mem := (s.store g a bs).mem } := by unfold State.store; split <;> rfl
  have w := store_wf s g a bs
  rw [e] at w ⊢
  exact ⟨⟨⟨fun _ _ => rfl, fun _ _ => rfl, fun _ _ => rfl, fun _ _ => rfl, fun _ _ => rfl, fun _ _ => rfl, fun _ _ => rfl,
    fun _ _ => rfl, rfl, rfl, rfl⟩, rfl, rfl, rfl, rfl, rfl, w⟩, id, id⟩

theorem writeHeader_steady (i o n v : Nat) : Steady k s (writeHeader i o n v s) :=
  (store_lawful_steady k s _ _ _).trans (store_lawful_steady k _ _ _ _)

theorem writeHeader_lawful (i o n v : Nat) (hi : s.poolLaw → s.sizeLaw k → s.isBlock i) (h : o + n ≤ 32 := by decide) :
    Lawful k s (writeHeader i o n v s) := by
  have field : Lawful k s (s.store Regions.pool (blockOffset i + o) (leBytes n v)) :=
    Lawful.ofStore k s _ _ _ fun p z => block_within s i o _ (hi p z) (by rw [leBytes_length]; omega)
  refine field.trans (Lawful.ofStore k _ _ _ _ fun p z => block_within _ i 0x1E _ ?_ (by decide))
  have e : s.store Regions.pool (blockOffset i + o) (leBytes n v) =
      { s with mem := (s.store Regions.pool (blockOffset i + o) (leBytes n v)).mem } := by
    unfold State.store; split <;> rfl
  rw [e] at p z ⊢
  exact hi p z

theorem Steady.refl : Steady k s s := (Lawful.refl k s).toSteady

theorem Steady.ifThen {c : Bool} {f : State → State} (h : Steady k s (f s)) : Steady k s (s.ifThen c f) := by
  cases c
  · exact Steady.refl k s
  · exact h

theorem Within.ifThen {c : Bool} {f : State → State} (h : c = true → Within s (f s)) : Within s (s.ifThen c f) := by
  cases c
  · exact Within.refl s
  · exact h rfl

/-- The neighbours' links of a block that leaves its chain. -/
theorem links_steady (older newer : Nat) :
    Steady k s ((s.ifThen (older != 0) (writeHeader older 0x10 2 newer)).ifThen (newer != 0)
      (writeHeader newer 0x0E 2 older)) :=
  (Steady.ifThen k s (writeHeader_steady k s _ _ _ _)).trans (Steady.ifThen k _ (writeHeader_steady k _ _ _ _ _))

/-- Unlinking is the line's own work; the block leaves its chain. -/
theorem unlink_steady (i : Nat) : Steady k s (unlink k i s) :=
  (links_steady k s _ _).trans (Steady.ofCap k _ _)

@[simp] theorem ifThen_cap (c : Bool) (f : State → State) (j : LineIx) (h : (f s).cap j = s.cap j) :
    (s.ifThen c f).cap j = s.cap j := by
  cases c
  · rfl
  · exact h

@[simp] theorem ifThen_pool (c : Bool) (f : State → State) (h : (f s).pool = s.pool) : (s.ifThen c f).pool = s.pool := by
  cases c
  · rfl
  · exact h

@[simp] theorem writeHeader_pool (i o n v : Nat) : (writeHeader i o n v s).pool = s.pool := by simp [writeHeader]

theorem cap_of_pool {s t : State} (h : t.pool = s.pool) (j : LineIx) : t.cap j = s.cap j := by simp [State.cap, h]

theorem unlink_pool (i : Nat) : (unlink k i s).pool = { s.pool with
    lines := upd s.pool.lines k fun c => { c with chain := c.chain.filter fun b => b.index != i } } := by
  unfold unlink
  simp

theorem unlink_chain (i : Nat) :
    ((unlink k i s).cap k).chain = (s.cap k).chain.filter fun b => b.index != i := by
  simp [State.cap, unlink_pool]

theorem filling_filter (l : List Block) (p : Block → Bool) (h : ∀ b ∈ l.dropLast, b.filling = false) :
    ∀ b ∈ (l.filter p).dropLast, b.filling = false := by
  rcases List.eq_nil_or_concat l with rfl | ⟨xs, x, rfl⟩ <;> try rw [List.concat_eq_append] at *
  · simp
  · have h : ∀ b ∈ xs, b.filling = false := by simpa using h
    intro b hb
    have : b ∈ xs := by
      rw [List.filter_append] at hb
      by_cases hp : p x = true
      · simp [hp] at hb; exact hb.1
      · simp [hp] at hb
        exact (List.mem_filter.mp (List.dropLast_subset _ hb)).1
    exact h b this

theorem filter_ne_perm (l : List Block) (i : Nat) (h : i ∈ l.map Block.index) (n : (l.map Block.index).Nodup) :
    ((l.filter fun b => b.index != i).map Block.index ++ [i]).Perm (l.map Block.index) := by
  have e : (l.filter fun b => b.index != i).map Block.index = (l.map Block.index).filter fun x => x != i := by
    rw [List.filter_map]; rfl
  rw [e, ← List.Nodup.erase_eq_filter n i]
  exact (List.perm_append_comm).trans (List.perm_cons_erase h).symm

theorem chain_nodup (h : s.poolLaw) : (chainIndices s k).Nodup := by
  have n := h.nodup_iff.mpr (List.nodup_range' ..)
  have := (List.nodup_append.mp n).2.1
  have := ((heldIndices_perm s k).nodup_iff.mp this)
  exact (List.nodup_append.mp this).1

theorem older_mem (l : List Block) (i : Nat) : olderOf l i = 0 ∨ olderOf l i ∈ l.map Block.index := by
  induction l with
  | nil => exact Or.inl rfl
  | cons a l ih =>
    cases l with
    | nil => exact Or.inl rfl
    | cons b l =>
      unfold olderOf
      split
      · exact Or.inr (by simp)
      · rcases ih with h | h
        · exact Or.inl h
        · exact Or.inr (List.mem_cons_of_mem _ h)

theorem newer_mem (l : List Block) (i : Nat) : newerOf l i = 0 ∨ newerOf l i ∈ l.map Block.index := by
  induction l with
  | nil => exact Or.inl rfl
  | cons a l ih =>
    cases l with
    | nil => exact Or.inl rfl
    | cons b l =>
      unfold newerOf
      split
      · exact Or.inr (by simp)
      · rcases ih with h | h
        · exact Or.inl h
        · exact Or.inr (List.mem_cons_of_mem _ h)

theorem chain_isBlock (h : s.poolLaw) {i : Nat} (m : i ∈ (s.cap k).chain.map Block.index) : s.isBlock i := by
  obtain ⟨b, hb, rfl⟩ := List.mem_map.mp m
  exact chain_index h hb

/-- The links written when a block leaves its chain lie in blocks of the chain. -/
theorem unlink_within (i : Nat) (h : s.poolLaw) : Within s (unlink k i s) := by
  unfold unlink
  dsimp only
  have a : Within s (s.ifThen (olderOf (s.cap k).chain i != 0)
      (writeHeader (olderOf (s.cap k).chain i) 0x10 2 (newerOf (s.cap k).chain i))) :=
    Within.ifThen s fun c => writeHeader_within s _ _ _ _
      (chain_isBlock k s h ((older_mem _ _).resolve_left (by simpa using c)))
  generalize hu : s.ifThen (olderOf (s.cap k).chain i != 0) _ = u at a
  have b : Within u (u.ifThen (newerOf (s.cap k).chain i != 0)
      (writeHeader (newerOf (s.cap k).chain i) 0x0E 2 (olderOf (s.cap k).chain i))) :=
    Within.ifThen u fun c => writeHeader_within u _ _ _ _ (by
      have := chain_isBlock k s h ((newer_mem _ _).resolve_left (by simpa using c))
      simpa [State.isBlock, a.blocks] using this)
  have v := a.trans b
  exact ⟨v.regions, v.capacity, v.blocks, v.reads⟩

theorem returnBlock_steady (i : Nat) : Steady k s (returnBlock k s i) := by
  have h := (unlink_steady k s i).trans (writeHeader_steady k (unlink k i s) i 0x04 1 0)
  exact ⟨⟨⟨h.control, h.counters, h.front, h.capture, h.matching, h.input, h.data, h.summaries, h.table, h.loads,
    h.blocks⟩, h.pending, h.now, h.port, h.capacity, h.consumed, h.wf⟩, h.decodingKept, h.grantKept⟩

theorem returnBlock_chain (i : Nat) :
    ((returnBlock k s i).cap k).chain = (s.cap k).chain.filter fun b => b.index != i := by
  rw [← unlink_chain]; simp [returnBlock, State.cap]

theorem returnBlock_filling (i : Nat) (h : s.fillingLaw k) : (returnBlock k s i).fillingLaw k := by
  unfold State.fillingLaw at *
  rw [returnBlock_chain]
  exact filling_filter _ _ h

theorem returnBlock_size (i : Nat) (h : s.sizeLaw k) : (returnBlock k s i).sizeLaw k := by
  have o : ((returnBlock k s i).cap k).openRecord = (s.cap k).openRecord := by
    simp [returnBlock, State.cap, unlink_pool]
  have e : (returnBlock k s i).inp k = s.inp k := (returnBlock_recorded k s i).inp k
  refine ⟨by rw [o]; exact h.1, by rw [e]; exact h.2.1, fun b hb => ?_⟩
  rw [returnBlock_chain] at hb
  exact h.2.2 b (List.mem_filter.mp hb).1

/-- A block of the line's chain is returned to the tail of the free list. -/
theorem returnBlock_lawful (i : Nat) (hi : i ∈ chainIndices s k) : Lawful k s (returnBlock k s i) := by
  have a := returnBlock_steady k s i
  have free : (returnBlock k s i).pool.free = s.pool.free ++ [i] := by
    simp [returnBlock, unlink_pool]
  refine ⟨a, fun h => ?_, returnBlock_filling k s i, returnBlock_size k s i, fun h _ => ?_⟩
  · refine poolLaw_of_perm a.capture a.blocks ?_ h
    rw [free]
    have p := filter_ne_perm (s.cap k).chain i hi (chain_nodup k s h)
    simp only [chainIndices, returnBlock_chain]
    rw [List.append_assoc]
    exact (List.Perm.refl _).append ((List.perm_append_comm).trans p)
  · have w := unlink_within k s i h
    have := writeHeader_within (unlink k i s) i 0x04 1 0 (by
      have := chain_isBlock k s h hi
      simpa [State.isBlock, w.blocks] using this)
    have v := w.trans this
    exact ⟨v.regions, v.capacity, v.blocks, v.reads⟩

end

/-! ## Taking a block -/

/-- Every block of the line's chain is FILLED. -/
def AllFilled (k : LineIx) (s : State) : Prop := ∀ b ∈ (s.cap k).chain, b.filling = false

theorem filling_mem {l : List Block} {b : Block} (e : fillingOf l = some b) : b ∈ l := by
  unfold fillingOf at e
  split at e
  · rename_i c g
    split at e
    · simp at e; subst e; exact List.mem_of_getLast? g
    · simp at e
  · simp at e

theorem sealFilling_lawful (k : LineIx) (s : State) : Lawful k s (sealFilling k s) := by
  unfold sealFilling
  split
  · exact Lawful.refl k s
  · rename_i b e
    refine (writeHeader_lawful k s b.index 0x04 1 2 fun p _ => chain_index p (filling_mem e)).trans
      (Lawful.ofCap k _ _ ?_ ?_ ?_)
    · simp [List.map_map, Function.comp_def]
    · intro _ b hb
      have := List.dropLast_subset _ hb
      simp at this
      obtain ⟨a, -, rfl⟩ := this
      rfl
    · intro ⟨z1, z2, z3⟩
      refine ⟨by simpa using z1, by simpa using z2, fun b hb => ?_⟩
      simp at hb
      obtain ⟨a, ha, rfl⟩ := hb
      exact z3 a (by simpa using ha)

theorem sealFilling_all (k : LineIx) (s : State) (h : (sealFilling k s).fillingLaw k) :
    AllFilled k (sealFilling k s) := by
  unfold sealFilling at *
  split at h
  · rename_i e
    unfold fillingOf at e
    intro b hb
    rcases List.eq_nil_or_concat (s.cap k).chain with c | ⟨xs, x, c⟩
    · rw [c] at hb; simp at hb
    · rw [List.concat_eq_append] at c
      rw [c] at e hb
      simp at e
      unfold State.fillingLaw at h
      rw [c] at h
      rcases List.mem_append.mp hb with hb | hb
      · exact h b (by simpa using hb)
      · simp at hb; subst hb; exact e
  · intro b hb
    simp at hb
    obtain ⟨a, -, rfl⟩ := hb
    rfl

/-- A block joined to the newest end, before the OPEN pins are extended over it. -/
def joinBase (k : LineIx) (index : Nat) (s : State) : State :=
  let newest := match (s.cap k).chain.getLast? with | some b => b.index | none => 0
  (((s.store Regions.pool (blockOffset index)
      (leBytes 4 (s.cap k).nextSequence.toNat ++ [1, byteOf (lineNo k)] ++ leBytes 2 0 ++ leBytes 4 0 ++ leBytes 2 0 ++
        leBytes 2 newest ++ leBytes 2 0 ++ leBytes 6 0 ++ leBytes 6 0 ++ leBytes 2 0)).ifThen (newest != 0)
      (writeHeader newest 0x10 2 index)).modCap k
    fun c => { c with
      chain := c.chain ++ [⟨index, (s.cap k).nextSequence, true, 0, 0, 0, 0, 0⟩]
      nextSequence := c.nextSequence + 1 })

theorem joinBlock_eq (k : LineIx) (index : Nat) (s : State) :
    joinBlock k index s = extendPins k (s.cap k).nextSequence (joinBase k index s) := rfl

section
variable (k : LineIx) (s : State) (i : Nat)

theorem joinBase_steady : Steady k s (joinBase k i s) :=
  ((store_lawful_steady k s _ _ _).trans (Steady.ifThen k _ (writeHeader_steady k _ _ _ _ _))).trans
    (Steady.ofCap k _ _)

/-- The header of a joined block and the link to it are stored in blocks. -/
theorem joinBase_within (hi : s.isBlock i) (hc : ∀ b ∈ (s.cap k).chain, s.isBlock b.index) :
    Within s (joinBase k i s) := by
  unfold joinBase
  dsimp only
  have a := block_within s i 0 (leBytes 4 (s.cap k).nextSequence.toNat ++ [1, byteOf (lineNo k)] ++ leBytes 2 0 ++
    leBytes 4 0 ++ leBytes 2 0 ++ leBytes 2 (match (s.cap k).chain.getLast? with | some b => b.index | none => 0) ++
    leBytes 2 0 ++ leBytes 6 0 ++ leBytes 6 0 ++ leBytes 2 0) hi (by simp [leBytes_length])
  simp only [Nat.add_zero] at a
  generalize s.store Regions.pool (blockOffset i) _ = u at a
  have b : Within u (u.ifThen ((match (s.cap k).chain.getLast? with | some b => b.index | none => 0) != 0)
      (writeHeader (match (s.cap k).chain.getLast? with | some b => b.index | none => 0) 0x10 2 i)) := by
    refine Within.ifThen u fun c => writeHeader_within u _ _ _ _ ?_
    split at c
    · rename_i b e
      simpa [State.isBlock, a.blocks] using hc b (List.mem_of_getLast? e)
    · simp at c
  have v := a.trans b
  exact ⟨v.regions, v.capacity, v.blocks, v.reads⟩

theorem joinBase_chain : ((joinBase k i s).cap k).chain =
    (s.cap k).chain ++ [⟨i, (s.cap k).nextSequence, true, 0, 0, 0, 0, 0⟩] := by
  unfold joinBase
  simp [writeHeader]

theorem joinBase_recorded : Recorded s (joinBase k i s) := by
  unfold joinBase
  exact ((store_recorded s _ _ _).trans (Recorded.ifThen (writeHeader_recorded _ _ _ _ _))).trans (modCap_recorded k _ _)

theorem joinBase_size (h : s.sizeLaw k) : (joinBase k i s).sizeLaw k := by
  obtain ⟨z1, z2, z3⟩ := h
  refine ⟨?_, ?_, fun b hb => ?_⟩
  · unfold joinBase; simpa [writeHeader] using z1
  · rw [(joinBase_recorded k s i).inp k]; exact z2
  · rw [joinBase_chain] at hb
    rcases List.mem_append.mp hb with hb | hb
    · exact z3 b hb
    · simp at hb; subst hb; exact Nat.zero_le _

theorem joinBase_free : (joinBase k i s).pool.free = s.pool.free := by
  unfold joinBase
  simp

theorem joinBase_filling (h : AllFilled k s) : (joinBase k i s).fillingLaw k := by
  unfold State.fillingLaw
  rw [joinBase_chain, List.dropLast_concat]
  exact h

theorem victim_mem (h : s.victim k = some i) : i ∈ chainIndices s k := by
  unfold State.victim at h
  rw [Option.map_eq_some_iff] at h
  obtain ⟨b, hb, rfl⟩ := h
  exact List.mem_map_of_mem (List.mem_of_find?_eq_some hb)

/-- A reclaim moves one block of the line's own chain to its newest end. -/
theorem reclaimBlock_lawful (a : s.fillingLaw k → AllFilled k s) : Lawful k s (reclaimBlock k s) := by
  unfold reclaimBlock
  split
  · exact Lawful.refl k s
  · rename_i i hv
    rw [joinBlock_eq]
    refine Lawful.trans ?_ (extendPins_lawful k _ _)
    generalize hu : (unlink k i s).modCnt k (fun c => { c with blocksReclaimed := satAdd c.blocksReclaimed 1 }) = u
    have st : Steady k s u := hu ▸ (unlink_steady k s i).trans (Lawful.ofCnt k _ _).toSteady
    have chain : (u.cap k).chain = (s.cap k).chain.filter fun b => b.index != i := by
      rw [← unlink_chain, ← hu]; rfl
    have free : u.pool.free = s.pool.free := by rw [← hu]; simp [unlink_pool]
    have ap := st.trans (joinBase_steady k u i)
    have uw : s.poolLaw → Within s u := fun h => by
      rw [← hu]
      have v := unlink_within k s i h
      exact ⟨v.regions, v.capacity, v.blocks, v.reads⟩
    refine ⟨ap, fun h => ?_, fun h => ?_, fun h => ?_, fun h _ => ?_⟩
    · refine poolLaw_of_perm ap.capture ap.blocks ?_ h
      have p := filter_ne_perm (s.cap k).chain i (victim_mem k s i hv) (chain_nodup k s h)
      rw [joinBase_free, free]
      refine (List.Perm.refl _).append ?_
      simp only [chainIndices, joinBase_chain, chain, List.map_append, List.map_cons, List.map_nil]
      exact p
    · refine joinBase_filling k u i fun b hb => ?_
      rw [chain] at hb
      exact a h b (List.mem_filter.mp hb).1
    · refine joinBase_size k u i ?_
      have o : (u.cap k).openRecord = (s.cap k).openRecord := by
        rw [← hu]; simp [State.cap, unlink_pool]
      have e : u.inp k = s.inp k := hu ▸ ((unlink_recorded k s i).trans (modCnt_recorded k _ _)).inp k
      refine ⟨by rw [o]; exact h.1, by rw [e]; exact h.2.1, fun b hb => ?_⟩
      rw [chain] at hb
      exact h.2.2 b (List.mem_filter.mp hb).1
    · refine (uw h).trans (joinBase_within k u i ?_ fun b hb => ?_)
      · have := chain_isBlock k s h (victim_mem k s i hv)
        simpa [State.isBlock, (uw h).blocks] using this
      · rw [chain] at hb
        have := chain_index h (List.mem_filter.mp hb).1
        simpa [State.isBlock, (uw h).blocks] using this

/-- What is kept of the takes of a tick changes no law. -/
theorem planned_lawful (takes : List Take) (plan : Plan) :
    Lawful k s { s with pool := { s.pool with takes := takes, plan := plan } } :=
  ⟨⟨⟨⟨fun _ _ => rfl, fun _ _ => rfl, fun _ _ => rfl, fun _ _ => rfl, fun _ _ => rfl, fun _ _ => rfl, fun _ _ => rfl,
    fun _ _ => rfl, rfl, rfl, rfl⟩, rfl, rfl, rfl, rfl, rfl, id⟩, id, id⟩, id, id, id,
    fun _ _ => ⟨rfl, rfl, rfl, fun _ _ => rfl⟩⟩

/-- Choosing ahead changes nothing but what is kept of the choices. -/
theorem chooseAhead_eq : ∃ plan, chooseAhead k s = { s with pool := { s.pool with plan := plan } } := by
  unfold chooseAhead
  generalize s.pool.plan.ahead s.pool.takes.length k = l
  induction l generalizing s with
  | nil => exact ⟨s.pool.plan, rfl⟩
  | cons t l ih =>
    obtain ⟨plan, e⟩ := ih (choose s t)
    exact ⟨plan, e⟩

section
variable (h : s.pool.plan = Plan.none)
include h

/-- But for a tick that is run again, no line chooses ahead. -/
theorem chooseAhead_none : chooseAhead k s = s := by
  have : s.pool.plan.ahead s.pool.takes.length k = [] := by simp [h, Plan.none, Plan.ahead]
  simp [chooseAhead, this]

theorem freeLeft_none : s.freeLeft = s.pool.free := by simp [State.freeLeft, h, Plan.none]

theorem lengthOf_none : s.lengthOf k = (s.cap k).chain.length := by simp [State.lengthOf, h, Plan.none]

theorem freeHead_none : s.freeHead = s.pool.free.head? := by
  unfold State.freeHead
  rw [freeLeft_none s h]
  cases s.pool.free <;> rfl

/-- The table of R88. -/
theorem grant_none : s.grant k =
    if (s.cap k).chain.length < (s.cfg k).quotaMin ∨
        (s.cap k).chain.length < (s.cfg k).quotaMax ∧ s.unmetOthers k < s.pool.free.length then s.pool.free.head?
    else none := by
  have l : s.pool.plan.chosen.lookup k = none := by simp [h, Plan.none]
  unfold State.grant
  rw [l]
  simp only [State.choice, State.atMax, State.hasSpare, freeLeft_none s h, freeHead_none s h, lengthOf_none k s h]
  by_cases a : (s.cap k).chain.length < (s.cfg k).quotaMin
  · simp [a]
  · by_cases b : (s.cap k).chain.length < (s.cfg k).quotaMax
    · simp [a, b, Nat.le_of_not_lt a]
    · simp [a, b, Nat.le_of_not_lt a, Nat.le_of_not_lt b]

end

/-- A take from the free list is one of a block that stands there. -/
theorem grant_mem {i : Nat} (h : s.grant k = some i) : i ∈ s.pool.free := by
  have left {j : Nat} (m : s.freeLeft.head? = some j) : j ∈ s.pool.free := (List.mem_filter.mp (List.mem_of_head? m)).1
  have head {j : Nat} (m : s.freeHead = some j) : j ∈ s.pool.free :=
    (List.mem_append.mp (List.mem_of_head? m)).elim (fun m => (List.mem_filter.mp m).1) id
  unfold State.grant at h
  split at h
  · unfold State.choice at h
    split at h
    · simp at h
    · split at h
      · exact head h
      · split at h
        · exact left h
        · simp at h
  · dsimp only at h
    have block {c : Option Nat} {j : Nat} (m : c.filter (fun index => s.pool.free.contains index) = some j) :
        j ∈ s.pool.free := by
      simpa using (Option.filter_eq_some_iff.mp m).2
    split at h
    · simp at h
    · split at h
      · rcases Option.or_eq_some_iff.mp h with h | ⟨-, h⟩
        · exact block h
        · exact head h
      · exact block h

/-- Taking a block is the line's own work and keeps the laws of Safety (R80, R82). -/
theorem takeBlock_lawful : Lawful k s (takeBlock k s) := by
  unfold takeBlock
  dsimp only
  obtain ⟨plan, e⟩ := chooseAhead_eq k (sealFilling k s)
  have mem := fun i => grant_mem k (chooseAhead k (sealFilling k s)) (i := i)
  generalize (chooseAhead k (sealFilling k s)).grant k = g at mem
  rw [e] at mem ⊢
  generalize hu : noteTake k _ = u
  have hs : Lawful k s u := hu ▸ (sealFilling_lawful k s).trans (planned_lawful k _ _ _)
  have all : u.fillingLaw k → AllFilled k u := hu ▸ sealFilling_all k s
  have free : ∀ i, g = some i → i ∈ u.pool.free := hu ▸ mem
  refine hs.trans ?_
  cases g with
  | none => exact reclaimBlock_lawful k u all
  | some index =>
    have hf := free index rfl
    dsimp only
    rw [joinBlock_eq]
    refine Lawful.trans ?_ (extendPins_lawful k _ _)
    have a := joinBase_steady k { u with pool := { u.pool with free := u.pool.free.erase index } } index
    refine ⟨⟨⟨⟨a.control, a.counters, a.front, a.capture, a.matching, a.input, a.data, a.summaries, a.table, a.loads,
        a.blocks⟩, a.pending, a.now, a.port, a.capacity, a.consumed, a.wf⟩, a.decodingKept, a.grantKept⟩,
        fun h => ?_, fun h => ?_, fun h => ?_, fun h _ => ?_⟩
    · refine poolLaw_of_perm (s := u) a.capture a.blocks ?_ h
      rw [joinBase_free]
      simp only [chainIndices, joinBase_chain, List.map_append, List.map_cons, List.map_nil]
      rw [← List.append_assoc]
      exact List.perm_append_comm.trans (((List.perm_cons_erase hf).symm.append_right _))
    · exact joinBase_filling k _ index (all h)
    · exact joinBase_size k _ index h
    · have v := joinBase_within k { u with pool := { u.pool with free := u.pool.free.erase index } } index
        (free_index h hf) fun b hb => chain_index h hb
      exact ⟨v.regions, v.capacity, v.blocks, v.reads⟩

end

/-! ## Records -/

section
variable (k : LineIx) (s : State)

theorem onNewest_index (f : Block → Block) (h : ∀ b, (f b).index = b.index) (l : List Block) :
    (onNewest f l).map Block.index = l.map Block.index := by
  induction l with
  | nil => rfl
  | cons b l ih =>
    cases l with
    | nil => simp [onNewest, h]
    | cons c l => simpa [onNewest] using ih

theorem onNewest_mem (f : Block → Block) (l : List Block) (d : Block) (h : d ∈ onNewest f l) :
    d ∈ l ∨ ∃ b ∈ l, d = f b := by
  induction l with
  | nil => simp [onNewest] at h
  | cons b l ih =>
    cases l with
    | nil => simp [onNewest] at h; exact Or.inr ⟨b, by simp, h⟩
    | cons c l =>
      simp only [onNewest, List.mem_cons] at h
      rcases h with rfl | h
      · exact Or.inl (by simp)
      · rcases ih (by simpa [onNewest] using h) with m | ⟨x, m, e⟩
        · exact Or.inl (List.mem_cons_of_mem _ m)
        · exact Or.inr ⟨x, List.mem_cons_of_mem _ m, e⟩

theorem onNewest_dropLast (f : Block → Block) (l : List Block) : (onNewest f l).dropLast = l.dropLast := by
  induction l with
  | nil => rfl
  | cons b l ih =>
    cases l with
    | nil => rfl
    | cons c l =>
      have : onNewest f (c :: l) ≠ [] := by cases l <;> simp [onNewest]
      simp [onNewest, List.dropLast_cons_of_ne_nil this, ih]

end

/-- Lawful work whose stores stay in bounds as long as `q` holds of what is recorded. -/
structure LawfulIf (q : Prop) (k : LineIx) (s t : State) : Prop extends Steady k s t where
  poolKept : s.poolLaw → t.poolLaw
  fillingKept : s.fillingLaw k → t.fillingLaw k
  sizeKept : q → s.sizeLaw k → t.sizeLaw k
  within : q → s.poolLaw → s.sizeLaw k → Within s t

theorem Lawful.when {k : LineIx} {s t : State} (h : Lawful k s t) (q : Prop) : LawfulIf q k s t :=
  ⟨h.toSteady, h.poolKept, h.fillingKept, fun _ => h.sizeKept, fun _ => h.within⟩

theorem LawfulIf.lawful {q : Prop} {k : LineIx} {s t : State} (h : LawfulIf q k s t) (g : s.sizeLaw k → q) :
    Lawful k s t :=
  ⟨h.toSteady, h.poolKept, h.fillingKept, fun z => h.sizeKept (g z) z, fun p z => h.within (g z) p z⟩

theorem LawfulIf.trans {q : Prop} {k : LineIx} {s t u : State} (h : LawfulIf q k s t) (g : LawfulIf q k t u) :
    LawfulIf q k s u :=
  ⟨h.toSteady.trans g.toSteady, fun w => g.poolKept (h.poolKept w), fun w => g.fillingKept (h.fillingKept w),
    fun x w => g.sizeKept x (h.sizeKept x w),
    fun x p z => (h.within x p z).trans (g.within x (h.poolKept p) (h.sizeKept x z))⟩

section
variable (k : LineIx) (s : State)

/-! ## Pins leave chains alone -/

theorem raiseAttention_pool : (raiseAttention s).pool = s.pool := by
  unfold raiseAttention
  split <;> rfl

theorem post_pool (n : Notice) : (post n s).pool = s.pool := by
  unfold post
  split
  · unfold appendNotice
    rw [raiseAttention_pool]
    simp
  · rfl

@[simp] theorem tell_pool (kind : NoticeKind) (args : List Byte) : (tell k kind args s).pool = s.pool := post_pool s _

@[simp] theorem tell_cap (kind : NoticeKind) (args : List Byte) (j : LineIx) : (tell k kind args s).cap j = s.cap j :=
  cap_of_pool (tell_pool k s kind args) j

theorem dropPin_chain (p : Pin) (r : DropReason) : ((dropPin k p r s).cap k).chain = (s.cap k).chain := by
  simp [dropPin, removePin]

theorem settlePin_chain (p : Pin) : ((settlePin k p s).cap k).chain = (s.cap k).chain := by
  unfold settlePin
  dsimp only
  split <;> simp [replacePin]

theorem makeRoom_chain (q : Word32) (id fuel : Nat) : ((makeRoom k q id fuel s).cap k).chain = (s.cap k).chain := by
  induction fuel generalizing s with
  | zero => rfl
  | succ n ih =>
    unfold makeRoom
    split
    · rfl
    · split
      · rfl
      · rw [ih, dropPin_chain]

theorem extendPin_chain (q : Word32) (id : Nat) : ((extendPin k q s id).cap k).chain = (s.cap k).chain := by
  unfold extendPin
  split
  · rfl
  · split
    · dsimp only
      split <;> rw [settlePin_chain, makeRoom_chain]
    · rfl

theorem extendPins_chain (q : Word32) : ((extendPins k q s).cap k).chain = (s.cap k).chain := by
  unfold extendPins
  generalize (((s.cap k).pins.filter Pin.isOpen).map Pin.id).reverse = l
  induction l generalizing s with
  | nil => rfl
  | cons a l ih => rw [List.foldl_cons, ih, extendPin_chain]

/-! ## The block a record goes into -/

theorem joinBlock_filling (i : Nat) (b : Block) (h : fillingOf ((joinBlock k i s).cap k).chain = some b) :
    b.fill = 0 := by
  rw [joinBlock_eq, extendPins_chain, joinBase_chain] at h
  simp [fillingOf] at h
  subst h
  rfl

theorem sealFilling_none : fillingOf ((sealFilling k s).cap k).chain = none := by
  unfold sealFilling
  split
  · assumption
  · unfold fillingOf
    rw [modCap_cap_self]
    simp only [List.getLast?_map]
    generalize ((writeHeader _ _ _ _ s).cap k).chain.getLast? = o
    cases o <;> rfl

theorem reclaimBlock_filling (n : fillingOf (s.cap k).chain = none) (b : Block)
    (h : fillingOf ((reclaimBlock k s).cap k).chain = some b) : b.fill = 0 := by
  unfold reclaimBlock at h
  split at h
  · rw [n] at h; simp at h
  · exact joinBlock_filling k _ _ b h

/-- A block just taken holds no record. -/
theorem takeBlock_filling (b : Block) (h : fillingOf ((takeBlock k s).cap k).chain = some b) : b.fill = 0 := by
  unfold takeBlock at h
  obtain ⟨plan, e⟩ := chooseAhead_eq k (sealFilling k s)
  dsimp only at h
  generalize (chooseAhead k (sealFilling k s)).grant k = g at h
  rw [e] at h
  have n : fillingOf ((noteTake k { sealFilling k s with
    pool := { (sealFilling k s).pool with plan := plan } }).cap k).chain = none := sealFilling_none k s
  cases g with
  | none => exact reclaimBlock_filling k _ n b h
  | some i => exact joinBlock_filling k _ _ b h

theorem recordBytes_length (n : Word32) (r : Record) : (recordBytes n r).length = r.size := by
  simp [recordBytes, leBytes_length, padTo, Record.size]
  omega

/-- A record placed in a block with room for it. -/
theorem placeRecord_lawful (q : Prop) (n : Word32) (r : Record)
    (h : q → (∀ b ∈ (s.cap k).chain, b.fill ≤ payloadBytes) →
      ∀ b, fillingOf (s.cap k).chain = some b → b.fill + r.size ≤ payloadBytes) :
    LawfulIf q k s (placeRecord k n r s) := by
  unfold placeRecord
  split
  · exact (Lawful.refl k s).when q
  · rename_i b e
    dsimp only
    have ix : s.poolLaw → s.isBlock b.index := fun p => chain_index p (filling_mem e)
    generalize ht : s.store Regions.pool (blockOffset b.index + 32 + b.fill) (recordBytes n r) = t
    have sp : t.pool = s.pool := by rw [← ht]; simp
    have a : LawfulIf q k s t := by
      have st : Steady k s t := ht ▸ store_lawful_steady k s _ _ _
      have c := cap_of_pool sp
      have ch : chainIndices t = chainIndices s := by funext j; simp [chainIndices, c]
      have ei : t.inp k = s.inp k := ht ▸ (store_recorded s _ _ _).inp k
      refine ⟨st, fun p => ?_, fun f => ?_, fun _ z => ?_, fun x p z => ?_⟩
      · unfold State.poolLaw heldIndices at *
        rw [sp, ch]; exact p
      · unfold State.fillingLaw at *
        rw [c]; exact f
      · unfold State.sizeLaw at *
        rw [c, ei]; exact z
      · rw [← ht, Nat.add_assoc]
        refine block_within s _ _ _ (ix p) ?_
        have := h x z.2.2 b e
        rw [recordBytes_length]
        unfold payloadBytes at this
        omega
    refine a.trans ?_
    have hdr (u : State) (pu : u.pool = s.pool) (o m v : Nat) (w : o + m ≤ 32) :
        Lawful k u (writeHeader b.index o m v u) := by
      refine writeHeader_lawful k u _ _ _ _ (fun p _ => ?_) w
      have m : b ∈ (u.cap k).chain := by rw [cap_of_pool pu]; exact filling_mem e
      exact chain_index p m
    have hp (u : State) (pu : u.pool = s.pool) (o m v : Nat) : (writeHeader b.index o m v u).pool = s.pool := by
      rw [writeHeader_pool, pu]
    generalize h1 : writeHeader b.index 6 2 (b.withRecord n r).records t = u1
    have l1 : Lawful k t u1 := h1 ▸ hdr t sp _ _ _ (by decide)
    have p1 : u1.pool = s.pool := h1 ▸ hp t sp _ _ _
    generalize h2 : writeHeader b.index 12 2 (b.withRecord n r).fill u1 = u2
    have l2 : Lawful k u1 u2 := h2 ▸ hdr u1 p1 _ _ _ (by decide)
    have p2 : u2.pool = s.pool := h2 ▸ hp u1 p1 _ _ _
    generalize h3 : writeHeader b.index 24 6 (b.withRecord n r).lastTime u2 = u3
    have l3 : Lawful k u2 u3 := h3 ▸ hdr u2 p2 _ _ _ (by decide)
    have p3 : u3.pool = s.pool := h3 ▸ hp u2 p2 _ _ _
    have l4 : Lawful k u3 (u3.ifThen (b.records == 0) fun w => writeHeader b.index 18 6 (b.withRecord n r).firstTime
        (writeHeader b.index 8 4 (b.withRecord n r).firstRecord.toNat w)) :=
      Lawful.ifThen fun _ => (hdr u3 p3 _ _ _ (by decide)).trans (hdr _ (hp u3 p3 _ _ _) _ _ _ (by decide))
    have p4 : (u3.ifThen (b.records == 0) fun w => writeHeader b.index 18 6 (b.withRecord n r).firstTime
        (writeHeader b.index 8 4 (b.withRecord n r).firstRecord.toNat w)).pool = s.pool := by
      rw [ifThen_pool]
      · exact p3
      · rw [hp _ (hp u3 p3 _ _ _), p3]
    refine ((((l1.trans l2).trans l3).trans l4).when q).trans ?_
    generalize (u3.ifThen (b.records == 0) _) = v at p4
    have c := cap_of_pool p4 k
    have fl : ∀ x : Block, ((fun _ => b.withRecord n r) x).fill = b.fill + r.size := fun _ => rfl
    have nm : (onNewest (fun _ => b.withRecord n r) (v.cap k).chain).map Block.index = (v.cap k).chain.map Block.index := by
      have : ∀ l : List Block, l.getLast? = some b →
          (onNewest (fun _ => b.withRecord n r) l).map Block.index = l.map Block.index := by
        intro l
        induction l with
        | nil => simp
        | cons x l ih =>
          cases l with
          | nil => simp [onNewest, Block.withRecord]; intro g; rw [g]
          | cons y l => intro g; simpa [onNewest] using ih (by simpa using g)
      rw [c]
      refine this _ ?_
      unfold fillingOf at e
      split at e
      · rename_i d g
        split at e
        · simp at e; subst e; exact g
        · simp at e
      · simp at e
    refine ⟨Steady.ofCap k v _, ?_, ?_, fun x z => ?_, fun _ _ _ => ⟨rfl, rfl, rfl, fun _ _ => rfl⟩⟩
    · exact poolLaw_of_perm (k := k) (fun j n => by simp [n]) rfl (by simp [chainIndices, nm])
    · intro f
      unfold State.fillingLaw at *
      simpa [onNewest_dropLast] using f
    · refine ⟨by simpa using z.1, by simpa using z.2.1, fun d hd => ?_⟩
      have hd : d ∈ onNewest (fun _ => b.withRecord n r) (v.cap k).chain := by simpa using hd
      rcases onNewest_mem _ _ _ hd with m | ⟨_, _, rfl⟩
      · exact z.2.2 d m
      · show b.fill + r.size ≤ payloadBytes
        exact h x (by rw [← c]; exact z.2.2) b e

/-- Numbering and writing a record of at most 240 payload bytes (R87, R92, R93). -/
theorem putRecord_if (q : Prop) (r : Record) (h : q → r.payload.length ≤ 240) : LawfulIf q k s (putRecord k r s) := by
  unfold putRecord
  dsimp only
  have hs : q → r.size ≤ 256 := fun x => by have := h x; unfold Record.size; omega
  have h0 : 0 < r.size := by unfold Record.size; omega
  have t : LawfulIf q k s (s.ifThen (s.needsBlock k r.size) (takeBlock k)) :=
    (Lawful.ifThen fun _ => takeBlock_lawful k s).when q
  refine (((t.trans (placeRecord_lawful k _ q _ r fun x z b e => ?_)).trans ((Lawful.ofCapChain k _ _ rfl id).when q)).trans
    ((Lawful.ofCnt k _ _).when q)).trans ((noteRecord_lawful k _).when q)
  by_cases n : s.needsBlock k r.size = true
  · rw [n] at e
    have := takeBlock_filling k s b e
    have := hs x
    unfold payloadBytes
    omega
  · have n : s.needsBlock k r.size = false := by simpa using n
    rw [n] at e z
    have z := z b (filling_mem e)
    unfold State.needsBlock at n
    rw [show fillingOf (s.cap k).chain = some b from e] at n
    simp at n
    unfold payloadBytes at *
    omega

theorem putRecord_lawful (r : Record) (h : r.payload.length ≤ 240) : Lawful k s (putRecord k r s) :=
  (putRecord_if k s True r fun _ => h).lawful fun _ => trivial

/-- Closing the open DATA record (R95). -/
theorem closeOpen_lawful (c : CloseCause) : Lawful k s (closeOpen k c s) := by
  unfold closeOpen
  split
  · exact Lawful.refl k s
  · rename_i o e
    have a : LawfulIf (o.bytes.length ≤ 240) k s (s.modCap k fun c => { c with openRecord := none }) :=
      (Lawful.ofCapChain k s _ rfl (by simp)).when _
    exact (a.trans (putRecord_if k _ _ (dataRecord o c) id)).lawful fun z => Nat.le_of_lt (z.1 o e)

/-- Writing a record of another kind (R96). -/
theorem record_lawful (r : Record) (h : r.payload.length ≤ 240 := by simp [leBytes_length]) : Lawful k s (record k r s) :=
  (closeOpen_lawful k s _).trans (putRecord_lawful k _ r h)

end

section
variable (k : LineIx) (s : State)

/-! ## Returning blocks -/

theorem returnBlocks_lawful (l : List Nat) (n : l.Nodup) (m : ∀ i ∈ l, i ∈ chainIndices s k) :
    Lawful k s (l.foldl (returnBlock k) s) := by
  induction l generalizing s with
  | nil => exact Lawful.refl k s
  | cons i l ih =>
    refine (returnBlock_lawful k s i (m i (by simp))).trans (ih _ (List.nodup_cons.mp n).2 fun j hj => ?_)
    unfold chainIndices
    rw [returnBlock_chain]
    have hm := m j (List.mem_cons_of_mem _ hj)
    obtain ⟨b, hb, rfl⟩ := List.mem_map.mp hm
    refine List.mem_map_of_mem (List.mem_filter.mpr ⟨hb, ?_⟩)
    simp
    rintro rfl
    exact (List.nodup_cons.mp n).1 hj

theorem returnBlocks_rest (l : List Nat) :
    Steady k s (l.foldl (returnBlock k) s) ∧ (s.fillingLaw k → (l.foldl (returnBlock k) s).fillingLaw k) ∧
      (s.sizeLaw k → (l.foldl (returnBlock k) s).sizeLaw k) := by
  induction l generalizing s with
  | nil => exact ⟨Steady.refl k s, id, id⟩
  | cons i l ih =>
    obtain ⟨a, b, c⟩ := ih (returnBlock k s i)
    exact ⟨(returnBlock_steady k s i).trans a, fun h => b (returnBlock_filling k s i h),
      fun h => c (returnBlock_size k s i h)⟩

/-- The return of every unpinned block of the line (R98). -/
theorem returnUnpinned_lawful : Lawful k s ((s.unpinned k).foldl (returnBlock k) s) := by
  by_cases p : s.poolLaw
  · refine returnBlocks_lawful k s _ ?_ fun i hi => ?_
    · exact ((List.filter_sublist).map Block.index).nodup (chain_nodup k s p)
    · obtain ⟨b, hb, rfl⟩ := List.mem_map.mp hi
      exact List.mem_map_of_mem (List.mem_filter.mp hb).1
  · obtain ⟨a, b, c⟩ := returnBlocks_rest k s (s.unpinned k)
    exact ⟨a, fun h => absurd h p, b, c, fun h => absurd h p⟩

/-- CLEAR_CAPTURE's work on the line's history (R98). -/
theorem clearCapture_lawful (drop : Bool) : Lawful k s (clearCapture k drop s).1 := by
  unfold clearCapture
  exact ((closeOpen_lawful k s _).trans (Lawful.ifThen fun _ => dropAllPins_lawful k _ _)).trans
    (returnUnpinned_lawful k _)

theorem victim_shrink (i : Nat) (h : s.victim k = some i) : Lawful k s (returnBlock k s i) :=
  returnBlock_lawful k s i (victim_mem k s i h)

/-- Returning blocks for a lowered max (R101). -/
theorem shrinkTo_lawful (max fuel : Nat) : Lawful k s (shrinkTo k max fuel s) := by
  induction fuel generalizing s with
  | zero => exact Lawful.refl k s
  | succ n ih =>
    unfold shrinkTo
    split
    · split
      · exact Lawful.refl k s
      · rename_i i e
        exact (victim_shrink k s i e).trans (ih _)
    · exact Lawful.refl k s

/-- The quota changes of an accepted record (R44). -/
theorem quotaChange_lawful (n : Settings) : Lawful k s (quotaChange k n s) := by
  unfold quotaChange
  exact (Lawful.ifThen fun _ => dropOver_lawful k s _ _ _).trans (shrinkTo_lawful k _ _ _)

/-! ## Making pins -/

theorem fitBudget_lawful (p : Pin) (fuel : Nat) : Lawful k s (fitBudget k p fuel s) := by
  induction fuel generalizing s with
  | zero => exact Lawful.refl k s
  | succ n ih =>
    unfold fitBudget
    split
    · exact Lawful.refl k s
    · split
      · exact (dropPin_lawful k s _ _).trans (ih _)
      · exact Lawful.refl k s

theorem dropOverflow_lawful : Lawful k s (dropOverflow k s) := by
  unfold dropOverflow
  split
  · split
    · exact dropPin_lawful k s _ _
    · exact Lawful.refl k s
  · exact Lawful.refl k s

theorem placePin_lawful (p : Pin) : Lawful k s (placePin k p s) :=
  ((dropOverflow_lawful k s).trans (fitBudget_lawful k _ _ _)).trans (Lawful.ofCapChain k _ _ rfl id)

/-- A pin made with its MARK record (R109, R110). -/
theorem createPin_lawful (pattern before after : Nat) (c : Console) :
    Lawful k s (createPin k pattern before after c s) := by
  unfold createPin
  dsimp only
  have h := (Lawful.ofCapChain k s (fun c => { c with nextPinId := nextId (s.pinId k) }) rfl id).trans
    (record_lawful k _ (markRecord pattern c (s.pinId k) s.time) (by simp [markRecord]))
  split
  · exact h.trans (placePin_lawful k _ _)
  · exact h

theorem markCompletion_lawful (i : Fin 32) (p : Pattern) : Lawful k s (markCompletion k i p s).1 := by
  unfold markCompletion
  dsimp only
  split
  · exact createPin_lawful k s _ _ _ _
  · split
    · exact record_lawful k s _ (by simp [markRecord])
    · exact Lawful.refl k s

end

end Sys2Proof.Machine
end

