-- ==== Sys2Proof/Laws/Work.lean ====
section
/-! SUPPORT. What the front ends, the Input Path and the Rate Finder can do for a line: every operation is the line's own
work and keeps the laws of every tick. -/

namespace Sys2Proof.Machine

section
variable (k : LineIx) (s : State)

/-! ## Front end -/

theorem setTransmitter_lawful (t : Transmitter) : Lawful k s (setTransmitter k t s) := Lawful.ofFe k s _ fun _ => Iff.rfl

/-- A change of a receiver that is not STOPPED before or after. -/
theorem setReceiver_lawful (r : Receiver) (h : r ≠ .stopped) (g : (s.fe k).receiver ≠ .stopped) :
    Lawful k s (setReceiver k r s) := Lawful.ofFe k s _ fun _ => by simp [h, g]

theorem fresh_ne (mark : Bool) : Receiver.fresh mark ≠ .stopped := by cases mark <;> simp [Receiver.fresh]

theorem stopIdle_lawful : Lawful k s (stopIdle k s) := Lawful.ofFe k s _ fun _ => Iff.rfl

theorem reportBreak_lawful (c : StartEdge) (ended : Nat) (cut : Bool) : Lawful k s (reportBreak k c ended cut s) :=
  (record_lawful k s _ (by simp [breakInRecord, leBytes_length])).trans (tell_lawful k _ _ _)

theorem cutBreak_lawful : Lawful k s (cutBreak k s) := by
  unfold cutBreak
  split
  · rename_i h
    exact (setReceiver_lawful k s _ (by simp) (by simp [h])).trans (reportBreak_lawful k _ _ _ _)
  · exact Lawful.refl k s

theorem setSpaceHold_lawful : Lawful k s (setSpaceHold k s) := Lawful.ofFe k s _ fun _ => Iff.rfl

/-! ## Input Path -/

theorem restartGrant_lawful : Lawful k s (restartGrant k s) := Lawful.ofInp k s _ rfl id

theorem reviewGrant_lawful : Lawful k s (reviewGrant k s) := Lawful.ofInp k s _ rfl id

theorem changeHolder_lawful (holder : Nat) (c : GrantCause) : Lawful k s (changeHolder k holder c s) := by
  unfold changeHolder
  exact (((Lawful.ofInp k s _ rfl id).trans (Lawful.ifThen fun _ => restartGrant_lawful k _)).trans
    (record_lawful k _ _ (by simp [grantRecord]))).trans (tell_lawful k _ _ _)

theorem restartSilence_lawful : Lawful k s (restartSilence k s) := Lawful.ofInp k s _ rfl id

theorem startProbe_lawful : Lawful k s (startProbe k s) := Lawful.ofFe k s _ fun _ => Iff.rfl

theorem withdrawProbe_lawful : Lawful k s (withdrawProbe k s) := by
  unfold withdrawProbe
  split
  · exact (Lawful.ofFe k s _ fun _ => Iff.rfl).trans (restartSilence_lawful k _)
  · exact Lawful.refl k s

theorem reviewProbe_lawful : Lawful k s (reviewProbe k s) := by
  unfold reviewProbe
  split
  · split
    · exact Lawful.ifThen fun _ => startProbe_lawful k s
    · exact withdrawProbe_lawful k s
  · exact Lawful.refl k s

theorem setEntryPhase_lawful (p : EntryPhase) : Lawful k s (setEntryPhase k p s) := by
  refine Lawful.ofInp k s _ rfl fun h e he => ?_
  simp only [Option.map_eq_some_iff] at he
  obtain ⟨d, hd, rfl⟩ := he
  exact h d hd

theorem handItem_lawful (e : InFlight) : Lawful k s (handItem k e s) := by
  unfold handItem
  split <;> exact (setTransmitter_lawful k s _).trans (setEntryPhase_lawful k _ _)

theorem judgeHandOff_lawful (e : InFlight) (since : Nat) : Lawful k s (judgeHandOff k e since s) := by
  unfold judgeHandOff
  split
  · exact setEntryPhase_lawful k s _
  · split
    · exact setEntryPhase_lawful k s _
    · exact handItem_lawful k s e

theorem resumeEntry_lawful : Lawful k s (resumeEntry k s) := by
  unfold resumeEntry
  split
  · exact Lawful.refl k s
  · split
    · exact Lawful.refl k s
    · split
      · exact judgeHandOff_lawful k s _ _
      · exact setEntryPhase_lawful k s _

/-- What a change does to the line's input is the line's own work. -/
theorem settle_lawful : Lawful k s (settle k s) :=
  ((resumeEntry_lawful k s).trans (reviewProbe_lawful k _)).trans (reviewGrant_lawful k _)

theorem dropEntry_lawful : Lawful k s (dropEntry k s) :=
  ((Lawful.ofInp k s (fun i => { i with entry := none }) rfl (by simp)).trans (restartGrant_lawful k _)).trans
    (restartSilence_lawful k _)

/-- A KEYS entry of at most 56 bytes is recorded as it ends. -/
theorem endKeys_if (e : InFlight) (c : Option CutReason) : LawfulIf (e.keys.length ≤ 56) k s (endKeys k e c s) := by
  unfold endKeys State.ifThen
  split
  · refine ((closeOpen_lawful k s _).when _).trans (putRecord_if k _ _ _ fun h => ?_)
    simp [inputRecord]
    omega
  · exact (Lawful.refl k s).when _

theorem tellCut_lawful (e : InFlight) (r : CutReason) : Lawful k s (tellCut k e r s) := tell_lawful k s _ _

theorem cutSentBreak_lawful (e : InFlight) : Lawful k s (cutSentBreak k e s) := by
  unfold cutSentBreak
  split
  · exact (setTransmitter_lawful k s _).trans (record_lawful k _ _ (by simp [breakOutRecord, leBytes_length]))
  · exact Lawful.refl k s

theorem stopSending_lawful : Lawful k s (stopSending k s) := by
  unfold stopSending
  split
  · exact (setTransmitter_lawful k s _).trans (Lawful.ifThen fun _ => restartSilence_lawful k _)
  · exact Lawful.refl k s

/-- The cut of the entry in flight is the line's own work (R157). -/
theorem cutEntry_lawful (r : CutReason) : Lawful k s (cutEntry k r s) := by
  unfold cutEntry
  split
  · exact stopSending_lawful k s
  · rename_i e he
    split
    · exact ((cutSentBreak_lawful k s e).trans (tellCut_lawful k _ e r)).trans (dropEntry_lawful k _)
    · have a : LawfulIf (e.keys.length ≤ 56) k s _ :=
        (((stopSending_lawful k s).when _).trans (endKeys_if k _ e (some r))).trans
          (((tellCut_lawful k _ e r).trans (dropEntry_lawful k _)).when _)
      exact a.lawful fun z => z.2.1 e he

theorem completeKeys_if (e : InFlight) : LawfulIf (e.keys.length ≤ 56) k s (completeKeys k e s) :=
  (endKeys_if k s e none).trans ((dropEntry_lawful k _).when _)

theorem nextKeyOrEnd_if (e : InFlight) : LawfulIf (e.keys.length ≤ 56) k s (nextKeyOrEnd k e s) := by
  unfold nextKeyOrEnd
  split
  · exact (setEntryPhase_lawful k s _).when _
  · exact completeKeys_if k s e

theorem consumeHead_lawful : Lawful k s (consumeHead k s) := Lawful.ofInp k s _ rfl id

theorem refuseHead_lawful (r : RingEntry) (reason : RefuseReason) : Lawful k s (refuseHead k r reason s) :=
  ((consumeHead_lawful k s).trans (Lawful.ofCnt k _ _)).trans (tell_lawful k _ _ _)

theorem takeHead_lawful (e : InFlight) (h : e.keys.length ≤ 56) : Lawful k s (takeHead k e s) :=
  (((withdrawProbe_lawful k s).trans (Lawful.ofInp k _ (fun i => { i with entry := some e }) rfl fun _ d hd => by
    simp at hd; subst hd; exact h)).trans (consumeHead_lawful k _)).trans (restartGrant_lawful k _)

end

/-! ## Rate Finder -/

/-- Only the Rate Finder may differ. -/
def RateOnly (s t : State) : Prop := t = { s with rate := t.rate }

theorem RateOnly.refl (s : State) : RateOnly s s := rfl

theorem RateOnly.trans {s t u : State} (h : RateOnly s t) (g : RateOnly t u) : RateOnly s u := by
  unfold RateOnly at *
  rw [h] at g
  exact g

theorem RateOnly.of (s : State) (f : RateFinder → RateFinder) : RateOnly s (s.modRate f) := rfl

theorem RateOnly.ctl {s t : State} (h : RateOnly s t) (k : LineIx) : t.ctl k = s.ctl k := by rw [h]; rfl
theorem RateOnly.fe {s t : State} (h : RateOnly s t) (k : LineIx) : t.fe k = s.fe k := by rw [h]; rfl
theorem RateOnly.inp {s t : State} (h : RateOnly s t) (k : LineIx) : t.inp k = s.inp k := by rw [h]; rfl
theorem RateOnly.cap {s t : State} (h : RateOnly s t) (k : LineIx) : t.cap k = s.cap k := by rw [h]; rfl
theorem RateOnly.mat {s t : State} (h : RateOnly s t) (k : LineIx) : t.mat k = s.mat k := by rw [h]; rfl
theorem RateOnly.cnt {s t : State} (h : RateOnly s t) (k : LineIx) : t.cnt k = s.cnt k := by rw [h]; rfl
theorem RateOnly.port {s t : State} (h : RateOnly s t) : t.port = s.port := by rw [h]
theorem RateOnly.notice {s t : State} (h : RateOnly s t) : t.notice = s.notice := by rw [h]
theorem RateOnly.mem {s t : State} (h : RateOnly s t) : t.mem = s.mem := by rw [h]

theorem setPhase_rateOnly (k : LineIx) (p : Phase) (s : State) : RateOnly s (s.setPhase k p) := rfl
theorem setChannel_rateOnly (i : Fin 4) (c : Option Channel) (s : State) : RateOnly s (setChannel i c s) := rfl

theorem grantChannels_rateOnly (n : Nat) (s : State) : RateOnly s (grantChannels n s) := by
  induction n generalizing s with
  | zero => exact RateOnly.refl s
  | succ n ih =>
    unfold grantChannels
    split
    · exact RateOnly.trans (setPhase_rateOnly _ _ _) (ih _) |> fun h => RateOnly.trans (RateOnly.trans (RateOnly.of s _) (setChannel_rateOnly _ _ _)) h
    · exact RateOnly.refl s

theorem grants_rateOnly (s : State) : RateOnly s (grants s) := grantChannels_rateOnly 4 s

theorem standInLine_rateOnly (k : LineIx) (s : State) : RateOnly s (standInLine k s) := rfl
theorem queueUp_rateOnly (k : LineIx) (s : State) : RateOnly s (queueUp k s) := rfl

/-- A line that was put in stands on the list, with the lines that stood there. -/
theorem mem_insertWaiting (before : LineIx → Bool) (k j : LineIx) (l : List LineIx) :
    j ∈ insertWaiting before k l ↔ j = k ∨ j ∈ l := by
  induction l with
  | nil => simp [insertWaiting]
  | cons i l ih =>
    unfold insertWaiting
    split
    · simp
    · simp [ih, or_left_comm]

/-- The lines that stood on the list keep their order. -/
theorem insertWaiting_sublist (before : LineIx → Bool) (k : LineIx) (l : List LineIx) :
    l.Sublist (insertWaiting before k l) := by
  induction l with
  | nil => exact List.nil_sublist _
  | cons i l ih =>
    unfold insertWaiting
    split
    · exact List.sublist_cons_self _ _
    · exact ih.cons_cons i

section
variable (k : LineIx) (s : State)

@[simp] theorem standInLine_channels : (standInLine k s).rate.channels = s.rate.channels := rfl
@[simp] theorem standInLine_wait : (standInLine k s).rate.wait = insertWaiting (s.standsBefore k) k s.rate.wait := rfl
@[simp] theorem standInLine_joined : (standInLine k s).rate.joined = s.rate.joined := rfl
@[simp] theorem standInLine_granted : (standInLine k s).rate.granted = s.rate.granted := rfl
@[simp] theorem queueUp_channels : (queueUp k s).rate.channels = s.rate.channels := rfl
@[simp] theorem queueUp_joined : (queueUp k s).rate.joined = upd s.rate.joined k fun _ => some s.now := rfl
@[simp] theorem queueUp_granted : (queueUp k s).rate.granted = s.rate.granted := rfl

end

/-- Taking one channel back changes nothing, or makes that channel FREE and puts its line, which got it at this tick and is not
on the list, at its place there. -/
theorem takeBack_cases (s : State) (i : Fin 4) :
    takeBack s i = s ∨ ∃ c, s.rate.channels[i] = some c ∧ s.rate.granted[c.line] = some s.now ∧ c.line ∉ s.rate.wait ∧
      takeBack s i = standInLine c.line (setChannel i none s) := by
  unfold takeBack State.ifThen
  split
  · exact .inl rfl
  · rename_i c hc
    split
    · rename_i h
      simp only [Bool.and_eq_true, decide_eq_true_eq, Bool.not_eq_true', List.contains_eq_mem,
        decide_eq_false_iff_not] at h
      exact .inr ⟨c, hc, h.1, h.2, rfl⟩
    · exact .inl rfl

theorem takeBack_rateOnly (s : State) (i : Fin 4) : RateOnly s (takeBack s i) := by
  obtain h | ⟨c, -, -, -, h⟩ := takeBack_cases s i <;> rw [h]
  · exact RateOnly.refl s
  · rfl

theorem takeBacks_rateOnly (s : State) : RateOnly s (takeBacks s) := by
  have (l : List (Fin 4)) (s : State) : RateOnly s (l.foldl takeBack s) := by
    induction l generalizing s with
    | nil => exact RateOnly.refl s
    | cons i l ih => exact (takeBack_rateOnly s i).trans (ih _)
  exact this _ s

theorem joinTail_rateOnly (k : LineIx) (s : State) : RateOnly s (joinTail k s) := by
  unfold joinTail
  dsimp only
  split
  · exact (takeBacks_rateOnly s).trans ((setPhase_rateOnly k _ _).trans (grants_rateOnly _))
  · exact ((takeBacks_rateOnly s).trans (queueUp_rateOnly k _)).trans (grants_rateOnly _)

theorem releaseChannel_rateOnly (k : LineIx) (s : State) : RateOnly s (releaseChannel k s) := by
  unfold releaseChannel
  split
  · exact RateOnly.refl s
  · rfl

theorem leaveMeasurement_rateOnly (k : LineIx) (p : Phase) (s : State) : RateOnly s (leaveMeasurement k p s) :=
  ((takeBacks_rateOnly s).trans (releaseChannel_rateOnly k _)).trans
    ((RateOnly.of _ _).trans ((setPhase_rateOnly k _ _).trans (grants_rateOnly _)))

theorem restartMeasurement_rateOnly (k : LineIx) (s : State) : RateOnly s (restartMeasurement k s) := by
  unfold restartMeasurement
  split
  · split
    · exact RateOnly.refl s
    · rfl
  · exact joinTail_rateOnly k s
  · exact RateOnly.refl s

theorem onChannel_rateOnly (k : LineIx) (f : Channel → Channel) (s : State) : RateOnly s (onChannel k f s) := by
  unfold onChannel
  split
  · exact RateOnly.refl s
  · rfl

/-- How many channels are FREE. -/
def freeCount (s : State) : Nat := (List.finRange 4).countP fun i => s.rate.channels[i].isNone

theorem freeChannel_none {s : State} (h : s.freeChannel = none) (i : Fin 4) : s.rate.channels[i].isSome := by
  unfold State.freeChannel at h
  rw [List.find?_eq_none] at h
  have := h i (List.mem_finRange i)
  simpa [Option.isSome_iff_ne_none] using this

theorem freeCount_set (s : State) (i : Fin 4) (c : Channel) (h : s.rate.channels[i].isNone = true) :
    freeCount (setChannel i (some c) s) + 1 = freeCount s := by
  unfold freeCount setChannel
  simp only [modRate_rate, upd_get]
  have e : List.finRange 4 = [0, 1, 2, 3] := by decide
  rw [e]
  simp only [Fin.getElem_fin] at h
  fin_cases i <;> simp [List.countP_cons] at h ⊢ <;> simp [h] <;> omega

/-- Grants leave no FREE channel or no waiting line (R67). -/
theorem grantChannels_law (n : Nat) (s : State) (h : freeCount s ≤ n) : (grantChannels n s).grantLaw := by
  induction n generalizing s with
  | zero =>
    refine Or.inl fun i => ?_
    have : freeCount s = 0 := by omega
    unfold freeCount at this
    rw [List.countP_eq_zero] at this
    have := this i (List.mem_finRange i)
    simpa [Option.isSome_iff_ne_none, grantChannels] using this
  | succ n ih =>
    unfold grantChannels
    split
    · rename_i i k rest hf hw
      refine ih _ ?_
      have hn : s.rate.channels[i].isNone = true := by
        unfold State.freeChannel at hf
        have := List.find?_some hf
        exact this
      have := freeCount_set (s.modRate fun r => { r with wait := rest, granted := upd r.granted k fun _ => some s.now }) i (Channel.awaiting k s.now) hn
      have e : freeCount (s.modRate fun r => { r with wait := rest, granted := upd r.granted k fun _ => some s.now }) =
        freeCount s := rfl
      have e2 (u : State) : freeCount (u.setPhase k .measuring) = freeCount u := rfl
      rw [e2]
      omega
    · rename_i hx
      cases hf : s.freeChannel with
      | none => exact Or.inl (freeChannel_none hf)
      | some i =>
        cases hw : s.rate.wait with
        | nil => exact Or.inr hw
        | cons k rest => exact absurd hw (hx i k rest hf)

theorem grants_law (s : State) : (grants s).grantLaw :=
  grantChannels_law 4 s (by unfold freeCount; exact List.countP_le_length)

section
variable (k : LineIx) (s : State)

theorem setPhase_lawful (p : Phase) : Lawful k s (s.setPhase k p) := Lawful.ofRateEq k s rfl id

theorem joinTail_lawful : Lawful k s (joinTail k s) := Lawful.ofRateEq k s (joinTail_rateOnly k s) fun _ => grants_law _

theorem leaveMeasurement_lawful (p : Phase) : Lawful k s (leaveMeasurement k p s) :=
  Lawful.ofRateEq k s (leaveMeasurement_rateOnly k p s) fun _ => grants_law _

/-- A channel that is given again or changed stays given. -/
theorem setChannel_grant (i : Fin 4) (c : Option Channel) (h : s.rate.channels[i].isSome → c.isSome) (g : s.grantLaw) :
    (setChannel i c s).grantLaw := by
  rcases g with g | g
  · refine Or.inl fun j => ?_
    unfold setChannel
    simp only [modRate_rate, upd_get]
    split
    · exact h (g i)
    · exact g j
  · exact Or.inr g

theorem onChannel_lawful (f : Channel → Channel) : Lawful k s (onChannel k f s) := by
  refine Lawful.ofRateEq k s (onChannel_rateOnly k f s) fun g => ?_
  unfold onChannel
  split
  · exact g
  · exact setChannel_grant s _ _ (by simp) g

theorem restartMeasurement_lawful : Lawful k s (restartMeasurement k s) := by
  refine Lawful.ofRateEq k s (restartMeasurement_rateOnly k s) fun g => ?_
  unfold restartMeasurement
  split
  · split
    · exact g
    · exact setChannel_grant s _ _ (by simp) g
  · exact grants_law _
  · exact g

end

end Sys2Proof.Machine
end

