-- ==== Sys2Proof/Laws/Acts.lean ====
section
/-! SUPPORT. What matching, Line Control and the commands of one line can do: every one is the line's own work and keeps
the laws of Safety. -/

namespace Sys2Proof.Machine

section
variable (k : LineIx) (s : State)

/-! ## Match Engine -/

theorem advanceAll_lawful (b : Byte) : Lawful k s (advanceAll k b s) := Lawful.ofMat k s _
theorem resetProgress_lawful : Lawful k s (resetProgress k s) := Lawful.ofMat k s _
theorem setLineStart_lawful : Lawful k s (setLineStart k s) := Lawful.ofMat k s _
theorem reviewBoot_lawful : Lawful k s (reviewBoot k s) := Lawful.ofInp k s _ rfl id
theorem setPatternHold_lawful (hold : Bool) : Lawful k s (setPatternHold k hold s) := Lawful.ofInp k s _ rfl id

theorem setConsoleState_lawful (c : Console) : Lawful k s (setConsoleState k c s) := by
  unfold setConsoleState
  split
  · exact Lawful.refl k s
  · exact (Lawful.ofMat k s _).trans (reviewBoot_lawful k _)

theorem handleCompletion_lawful (n : Word32) (i : Fin 32) : Lawful k s (handleCompletion k n s i) := by
  unfold handleCompletion
  dsimp only
  exact ((((markCompletion_lawful k s i _).trans (Lawful.ifThen fun _ => setConsoleState_lawful k _ _)).trans
    (Lawful.ifThen fun _ => setPatternHold_lawful k _ _)).trans (Lawful.ifThen fun _ => setPatternHold_lawful k _ _)).trans
    (Lawful.ifThen fun _ => tell_lawful k _ _ _)

/-- A byte that joins the open record and is matched: the record closes before it outgrows 240 bytes (R94, R95, R130). -/
theorem matchAppended_lawful (b : Byte) (marks time : Nat) :
    Lawful k s (matchByte k b (appendChar k b marks time s)) := by
  unfold matchByte
  dsimp only
  generalize hd : (appendChar k b marks time s).completing k b = done
  generalize ht : (advanceAll k b (appendChar k b marks time s)).modMat k (fun m => { m with lineStart := endsLine b }) = t
  let o : OpenRecord := ((s.cap k).openRecord.getD ⟨[], time, 0, 0⟩).append b marks
  have ho : (t.cap k).openRecord = some o := by rw [← ht]; simp [advanceAll, appendChar, o]
  have len : s.sizeLaw k → o.bytes.length ≤ 240 := fun z => by
    show (((s.cap k).openRecord.getD ⟨[], time, 0, 0⟩).append b marks).bytes.length ≤ 240
    cases g : (s.cap k).openRecord with
    | none => simp [OpenRecord.append]
    | some p => have := z.1 p g; simp [OpenRecord.append]; omega
  have base : Lawful k s (t.modCap k fun c => { c with openRecord := none }) := by
    have a : Lawful k s (s.modCap k fun c => { c with openRecord := none }) := Lawful.ofCapChain k s _ rfl (by simp)
    have e : t.modCap k (fun c => { c with openRecord := none }) =
        ((s.modCap k fun c => { c with openRecord := none }).modMat k fun m => { (t.mat k) with }) := by
      rw [← ht]
      simp [advanceAll, appendChar, State.modCap, State.modMat, State.mat, upd]
    rw [e]
    exact a.trans (Lawful.ofMat k _ _)
  have close (c : CloseCause) : Lawful k s (closeOpen k c t) := by
    unfold closeOpen
    rw [ho]
    exact ((base.when _).trans (putRecord_if k _ _ (dataRecord o c) id)).lawful len
  cases done with
  | cons i l =>
    refine (close .match).trans ?_
    exact foldl_lawful k _ (fun u j => handleCompletion_lawful k u _ j) _ _
  | nil =>
    simp only [ho]
    unfold State.ifThen
    split
    · exact close .full
    · rename_i h
      have a : LawfulIf (o.bytes.length < 240) k s t := by
        have r : Recorded (s.modMat k fun m => { (t.mat k) with }) t := by
          rw [← ht]
          refine ⟨rfl, rfl, rfl, rfl, rfl, rfl, ?_, rfl⟩
          simp [advanceAll, appendChar, State.modMat, State.mat, upd]
        have b := base.toSteady
        have c : (t.cap k).chain = (s.cap k).chain := by rw [← ht]; simp [advanceAll, appendChar]
        have m : t.mem = s.mem := by rw [← ht]; rfl
        have n : t.notice = s.notice := by rw [← ht]; rfl
        have pb : t.pool.blocks = s.pool.blocks := by rw [← ht]; rfl
        have pf : t.pool.free = s.pool.free := by rw [← ht]; rfl
        have oc : ∀ j, j ≠ k → t.cap j = s.cap j := fun j h => by rw [← ht]; simp [advanceAll, appendChar, h]
        refine ⟨⟨⟨⟨b.control, b.counters, b.front, oc, b.matching, b.input, b.data, b.summaries, b.table, b.loads, b.blocks⟩,
          b.pending, b.now, b.port, b.capacity, b.consumed, b.wf⟩, b.decodingKept, b.grantKept⟩, fun p => ?_, fun f => ?_,
          fun l z => ⟨fun p hp => ?_, ?_, ?_⟩, fun _ _ _ => ⟨congrArg EnginePort.regions b.port, by rw [n], pb, fun _ _ => by rw [m]⟩⟩
        · exact poolLaw_of_perm oc pb (by simp [pf, chainIndices, c]) p
        · unfold State.fillingLaw; rw [c]; exact f
        · rw [ho] at hp; simp at hp; subst hp; exact l
        · have e : t.inp k = s.inp k := r.inp k
          rw [e]; exact z.2.1
        · rw [c]; exact z.2.2
      exact a.lawful fun _ => by simp at h; exact h

/-! ## Line Control -/

/-- Entering a line state sets NOT_LIVE and the receiver as R20 and R150 say. -/
theorem enterState_lawful (state : LineState) : Lawful k s (enterState k state s) := by
  unfold enterState
  refine ⟨⟨⟨⟨fun j n => by simp [n], fun _ _ => rfl, fun j n => by simp [n], fun _ _ => rfl, fun _ _ => rfl,
    fun j n => by simp [n], fun _ _ => rfl, fun _ _ => rfl, rfl, rfl, rfl⟩, rfl, rfl, rfl, rfl, rfl, id⟩, fun d => ?_, id⟩, id, id,
    fun z => ⟨z.1, by simpa using z.2.1, z.2.2⟩, fun _ _ => ⟨rfl, rfl, rfl, fun _ _ => rfl⟩⟩
  have d2 := d.2
  refine ⟨by simp, ?_⟩
  simp only [modFe_fe_self, modInp_fe, modCtl_fe, modFe_ctl, modInp_ctl, modCtl_ctl_self]
  cases h : state.decoding
  · simp
  · cases g : (s.ctl k).state.decoding
    · simp [fresh_ne]
    · rw [g] at d2; simpa using d2

theorem writeLine_lawful (state : LineState) (cause : LineCause) : Lawful k s (writeLine k state cause s) :=
  record_lawful k s _ (by simp [lineRecord])

theorem setPeriod_lawful (p : Nat) (cause : LockCause) : Lawful k s (setPeriod k p cause s) :=
  (Lawful.ofCtl k s _ rfl).trans (record_lawful k _ _ (by simp [rateRecord, leBytes_length]))

theorem emptyHistory_lawful : Lawful k s (emptyHistory k s) := Lawful.ofCtl k s _ rfl

theorem rateChanged_lawful : Lawful k s (rateChanged k s) := (resetProgress_lawful k s).trans (setLineStart_lawful k _)

theorem becomePresent_lawful : Lawful k s (becomePresent k s) :=
  ((emptyHistory_lawful k s).trans (setLineStart_lawful k _)).trans (Lawful.ofInp k _ _ rfl id)

theorem tellLine_lawful (kind : NoticeKind) (state : LineState) (cause : LineCause) :
    Lawful k s (tellLine k kind state cause s) := tell_lawful k s _ _

/-- Choosing a line's state is the line's own work (R40). -/
theorem chooseState_lawful (cause : LineCause) : Lawful k s (chooseState k cause s) := by
  unfold chooseState
  have present := becomePresent_lawful k s
  split
  · split
    · exact (((present.trans (enterState_lawful k _ _)).trans (writeLine_lawful k _ _ _)).trans
        (setPeriod_lawful k _ _ _)).trans (tellLine_lawful k _ _ _ _)
    · exact ((((present.trans (enterState_lawful k _ _)).trans (writeLine_lawful k _ _ _)).trans
        (setPeriod_lawful k _ _ _)).trans (joinTail_lawful k _)).trans (tellLine_lawful k _ _ _ _)
    · exact ((((present.trans (enterState_lawful k _ _)).trans (Lawful.ofCtl k _ (fun c => { c with lockCause := .none }) rfl)).trans
        (writeLine_lawful k _ _ _)).trans (setPhase_lawful k _ _)).trans (tellLine_lawful k _ _ _ _)
  · exact (enterState_lawful k s _).trans (writeLine_lawful k _ _ _)

theorem cleanUp_lawful (close : CloseCause) (cut : CutReason) : Lawful k s (cleanUp k close cut s) := by
  unfold cleanUp
  exact ((((cutBreak_lawful k s).trans (closeOpen_lawful k _ _)).trans (cutEntry_lawful k _ _)).trans
    (Lawful.ofFe k _ (fun f => { f with flowPause := false }) fun _ => Iff.rfl)).trans (leaveMeasurement_lawful k _ _)

/-- Taking a line to OFF or DARK (R42, R49, R60). -/
theorem leaveLine_lawful (left : LineState) (cause : LineCause) (close : CloseCause) (cut : CutReason) :
    Lawful k s (leaveLine k left cause close cut s) := by
  unfold leaveLine
  exact ((((cleanUp_lawful k s close cut).trans (enterState_lawful k _ left)).trans (resetProgress_lawful k _)).trans
    (writeLine_lawful k _ left cause)).trans (Lawful.ifThen fun _ => tellLine_lawful k _ _ _ _)

theorem losePresence_lawful (cause : LineCause) : Lawful k s (losePresence k cause s) :=
  Lawful.ifThen fun _ => leaveLine_lawful k s _ _ _ _

theorem gainPresence_lawful : Lawful k s (gainPresence k s) := by
  unfold gainPresence
  exact Lawful.ifThen fun _ => (setConsoleState_lawful k s _).trans (chooseState_lawful k _ _)

theorem beginCheck_lawful (cause : Nat) : Lawful k s (beginCheck k cause s) := by
  unfold beginCheck
  exact (((enterState_lawful k s _).trans (emptyHistory_lawful k _)).trans (tell_lawful k _ _ _)).trans (joinTail_lawful k _)

theorem tellLocked_lawful (outcome : Nat) : Lawful k s (tellLocked k outcome s) := tell_lawful k s _ _

theorem rememberLock_lawful : Lawful k s (rememberLock k s) := Lawful.ofCtl k s _ rfl

theorem lockLine_lawful (proposed : Nat) : Lawful k s (lockLine k proposed s) := by
  unfold lockLine
  split
  · exact (((((enterState_lawful k s _).trans (setPeriod_lawful k _ _ _)).trans (rememberLock_lawful k _)).trans
      (emptyHistory_lawful k _)).trans (rateChanged_lawful k _)).trans (tellLocked_lawful k _ _)
  · split
    · exact ((enterState_lawful k s _).trans (rememberLock_lawful k _)).trans (tellLocked_lawful k _ _)
    · exact ((((((enterState_lawful k s _).trans (closeOpen_lawful k _ _)).trans (setPeriod_lawful k _ _ _)).trans
        (rememberLock_lawful k _)).trans (emptyHistory_lawful k _)).trans (rateChanged_lawful k _)).trans
        (tellLocked_lawful k _ _)
  · exact Lawful.refl k s

theorem failLine_lawful : Lawful k s (failLine k s) := by
  unfold failLine
  dsimp only
  split
  · exact (enterState_lawful k s _).trans (tell_lawful k _ _ _)
  · exact tell_lawful k s _ _

theorem tellNoisy_lawful (on : Bool) (errors : Nat) : Lawful k s (tellNoisy k on errors s) := tell_lawful k s _ _

theorem testHistory_lawful (errors : Nat) : Lawful k s (testHistory k errors s) := by
  unfold testHistory
  dsimp only
  split
  · split
    · exact Lawful.ifThen fun _ => beginCheck_lawful k s _
    · split
      · exact (Lawful.ofCtl k s (fun c => { c with noisy := true }) rfl).trans (tellNoisy_lawful k _ _ _)
      · split
        · exact (Lawful.ofCtl k s (fun c => { c with noisy := false }) rfl).trans (tellNoisy_lawful k _ _ _)
        · exact Lawful.refl k s
  · exact Lawful.refl k s

theorem countCharacter_lawful (c : Character) : Lawful k s (countCharacter k c s) := by
  unfold countCharacter
  dsimp only
  refine ((Lawful.ofCnt k s fun n => { n with
    bytesReceived := satAdd n.bytesReceived 1
    framingErrors := satAdd n.framingErrors (bit c.framingError)
    parityErrors := satAdd n.parityErrors (bit c.parityError) }).trans (Lawful.ofCtl k _
      (fun l => { l with windowChars := l.windowChars + 1, windowErrors := l.windowErrors + c.marks }) rfl)).trans ?_
  split
  · exact (Lawful.ofCtl k _ _ rfl).trans (testHistory_lawful k _ _)
  · exact Lawful.refl k _

theorem echoSeen_lawful (b : Byte) : Lawful k s (echoSeen k b s) := by
  unfold echoSeen
  split
  · exact Lawful.refl k s
  · rename_i e he
    split
    · exact Lawful.ifThen fun _ => (nextKeyOrEnd_if k s e).lawful fun z => z.2.1 e he
    · exact Lawful.refl k s

/-- Re-arming the probe is the line's own work (R164). -/
theorem rearm_lawful (c : Bool) : Lawful k s (s.ifThen c fun u => u.modInp k fun i => { i with armed := true }) :=
  Lawful.ifThen fun _ => Lawful.ofInp k s _ rfl id

/-- A delivered character is the line's own work (R22). -/
theorem deliver_lawful (c : Character) (charTime : Nat) : Lawful k s (deliver k c charTime s) := by
  unfold deliver
  dsimp only
  refine (Lawful.ofFe k s (fun f => { f with idle := some ⟨max (c.edge + charTime) s.now, charTime⟩ }) fun _ => Iff.rfl).trans ?_
  split
  · exact Lawful.ofFe k _ _ fun _ => Iff.rfl
  · exact (((countCharacter_lawful k _ c).trans (matchAppended_lawful k _ _ _ _)).trans (echoSeen_lawful k _ _)).trans
      (rearm_lawful k _ _)

/-! ## The 1 ms sample -/

theorem tellSignal_lawful (signal : Nat) (e : EdgeSelect) (b a : Bool) (r : Readings) :
    Lawful k s (tellSignal k signal e b a r s) := Lawful.ifThen fun _ => tell_lawful k s _ _

theorem sampleSignals_lawful (r : Readings) : Lawful k s (sampleSignals k r s) := by
  unfold sampleSignals
  exact Lawful.ifThen fun _ => (tellSignal_lawful k s _ _ _ _ _).trans (tellSignal_lawful k _ _ _ _ _ _)

theorem sampleFlow_lawful (r : Readings) : Lawful k s (sampleFlow k r s) :=
  Lawful.ifThen fun _ => Lawful.ofFe k s _ fun _ => Iff.rfl

theorem changeView_lawful (present : Bool) : Lawful k s (changeView k present s) := by
  unfold changeView
  refine (Lawful.ofFe k s (fun f => { f with view := present, contrary := 0 }) fun _ => Iff.rfl).trans ?_
  dsimp only
  split
  · exact gainPresence_lawful k _
  · exact losePresence_lawful k _ _

theorem samplePresence_lawful (r : Readings) : Lawful k s (samplePresence k r s) := by
  unfold samplePresence
  dsimp only
  split
  · exact Lawful.ofFe k s _ fun _ => Iff.rfl
  · split
    · exact changeView_lawful k s _
    · exact Lawful.ofFe k s _ fun _ => Iff.rfl

theorem sampleLatch_lawful (r : Readings) : Lawful k s (sampleLatch k r s) := by
  unfold sampleLatch
  dsimp only
  generalize (if r.mark then (s.fe k).highRun + 1 else 0) = run
  by_cases h : (s.cfg k).settle ≤ run
  · rw [if_pos h]
    exact (Lawful.ofFe k s (fun f => { f with latch := false, highRun := 0, contrary := 0 }) fun _ => Iff.rfl).trans
      (Lawful.ifThen fun _ => changeView_lawful k _ _)
  · rw [if_neg h]
    exact Lawful.ofFe k s _ fun _ => Iff.rfl

/-- One line's part of a sample is the line's own work (R31). -/
theorem sampleLine_lawful (p : Vector Pins 48) : Lawful k s (sampleLine p s k) := by
  unfold sampleLine
  dsimp only
  have h (r : Readings) := ((sampleSignals_lawful k s r).trans
    (Lawful.ofFe k _ (fun f => { f with readings := r }) fun _ => Iff.rfl)).trans (sampleFlow_lawful k _ r)
  refine (h (readPins (s.cfg k) p[k])).trans (Lawful.trans ?_ (settle_lawful k _))
  split
  · exact Lawful.refl k _
  · split
    · exact sampleLatch_lawful k _ _
    · exact samplePresence_lawful k _ _

/-! ## CONFIGURE and ENABLE -/

theorem takeSettings_lawful (n : Settings) : Lawful k s (takeSettings k n s) := by
  unfold takeSettings
  exact ((quotaChange_lawful k s n).trans (Lawful.ofCtl k _ _ rfl)).trans (reviewBoot_lawful k _)

theorem stopForRole_lawful : Lawful k s (stopForRole k s) := by
  unfold stopForRole
  split
  · exact (cutSentBreak_lawful k s _).trans (dropEntry_lawful k _)
  · exact (stopSending_lawful k s).trans (Lawful.ifThen fun _ => setEntryPhase_lawful k _ _)
  · exact stopSending_lawful k s

theorem changeRole_lawful (mark : Bool) : Lawful k s (changeRole k mark s) := by
  unfold changeRole
  dsimp only
  refine ((cutBreak_lawful k s).trans (stopForRole_lawful k _)).trans ?_
  generalize stopForRole k (cutBreak k s) = u
  refine Lawful.trans (t := u.modFe k _) (Lawful.ofFe k u _ fun d => ?_)
    (Lawful.ifThen fun _ => restartMeasurement_lawful k _)
  cases h : (u.ctl k).state.decoding
  · simp
  · have := d.2
    rw [h] at this
    simp [fresh_ne, this]

theorem configureRate_lawful (m : RateMode) : Lawful k s (configureRate k m s) := by
  unfold configureRate
  dsimp only
  split
  · exact ((leaveMeasurement_lawful k s _).trans (enterState_lawful k _ _)).trans (setPeriod_lawful k _ _ _)
  · exact ((leaveMeasurement_lawful k s _).trans (enterState_lawful k _ _)).trans
      (Lawful.ifThen fun _ => setPeriod_lawful k _ _ _)
  · exact Lawful.ifThen fun _ => setPeriod_lawful k _ _ _
  · exact beginCheck_lawful k s _
  · exact Lawful.refl k s

theorem configureMode_lawful (m : RateMode) : Lawful k s (configureMode k m s) := by
  unfold configureMode
  split
  · exact Lawful.ofCtl k s _ rfl
  · exact Lawful.ifThen fun _ => (Lawful.ofCtl k s (fun c => { c with noisy := false }) rfl).trans (tellNoisy_lawful k _ _ _)
  · exact Lawful.refl k s

theorem configureDecoding_lawful (p f r : Bool) : Lawful k s (configureDecoding k p f r s) := by
  unfold configureDecoding
  refine Lawful.ifThen fun _ => ?_
  exact (((closeOpen_lawful k s _).trans (resetProgress_lawful k _)).trans
    (Lawful.ifThen fun _ => emptyHistory_lawful k _)).trans (Lawful.ifThen fun _ => setLineStart_lawful k _)

theorem configureFront_lawful (o : Settings) : Lawful k s (configureFront k o s) := Lawful.ofFe k s _ fun _ => Iff.rfl

theorem configureTimers_lawful (o : Settings) : Lawful k s (configureTimers k o s) := by
  unfold configureTimers
  dsimp only
  exact ((((Lawful.ifThen fun _ => dataIntervalChanged_lawful k s).trans
    (Lawful.ifThen fun _ => (setSpaceHold_lawful k _).trans (losePresence_lawful k _ _))).trans
    (Lawful.ifThen fun _ => cutEntry_lawful k _ _)).trans (settle_lawful k _)).trans
    (Lawful.ifThen fun _ => (changeHolder_lawful k _ _ _).trans (settle_lawful k _))

/-- An accepted CONFIGURE is the line's own work (R45). -/
theorem configureLine_lawful (mark : Bool) (n : Settings) : Lawful k s (configureLine k mark n s) := by
  unfold configureLine
  dsimp only
  exact (((((takeSettings_lawful k s n).trans (configureDecoding_lawful k _ _ _ _)).trans
    (Lawful.ifThen fun _ => changeRole_lawful k _ _)).trans (configureRate_lawful k _ _)).trans
    (configureMode_lawful k _ _)).trans ((configureFront_lawful k _ _).trans (configureTimers_lawful k _ _))

/-- An accepted ENABLE is the line's own work (R41). -/
theorem enableLine_lawful (mark : Bool) (n : Settings) : Lawful k s (enableLine k mark n s) := by
  unfold enableLine
  dsimp only
  exact (((takeSettings_lawful k s n).trans (Lawful.ofFe k _ _ fun _ => Iff.rfl)).trans (chooseState_lawful k _ _)).trans
    (settle_lawful k _)

end

end Sys2Proof.Machine
end

