-- ==== Sys2Proof/Laws/Commands.lean ====
section
/-! SUPPORT. What the commands can do, as a whole. `Sound s t` keeps the laws of every tick for every line; `Worked k s t` adds
that only line `k` and the Engine Port changed. One lemma for each command's work on the state. -/

namespace Sys2Proof.Machine

/-- The queue and TIME stay, the regions in force stay, and every law of the tick is kept. -/
structure Sound (s t : State) : Prop where
  pending : t.pending = s.pending
  now : t.now = s.now
  regions : t.port.regions = s.port.regions
  capacity : t.notice.capacity = s.notice.capacity
  blocks : t.pool.blocks = s.pool.blocks
  wf : s.mem.wf → t.mem.wf
  decoding : (∀ k, s.decodingLaw k) → ∀ k, t.decodingLaw k
  grant : s.grantLaw → t.grantLaw
  pool : s.poolLaw → t.poolLaw
  filling : (∀ k, s.fillingLaw k) → ∀ k, t.fillingLaw k
  size : (∀ k, s.sizeLaw k) → ∀ k, t.sizeLaw k
  versions : s.versionLaw → t.versionLaw
  within : s.poolLaw → (∀ k, s.sizeLaw k) → Within s t

theorem Sound.refl (s : State) : Sound s s :=
  ⟨rfl, rfl, rfl, rfl, rfl, id, id, id, id, id, id, id, fun _ _ => Within.refl s⟩

theorem Sound.trans {s t u : State} (h : Sound s t) (g : Sound t u) : Sound s u :=
  ⟨g.pending.trans h.pending, g.now.trans h.now, g.regions.trans h.regions, g.capacity.trans h.capacity,
    g.blocks.trans h.blocks, fun w => g.wf (h.wf w), fun w => g.decoding (h.decoding w), fun w => g.grant (h.grant w),
    fun w => g.pool (h.pool w), fun w => g.filling (h.filling w), fun w => g.size (h.size w),
    fun w => g.versions (h.versions w), fun p z => (h.within p z).trans (g.within (h.pool p) (h.size z))⟩

/-- Work of one line keeps every line's laws. -/
theorem Lawful.sound {k : LineIx} {s t : State} (h : Lawful k s t) : Sound s t where
  pending := h.pending
  now := h.now
  regions := by rw [h.port]
  capacity := h.capacity
  blocks := h.blocks
  wf := h.wf
  decoding w j := by
    by_cases e : j = k
    · subst e; exact h.decodingKept (w j)
    · have := w j
      unfold State.decodingLaw at *
      rw [h.input j e, h.control j e, h.front j e]; exact this
  grant := h.grantKept
  pool := h.poolKept
  filling w j := by
    by_cases e : j = k
    · subst e; exact h.fillingKept (w j)
    · have := w j
      unfold State.fillingLaw at *
      rw [h.capture j e]; exact this
  size w j := by
    by_cases e : j = k
    · subst e; exact h.sizeKept (w j)
    · have := w j
      unfold State.sizeLaw at *
      rw [h.capture j e, h.input j e]; exact this
  versions w := by unfold State.versionLaw; rw [h.port]; exact w
  within p z := h.within p (z k)

/-- Work on line `k` and the Engine Port only. -/
structure Worked (k : LineIx) (s t : State) : Prop where
  apart : SameElsewhere k s t
  sound : Sound s t

theorem Worked.refl (k : LineIx) (s : State) : Worked k s s := ⟨SameElsewhere.refl k s, Sound.refl s⟩

theorem Worked.trans {k : LineIx} {s t u : State} (h : Worked k s t) (g : Worked k t u) : Worked k s u :=
  ⟨h.apart.trans g.apart, h.sound.trans g.sound⟩

theorem Lawful.worked {k : LineIx} {s t : State} (h : Lawful k s t) : Worked k s t := ⟨h.toSameElsewhere, h.sound⟩

theorem Worked.ifThen {k : LineIx} {s : State} {c : Bool} {f : State → State} (h : Worked k s (f s)) :
    Worked k s (s.ifThen c f) := by
  cases c
  · exact Worked.refl k s
  · exact h

/-- A change of the Engine Port that keeps the regions and every version. -/
theorem Worked.ofPort (k : LineIx) (s : State) (f : EnginePort → EnginePort) (r : (f s.port).regions = s.port.regions)
    (v : s.versionLaw → (s.modPort f).versionLaw) : Worked k s (s.modPort f) :=
  ⟨⟨fun _ _ => rfl, fun _ _ => rfl, fun _ _ => rfl, fun _ _ => rfl, fun _ _ => rfl, fun _ _ => rfl, fun _ _ => rfl,
    fun _ _ => rfl, rfl, rfl, rfl⟩, ⟨rfl, rfl, r, rfl, rfl, id, id, id, id, id, id, v, fun _ _ => ⟨r, rfl, rfl, fun _ _ => rfl⟩⟩⟩

/-- A change of the Engine Port that leaves the entries alone. -/
theorem Worked.ofPortEntries (k : LineIx) (s : State) (f : EnginePort → EnginePort)
    (r : (f s.port).regions = s.port.regions) (e : (f s.port).entries = s.port.entries) : Worked k s (s.modPort f) :=
  Worked.ofPort k s f r fun w i => by simpa [e] using w i

/-! ## Publishing (R176) -/

/-- Fields lie one after another from an offset on, none beyond 200h. -/
def fits : Nat → List (Nat × Nat) → Bool
  | here, [] => Nat.ble here 0x200
  | here, f :: fs => Nat.ble here f.1 && fits (f.1 + f.2) fs

/-- Where a field lies. -/
def StatusField.place (f : StatusField) : Nat × Nat := (f.offset, f.size)

theorem layFields_length (fresh : StatusField → Bool) (here : Nat) (old : List Byte) (fs : List StatusField)
    (h : fits here (fs.map StatusField.place) = true) (l : here + old.length ≤ 0x200 ∨ old.length + here = 0x200) :
    here + (layFields fresh here old fs).length ≤ 0x200 := by
  induction fs generalizing here old with
  | nil => simp [layFields, fits] at *; omega
  | cons f fs ih =>
    simp only [List.map_cons, fits, Bool.and_eq_true, StatusField.place, Nat.ble_eq] at h
    have bound : ∀ (a : Nat) (gs : List StatusField), fits a (gs.map StatusField.place) = true → a ≤ 0x200 := by
      intro a gs
      induction gs generalizing a with
      | nil => simp [fits]
      | cons g gs ih =>
        intro q
        simp only [List.map_cons, fits, Bool.and_eq_true, StatusField.place, Nat.ble_eq] at q
        have := ih _ q.2
        omega
    have b := bound _ _ h.2
    have := ih (f.offset + f.size) ((old.drop (f.offset - here)).drop f.size) h.2 (by
      simp only [List.length_drop]; omega)
    unfold layFields
    dsimp only
    simp only [List.length_append, List.length_replicate]
    have c : (if fresh f then leBytes f.size f.value else (old.drop (f.offset - here)).take f.size).length ≤ f.size := by
      split
      · rw [leBytes_length]
      · simp
    omega

/-- The status fields of an entry lie in rising offsets after its version. -/
theorem statusFields_fit (s : State) (i : EntryIx) :
    fits 0x84 ((s.statusFields i).map StatusField.place) = true := by
  unfold State.statusFields
  split <;> rfl

theorem length_take_slice (m : Mem) (a n : Nat) : (m.slice a n).length = n := by
  unfold Mem.slice
  generalize m.filter _ = l
  induction n generalizing l a with
  | zero => cases l <;> simp [Mem.run]
  | succ n ih =>
    cases l with
    | nil => simp [Mem.run, ih]
    | cons c l => obtain ⟨x, b⟩ := c; unfold Mem.run; split <;> simp [ih]

theorem load_length (s : State) (g : Regions → Region) (a n : Nat) : (s.load g a n).length = n := by
  unfold State.load
  split
  · simp
  · exact length_take_slice _ _ _

/-- A version stays even (R176). -/
theorem versionAt_even (p : PortEntry) (now : Nat) (h : p.version.toNat % 2 = 0) : (p.versionAt now).toNat % 2 = 0 := by
  unfold PortEntry.versionAt
  split
  · exact h
  · rw [BitVec.toNat_add]
    have : (2 : BitVec 32).toNat = 2 := rfl
    omega

theorem area_end (b o l x : Nat) (h : l ≤ 0x180) (hi : x < b + (o + 128) + l) : x < b + o + 0x200 := by omega

theorem writeStatus_worked (k : LineIx) (fresh : StatusField → Bool) (i : EntryIx) (s : State) :
    Worked k s (writeStatus fresh i s) := by
  unfold writeStatus
  dsimp only
  generalize hb : layFields (fun f => decide (f.offset = 128) || fresh f || s.beyondPins i f) 128
    (s.load Regions.lineTable (i.val * 512 + 128) 384)
    (⟨128, 4, (s.port.entries[i].versionAt s.now).toNat⟩ :: s.statusFields i) = bs
  have hl : bs.length ≤ 0x180 := by
    have := layFields_length (fun f => decide (f.offset = 128) || fresh f || s.beyondPins i f) 128
      (s.load Regions.lineTable (i.val * 512 + 128) 384)
      (⟨128, 4, (s.port.entries[i].versionAt s.now).toNat⟩ :: s.statusFields i)
      (by
        rw [List.map_cons]
        simp only [fits, StatusField.place, Bool.and_eq_true]
        exact ⟨by decide, statusFields_fit s i⟩) (by rw [load_length]; omega)
    rw [hb] at this
    omega
  clear hb
  have w : Within s (s.store Regions.lineTable (i.val * 512 + 128) bs) := by
    refine Within.ofStore s Regions.lineTable (i.val * 512 + 128) bs fun r e x lo hi => ?_
    refine Or.inl ⟨i, ?_⟩
    unfold State.statusArea
    exact ⟨r, e, by omega, area_end _ _ _ _ hl hi⟩
  have st : Worked k s (s.store Regions.lineTable (i.val * 512 + 128) bs) :=
    (Lawful.ofStore k s Regions.lineTable (i.val * 512 + 128) bs fun _ _ => w).worked
  have pe : (s.store Regions.lineTable (i.val * 512 + 128) bs).port = s.port := (store_recorded s _ _ _).port
  refine st.trans (Worked.ofPort k _ _ rfl fun w j => ?_)
  simp only [modPort_port, upd_get]
  split
  · refine versionAt_even _ _ ?_
    have := w i
    rwa [pe] at this
  · exact w j

theorem publish_worked (k : LineIx) (before s : State) : Worked k s (publish before s) := by
  unfold publish
  split
  · rename_i h
    clear h
    generalize List.finRange 49 = l
    induction l generalizing s with
    | nil => exact Worked.refl k s
    | cons i l ih =>
      refine Worked.trans (t := publishEntry before s i) ?_ (ih _)
      unfold publishEntry
      split
      · exact Worked.refl k s
      · exact writeStatus_worked k _ i s
  · exact Worked.refl k s

/-! ## The end of a tick (R88) -/

/-- The laws that a tick run again has to keep, one by one. -/
theorem lawsHold_iff (s : State) : s.lawsHold = true ↔
    (s.mem.wf ∧ s.regionsInside = true ∧ s.versionLaw ∧ s.haltedLaw) ∧ (s.grantLaw ∧ s.queueLaw ∧ s.measureLaw) ∧
      (s.pool.plan = Plan.none ∧ s.poolLaw ∧ s.reserveLaw) ∧
      (∀ k, s.decodingLaw k ∧ s.fillingLaw k ∧ s.sizeLaw k ∧ s.rangeLaw k) ∧ ∀ k, s.chainLaw k ∧ s.pinLaw k := by
  simp only [State.lawsHold, State.measurementsHold, Bool.and_eq_true, decide_eq_true_eq, and_assoc]

theorem partByte_iff (s : State) (a : Nat) : s.partByte a = true ↔ s.partArea a := by
  unfold State.partByte State.partArea State.statusArea State.ringArea State.poolArea
  cases s.port.regions with
  | none => simp
  | some r =>
    cases s.notice.capacity with
    | none => simp
    | some c => simp [or_assoc]

/-- The tick was run again, and the part that it leads to may stand in the place of the one before. -/
structure Reordered (s t : State) : Prop where
  frame : t = { s with toPart := t.toPart }
  become : s.mayBecome t

theorem reordered_some {ran : List Instr} {s t : State} (h : reordered ran s = some t) : Reordered s t := by
  unfold reordered at h
  split at h
  · split at h
    · simp at h
    · split at h
      · rename_i g
        simp only [Option.some.injEq] at h
        subst h
        exact ⟨rfl, g⟩
      · simp at h
  · simp at h

/-- A tick is run again until its takes are those it was run with. -/
theorem runInTurn_some {ran : List Instr} {s t : State} {n : Nat} {takes : List Take}
    (h : runInTurn ran s n takes = some t) : t = rerun ran t.pool.takes s := by
  induction n generalizing takes with
  | zero => simp [runInTurn] at h
  | succ n ih =>
    unfold runInTurn at h
    dsimp only at h
    split at h
    · rename_i g
      simp only [Option.some.injEq] at h
      rw [← h, g]
    · exact ih h

/-- Outside what the part writes, a tick that was run again left every byte as it was. -/
theorem Reordered.read {s t : State} (h : Reordered s t) {x : Nat} (n : ¬s.partArea x) : t.mem.read x = s.mem.read x := by
  have b : s.partByte x = false := by rw [← partByte_iff] at n; simpa using n
  have f (m : Mem) := Mem.find_filter m (fun a => !s.partByte a) x (by simp [b])
  unfold Mem.read
  rw [← f t.mem, ← f s.mem, h.become.2.1]

/-- A tick that was run again keeps every law. -/
theorem Reordered.sound {s t : State} (h : Reordered s t) : Sound s t := by
  obtain ⟨a, -, now, regions, blocks, capacity, -⟩ := h.become
  obtain ⟨⟨wf, -, versions, -⟩, ⟨grant, -, -⟩, ⟨-, pool, -⟩, lines, -⟩ := (lawsHold_iff t).mp a
  exact ⟨by rw [h.frame], now, regions, capacity, blocks, fun _ => wf, fun _ k => (lines k).1, fun _ => grant, fun _ => pool,
    fun _ k => (lines k).2.1, fun _ k => (lines k).2.2.1, fun _ => versions,
    fun _ _ => ⟨regions, capacity, blocks, fun _ n => h.read n⟩⟩

/-- The end of a tick: the takes have their choices, and the record of them begins anew. -/
theorem endTick_eq (ran : List Instr) (s : State) :
    ∃ t, (t = s ∨ Reordered s t) ∧ endTick ran s = { t with pool := { t.pool with takes := [] } } := by
  unfold endTick
  split
  · rename_i h; exact ⟨s, Or.inl rfl, by rw [← h]⟩
  · refine ⟨_, ?_, rfl⟩
    cases h : reordered ran s with
    | none => exact Or.inl rfl
    | some t => exact Or.inr (reordered_some h)

/-- The end of a tick keeps every law. -/
theorem endTick_sound (ran : List Instr) (s : State) : Sound s (endTick ran s) := by
  obtain ⟨t, r, e⟩ := endTick_eq ran s
  rw [e]
  have a : Sound s t := by
    rcases r with rfl | r
    · exact Sound.refl _
    · exact r.sound
  exact a.trans (planned_lawful 0 t [] t.pool.plan).sound

/-- The record of the tick is nothing of the manual's. -/
theorem record_sound (s : State) (ran : List Instr) (start : Part) : Sound s { s with ran := ran, start := start } :=
  ⟨rfl, rfl, rfl, rfl, rfl, id, id, id, id, id, id, id, fun _ _ => ⟨rfl, rfl, rfl, fun _ _ => rfl⟩⟩

/-- The part as an event finds it, before its tick is reached. -/
def State.beforeEvent (e : Event) (s : State) : State :=
  if s.now < e.tick then
    { endTick s.ran.dropLast s with ran := s.ran.drop (s.ran.length - 1), start := (endTick s.ran.dropLast s).toPart }
  else s

theorem arrive_met (e : Event) (s : State) : s.arrive e = (s.beforeEvent e).met e := by
  unfold State.arrive State.beforeEvent
  split <;> rfl

theorem beforeEvent_sound (e : Event) (s : State) : Sound s (s.beforeEvent e) := by
  unfold State.beforeEvent
  split
  · exact (endTick_sound _ s).trans (record_sound _ _ _)
  · exact Sound.refl s

theorem arrive_regions (e : Event) (s : State) : (s.arrive e).port.regions = s.port.regions := by
  rw [arrive_met]
  exact (beforeEvent_sound e s).regions

theorem arrive_regionsInside (e : Event) (s : State) : (s.arrive e).regionsInside = s.regionsInside := by
  unfold State.regionsInside
  rw [arrive_regions]

/-! ## The frame of a command -/

/-- What `perform` answers, when it answers a next state. -/
theorem perform_next {e : Event} {s t : State} {act : State → State} (h : perform e s act = .next t) :
    (s.arrive e).regionsInside = true ∧ t = publish (s.arrive e) (act (s.arrive e)) := by
  unfold perform at h
  dsimp only at h
  split at h
  · rename_i g
    simp at h
    exact ⟨g, h.symm⟩
  · simp at h

/-- What `respond` answers. -/
theorem respond_next {e : Event} {s t : State} {act : State → State} (h : respond e s act = .next t) :
    t = act (s.arrive e) := by
  unfold respond at h
  simp at h
  exact h.symm

/-- `perform` answers a next state exactly when the regions in force lie in the shared region. -/
theorem perform_eq {e : Event} {s : State} {act : State → State} (h : s.regionsInside = true) :
    perform e s act = .next (publish (s.arrive e) (act (s.arrive e))) := by
  unfold perform
  have : (s.arrive e).regionsInside = true := (arrive_regionsInside e s).trans h
  simp [this]

/-! ## Requests and answers -/

section
variable (k : LineIx) (s : State)

/-- A notice posted at any entry keeps the laws. -/
theorem post_sound (n : Notice) (h : n.args.length ≤ 16) : Sound s (post n s) := by
  unfold post
  split
  · exact (appendNotice_lawful 0 s n h (by assumption)).sound
  · exact ⟨rfl, rfl, rfl, rfl, rfl, id, id, id, id, id, id, id, fun _ _ => ⟨rfl, rfl, rfl, fun _ _ => rfl⟩⟩

/-- A notice posted at a line's own entry is the line's own work. -/
theorem post_worked (n : Notice) (h : n.args.length ≤ 16) (e : n.entry = entryOf k) : Worked k s (post n s) := by
  refine ⟨?_, post_sound s n h⟩
  unfold post
  split
  · exact (appendNotice_lawful k s n h (by assumption)).toSameElsewhere
  · refine ⟨fun _ _ => rfl, fun _ _ => rfl, fun _ _ => rfl, fun _ _ => rfl, fun _ _ => rfl, fun _ _ => rfl, fun _ _ => rfl,
      fun j n => ?_, rfl, rfl, rfl⟩
    have := entryOf_ne n
    simp [foldNotice, e, this]

theorem handProduce_lawful (c : Word32) : Lawful k s (handProduce k c s) := by
  unfold handProduce
  dsimp only
  refine (Lawful.ofInp k s (fun i => { i with produce := c }) rfl id).trans ?_
  split
  · exact (tell_lawful k _ _ _).trans (Lawful.ofInp k _ _ rfl id)
  · exact Lawful.refl k _

theorem lineOf_entryOf : lineOf (entryOf k) = some k := by
  unfold lineOf entryOf
  simp

theorem handCount_line (c : Word32) : handCount (entryOf k) c s = handProduce k c s := by
  unfold handCount
  rw [lineOf_entryOf]

theorem deliverSummary_sound (i : EntryIx) : Sound s (deliverSummary s i) := by
  unfold deliverSummary
  split
  · rename_i h
    refine (appendNotice_lawful 0 s (summaryNotice i s.notice.summaries[i] s.time)
      (by simp [summaryNotice, leBytes_length]) h.1).sound.trans ?_
    exact ⟨rfl, rfl, rfl, rfl, rfl, id, id, id, id, id, id, id, fun _ _ => ⟨rfl, rfl, rfl, fun _ _ => rfl⟩⟩
  · exact Sound.refl s

theorem Sound.foldl {α : Type} (f : State → α → State) (h : ∀ s a, Sound s (f s a)) (l : List α) (s : State) :
    Sound s (l.foldl f s) := by
  induction l generalizing s with
  | nil => exact Sound.refl s
  | cons a l ih => exact (h s a).trans (ih _)

theorem handConsume_sound (c : Word32) : Sound s (handConsume c s) := by
  unfold handConsume deliverSummaries
  refine Sound.trans ?_ (Sound.foldl _ (fun s i => deliverSummary_sound s i) _ _)
  exact ⟨rfl, rfl, rfl, rfl, rfl, id, id, id, id, id, id, id, fun _ _ => ⟨rfl, rfl, rfl, fun _ _ => rfl⟩⟩

theorem handCount_sound (i : EntryIx) (c : Word32) : Sound s (handCount i c s) := by
  unfold handCount
  split
  · exact handConsume_sound s c
  · exact (handProduce_lawful _ s c).sound

theorem lookOver_worked : Worked k s (lookOver s) := Worked.ofPortEntries k s _ rfl rfl

theorem onHead_lawful (kind : Nat) (act : RingEntry → State → State) (h : ∀ r, Lawful k s (act r s)) :
    Lawful k s (onHead k kind act s) := by
  unfold onHead
  split
  · exact (h _).trans (settle_lawful k _)
  · exact Lawful.refl k s

theorem keysTaken_short (r : RingEntry) : (s.keysTaken k r).keys.length ≤ 56 := by
  simp [State.keysTaken]

theorem considerKeys_lawful (r : RingEntry) : Lawful k s (considerKeys k r s) := by
  unfold considerKeys
  split
  · exact Lawful.refl k s
  · split
    · exact refuseHead_lawful k s r _
    · exact (takeHead_lawful k s _ (keysTaken_short k s r)).trans (Lawful.ifThen fun _ =>
        (completeKeys_if k _ _).lawful fun _ => keysTaken_short k s r)

theorem considerBreak_lawful (r : RingEntry) : Lawful k s (considerBreak k r s) := by
  unfold considerBreak
  split
  · exact Lawful.refl k s
  · split
    · exact refuseHead_lawful k s r _
    · split
      · exact takeHead_lawful k s _ (by simp [State.breakTaken])
      · exact refuseHead_lawful k s r _

theorem considerTake_lawful (r : RingEntry) : Lawful k s (considerTake k r s) := by
  unfold considerTake
  split
  · exact (consumeHead_lawful k s).trans (changeHolder_lawful k _ _ _)
  · split
    · exact (consumeHead_lawful k s).trans (restartGrant_lawful k _)
    · exact refuseHead_lawful k s r _

theorem considerGive_lawful (r : RingEntry) : Lawful k s (considerGive k r s) := by
  unfold considerGive
  split
  · exact (consumeHead_lawful k s).trans (changeHolder_lawful k _ _ _)
  · exact refuseHead_lawful k s r _

theorem considerSteal_lawful (r : RingEntry) : Lawful k s (considerSteal k r s) := by
  unfold considerSteal
  split
  · exact refuseHead_lawful k s r _
  · split
    · exact (consumeHead_lawful k s).trans (restartGrant_lawful k _)
    · exact (consumeHead_lawful k s).trans (changeHolder_lawful k _ _ _)

theorem refuseBadHead_lawful : Lawful k s (refuseBadHead k s) := by
  unfold refuseBadHead
  split
  · split
    · exact refuseHead_lawful k s _ _
    · split
      · exact refuseHead_lawful k s _ _
      · exact Lawful.refl k s
  · exact Lawful.refl k s

theorem considerHead_lawful : Lawful k s (considerHead k s) := by
  unfold considerHead
  split
  · split
    · exact onHead_lawful k s _ _ fun r => considerKeys_lawful k s r
    · split
      · exact onHead_lawful k s _ _ fun r => considerBreak_lawful k s r
      · split
        · exact onHead_lawful k s _ _ fun r => considerTake_lawful k s r
        · split
          · exact onHead_lawful k s _ _ fun r => considerGive_lawful k s r
          · exact onHead_lawful k s _ _ fun r => considerSteal_lawful k s r
  · exact refuseBadHead_lawful k s

theorem considerHeads_lawful (n : Nat) : Lawful k s (considerHeads k n s) := by
  induction n generalizing s with
  | zero => exact Lawful.refl k s
  | succ n ih =>
    unfold considerHeads
    dsimp only
    split
    · exact considerHead_lawful k s
    · exact (considerHead_lawful k s).trans (ih _)

theorem takeCount_line (c : Word32) : takeCount (entryOf k) c s = considerHeads k 32 (handProduce k c s) := by
  unfold takeCount
  rw [lineOf_entryOf, handCount_line]

/-- A count of a line that is taken before the request is the line's own work. -/
theorem takeCount_lawful (c : Word32) : Lawful k s (takeCount (entryOf k) c s) := by
  rw [takeCount_line]
  exact (handProduce_lawful k s c).trans (considerHeads_lawful k _ 32)

theorem takeCount_sound (i : EntryIx) (c : Word32) : Sound s (takeCount i c s) := by
  unfold takeCount
  split
  · exact handCount_sound s i c
  · exact (handCount_sound s i c).trans (considerHeads_lawful _ _ 32).sound

/-- The end of a look is sound when what it does with the request is. -/
theorem endLook_sound (i : EntryIx) (first : Bool) (deal : State → State) (h : ∀ u, Sound u (deal u)) :
    Sound s (endLook i first deal s) := by
  refine (lookOver_worked 0 s).sound.trans ?_
  unfold endLook State.lookOrder
  split
  · exact (h _).trans (handCount_sound _ i _)
  · exact (takeCount_sound _ i _).trans (h _)

/-- The end of a look at a line's entry is the line's own work when what it does with the request slot is. -/
theorem endLook_worked (first : Bool) (deal : State → State) (h : ∀ u, Worked k u (deal u)) :
    Worked k s (endLook (entryOf k) first deal s) := by
  refine (lookOver_worked k s).trans ?_
  unfold endLook State.lookOrder
  rw [handCount_line]
  split
  · exact (h _).trans (handProduce_lawful k _ _).worked
  · exact (takeCount_lawful k _ _).worked.trans (h _)

/-- The answer fields of an entry (R179). -/
theorem answered_worked (r : Request) (code : AnswerCode) (detail : Nat) :
    Worked k s (s.modPort fun p => { p with
      entries := upd p.entries r.entry fun q => { q with answered := r.number, code := code, detail := detail } }) :=
  Worked.ofPort k s _ rfl fun w i => by
    simp only [modPort_port, upd_get]
    split
    · exact w r.entry
    · exact w i

theorem answer_sound (r : Request) (code : AnswerCode) (detail : Nat) : Sound s (answer r code detail s) := by
  unfold answer
  exact (answered_worked 0 s r code detail).sound.trans (post_sound _ _ (by simp [answerArgs, leBytes_length]))

theorem answer_worked (r : Request) (code : AnswerCode) (detail : Nat) (h : r.entry = entryOf k) :
    Worked k s (answer r code detail s) := by
  unfold answer
  rw [h]
  exact (h ▸ answered_worked k s r code detail).trans (post_worked k _ _ (by simp [answerArgs, leBytes_length]) rfl)

theorem carryOut_sound (r : Request) (act : Request → State → Reply) (h : Sound s (act r s).state) :
    Sound s (carryOut r act s) := h.trans (answer_sound _ r _ _)

theorem carryOut_worked (r : Request) (act : Request → State → Reply) (e : r.entry = entryOf k)
    (h : Worked k s (act r s).state) : Worked k s (carryOut r act s) := h.trans (answer_worked k _ r _ _ e)

theorem newRequest_entry {i : EntryIx} {r : Request} (h : s.newRequest i = some r) : r.entry = i := by
  unfold State.newRequest at h
  split at h
  · simp at h
  · cases h; rfl

theorem takenAt_entry {i : EntryIx} {kind : Nat} {r : Request} (h : s.takenAt i kind = some r) : r.entry = i := by
  unfold State.takenAt at h
  split at h
  · exact newRequest_entry s (Option.filter_eq_some_iff.mp h).1
  · simp at h

/-- A line request is the line's own work. -/
theorem onRequest_worked (kind : Nat) (first : Bool) (act : Request → State → Reply)
    (h : ∀ r u, Worked k u (act r u).state) : Worked k s (onRequest (entryOf k) kind first act s) := by
  unfold onRequest
  split
  · exact Worked.refl k s
  · rename_i r e
    exact endLook_worked k s first _ fun u => carryOut_worked k u r act (takenAt_entry s e) (h r u)

theorem onRequest_sound (i : EntryIx) (kind : Nat) (first : Bool) (act : Request → State → Reply)
    (h : ∀ r u, Sound u (act r u).state) : Sound s (onRequest i kind first act s) := by
  unfold onRequest
  split
  · exact Sound.refl s
  · exact endLook_sound s i first _ fun u => carryOut_sound u _ act (h _ u)

/-! ## Each line command's work -/

theorem enableRequest_lawful (mark : Bool) : Lawful k s (enableRequest k mark s).state := by
  unfold enableRequest
  split
  · split
    · exact Lawful.refl k s
    · exact enableLine_lawful k s mark _
  · exact Lawful.refl k s

theorem disableRequest_lawful : Lawful k s (disableRequest k s).state := by
  unfold disableRequest
  split
  · exact Lawful.refl k s
  · exact (leaveLine_lawful k s _ _ _ _).trans (settle_lawful k _)

theorem configureRequest_lawful (mark : Bool) : Lawful k s (configureRequest k mark s).state := by
  unfold configureRequest
  split
  · exact Lawful.refl k s
  · exact configureLine_lawful k s mark _

theorem relockRequest_lawful : Lawful k s (relockRequest k s).state := by
  unfold relockRequest
  split
  · split
    · exact (beginCheck_lawful k s _).trans (settle_lawful k _)
    · exact restartMeasurement_lawful k s
    · exact restartMeasurement_lawful k s
    · exact Lawful.refl k s
  · exact Lawful.refl k s

theorem resetCountersRequest_lawful : Lawful k s (resetCountersRequest k s).state := Lawful.ofCnt k s _

theorem clearCaptureRequest_lawful (r : Request) : Lawful k s (clearCaptureRequest k r s).state :=
  clearCapture_lawful k s _

theorem pinNowRequest_lawful (r : Request) : Lawful k s (pinNowRequest k r s).state := by
  unfold pinNowRequest
  split
  · exact Lawful.refl k s
  · exact createPin_lawful k s _ _ _ _

theorem unpinRequest_lawful (r : Request) : Lawful k s (unpinRequest k r s).state := by
  unfold unpinRequest
  split
  · exact Lawful.refl k s
  · exact removePin_lawful k s _

theorem setConsoleRequest_lawful (r : Request) : Lawful k s (setConsoleRequest k r s).state := by
  unfold setConsoleRequest
  split
  · exact Lawful.refl k s
  · exact (setConsoleState_lawful k s _).trans (settle_lawful k _)

theorem setHostHold_lawful (hold : Bool) : Lawful k s (setHostHold k hold s) := Lawful.ofInp k s _ rfl id

theorem holdInputRequest_lawful : Lawful k s (holdInputRequest k s).state :=
  (setHostHold_lawful k s true).trans (settle_lawful k _)

theorem openInputRequest_lawful : Lawful k s (openInputRequest k s).state :=
  (setHostHold_lawful k s false).trans (settle_lawful k _)

theorem handOff_lawful : Lawful k s (handOff k s) := by
  unfold handOff
  split
  · exact Lawful.refl k s
  · exact Lawful.ifThen fun _ => judgeHandOff_lawful k s _ _

theorem countSent_lawful : Lawful k s (countSent k s) := Lawful.ofCnt k s _

theorem probeSent_lawful (i : SentItem) : Lawful k s (probeSent k i s) := by
  unfold probeSent
  exact ((Lawful.ofInp k s (fun p => { p with armed := false }) rfl id).trans
    (record_lawful k _ _ (by simp [probeRecord]))).trans (restartSilence_lawful k _)

theorem afterKey_if (b : Byte) (e : InFlight) : LawfulIf (e.keys.length ≤ 56) k s (afterKey k b e s) := by
  unfold afterKey
  split
  · exact (setEntryPhase_lawful k s _).when _
  · exact nextKeyOrEnd_if k s e

theorem keySent_lawful (i : SentItem) : Lawful k s (keySent k i s) := by
  unfold keySent
  split
  · exact Lawful.refl k s
  · rename_i e he
    dsimp only
    have a : Lawful k s (s.modInp k fun p => { p with entry := some { e with sent := e.sent + 1 }, lastKeyEnd := some s.now }) :=
      Lawful.ofInp k s _ rfl fun z d hd => by
        simp at hd
        subst hd
        exact z e he
    exact ((a.when _).trans (afterKey_if k _ i.byte { e with sent := e.sent + 1 })).lawful fun z => z.2.1 e he

theorem endCharacter_lawful : Lawful k s (endCharacter k s) := by
  unfold endCharacter
  split
  · split
    · dsimp only
      refine ((setTransmitter_lawful k s .idle).trans (countSent_lawful k _)).trans (Lawful.trans ?_ (settle_lawful k _))
      split
      · exact probeSent_lawful k _ _
      · exact keySent_lawful k _ _
    · exact Lawful.refl k s
  · exact Lawful.refl k s

theorem endLineEnd_lawful : Lawful k s (endLineEnd k s) := by
  unfold endLineEnd
  split
  · exact Lawful.refl k s
  · rename_i e he
    split
    · exact Lawful.ifThen fun _ => ((nextKeyOrEnd_if k s e).lawful fun z => z.2.1 e he).trans (settle_lawful k _)
    · exact Lawful.refl k s

theorem stallEntry_lawful : Lawful k s (stallEntry k s) :=
  Lawful.ifThen fun _ => (cutEntry_lawful k s _).trans (settle_lawful k _)

theorem lapseGrant_lawful : Lawful k s (lapseGrant k s) :=
  Lawful.ifThen fun _ => (changeHolder_lawful k s _ _).trans (settle_lawful k _)

theorem breakIsSent_lawful (start d : Nat) : Lawful k s (breakIsSent k start d s) := by
  unfold breakIsSent
  dsimp only
  split
  · exact setTransmitter_lawful k s _
  · exact ((setTransmitter_lawful k s _).trans (record_lawful k _ _ (by simp [breakOutRecord, leBytes_length]))).trans
      (dropEntry_lawful k _)

theorem endSpace_lawful : Lawful k s (endSpace k s) := by
  unfold endSpace
  split
  · exact Lawful.ifThen fun _ => (breakIsSent_lawful k s _ _).trans (settle_lawful k _)
  · exact Lawful.refl k s

theorem endRecovery_lawful : Lawful k s (endRecovery k s) := by
  unfold endRecovery
  split
  · exact Lawful.ifThen fun _ => (setTransmitter_lawful k s _).trans (settle_lawful k _)
  · exact Lawful.refl k s

theorem handProbe_lawful : Lawful k s (handProbe k s) := by
  unfold handProbe
  exact Lawful.ifThen fun _ => (Lawful.ofFe k s (fun f => { f with probeHanded := true }) fun _ => Iff.rfl).trans
    (settle_lawful k _)

theorem falling_stopped (c : StartEdge) (r : Receiver) : r.falling c = .stopped ↔ r = .stopped := by
  cases r <;> simp [Receiver.falling]
  split <;> simp_all

theorem rising_stopped (d n : Nat) (r : Receiver) : r.rising d n = .stopped ↔ r = .stopped := by
  cases r <;> simp [Receiver.rising]
  split <;> simp

theorem fallMeasured_lawful : Lawful k s (fallMeasured k s) := by
  unfold fallMeasured
  split
  · exact joinTail_lawful k s
  · exact onChannel_lawful k s _
  · exact Lawful.refl k s

theorem fallHeard_lawful : Lawful k s (fallHeard k s) := by
  unfold fallHeard
  exact ((withdrawProbe_lawful k s).trans (restartSilence_lawful k _)).trans (Lawful.ofInp k _ _ rfl id)

theorem fallEdge_lawful : Lawful k s (fallEdge k s) := by
  unfold fallEdge
  split
  · dsimp only
    exact (Lawful.ofFe k s (fun f => { f with mark := false, receiver := f.receiver.falling (s.startEdge k) })
      fun _ => falling_stopped _ _).trans
      (Lawful.ifThen fun _ => (fallMeasured_lawful k _).trans (fallHeard_lawful k _))
  · exact Lawful.refl k s

theorem riseEdge_lawful : Lawful k s (riseEdge k s) := by
  unfold riseEdge
  split
  · exact Lawful.refl k s
  · exact (Lawful.ofFe k s (fun f => { f with mark := true, receiver := f.receiver.rising (s.cfg k).deglitch s.now })
      fun _ => rising_stopped _ _ _).trans (onChannel_lawful k _ _)

theorem afterHigh_ne (c : StartEdge) (n : Nat) (w : Wave) : afterHigh c n w ≠ .stopped := by
  unfold afterHigh
  split
  · split <;> simp
  · simp

theorem resting_ne (w : Wave) : w.resting ≠ .stopped := by
  unfold Wave.resting
  split <;> simp

theorem confirmStart_lawful : Lawful k s (confirmStart k s) := by
  unfold confirmStart
  split
  · rename_i h
    split
    · split
      · exact (setReceiver_lawful k s _ (by simp) (by simp [h])).trans (stopIdle_lawful k _)
      · exact setReceiver_lawful k s _ (afterHigh_ne _ _ _) (by simp [h])
    · exact Lawful.refl k s
  · exact Lawful.refl k s

theorem holdBack_lawful : Lawful k s (holdBack k s) := by
  unfold holdBack
  split
  · rename_i h
    exact Lawful.ifThen fun _ => setReceiver_lawful k s _ (by simp) (by simp [h])
  · exact Lawful.refl k s

/-- The receiver that delivers is not STOPPED, before or after. -/
theorem delivered_ne {c : Character} {n : Nat} {r : Receiver} (h : s.delivered k = some (c, n, r)) :
    r ≠ .stopped ∧ (s.fe k).receiver ≠ .stopped := by
  unfold State.delivered at h
  split at h
  · rename_i e
    refine ⟨?_, by simp [e]⟩
    split at h
    · split at h
      · simp at h; rw [← h.2.2]; exact afterHigh_ne _ _ _
      · split at h
        · simp at h; rw [← h.2.2]; exact resting_ne _
        · simp at h
    · simp at h
  · rename_i e
    refine ⟨?_, by simp [e]⟩
    split at h
    · simp at h; rw [← h.2.2]; exact resting_ne _
    · simp at h
  · simp at h

theorem deliverNow_lawful : Lawful k s (deliverNow k s) := by
  unfold deliverNow
  split
  · exact Lawful.refl k s
  · rename_i e
    have n := delivered_ne k s e
    exact ((setReceiver_lawful k s _ n.1 n.2).trans (deliver_lawful k _ _ _)).trans (settle_lawful k _)

theorem recordGap_lawful : Lawful k s (s.ifThen (s.gapDue k) fun u => stopIdle k (closeOpen k .gap u)) :=
  Lawful.ifThen fun _ => (closeOpen_lawful k s _).trans (stopIdle_lawful k _)

theorem beginBreak_lawful : Lawful k s (beginBreak k s) := by
  unfold beginBreak
  split
  · rename_i h
    exact Lawful.ifThen fun _ => ((setReceiver_lawful k s _ (by simp) (by simp [h])).trans (Lawful.ofCnt k _ _)).trans
      (closeOpen_lawful k _ _)
  · exact Lawful.refl k s

theorem endBreak_lawful : Lawful k s (endBreak k s) := by
  unfold endBreak
  split
  · rename_i h
    exact Lawful.ifThen fun _ => (setReceiver_lawful k s _ (fresh_ne _) (by simp [h])).trans (reportBreak_lawful k _ _ _ _)
  · exact Lawful.refl k s

theorem spaceHold_lawful :
    Lawful k s (s.ifThen (s.spaceHoldDue k) fun u => settle k (losePresence k .spaceHold (setSpaceHold k u))) :=
  Lawful.ifThen fun _ => ((setSpaceHold_lawful k s).trans (losePresence_lawful k _ _)).trans (settle_lawful k _)

theorem evaluate_lawful (c : Channel) : Lawful k s (evaluate k c s) := by
  unfold evaluate
  split
  · exact (leaveMeasurement_lawful k s _).trans (lockLine_lawful k _ _)
  · exact (leaveMeasurement_lawful k s _).trans (failLine_lawful k _)
  · exact onChannel_lawful k s _

theorem evaluateWindow_lawful : Lawful k s (evaluateWindow k s) := by
  unfold evaluateWindow
  split
  · exact Lawful.refl k s
  · exact Lawful.ifThen fun _ => (evaluate_lawful k s _).trans (settle_lawful k _)

theorem windowTimedOut_lawful : Lawful k s (windowTimedOut k s) := by
  unfold windowTimedOut
  split
  · exact Lawful.refl k s
  · exact Lawful.ifThen fun _ => leaveMeasurement_lawful k s _

theorem endHalting_worked : Worked k s (endHalting s) := Worked.ifThen (Worked.ofPortEntries k s _ rfl rfl)

theorem haltLine_worked : Worked k s (haltLine k s) := by
  unfold haltLine
  split
  · exact ((leaveLine_lawful k s _ _ _ _).trans (settle_lawful k _)).worked.trans (endHalting_worked k _)
  · exact Worked.refl k s

end

/-! ## The commands of the part -/

section
variable (s : State)

theorem portOnly_sound (f : EnginePort → EnginePort) (r : (f s.port).regions = s.port.regions)
    (e : (f s.port).entries = s.port.entries) : Sound s (s.modPort f) := (Worked.ofPortEntries 0 s f r e).sound

theorem hostLinkReset_sound : Sound s { s with
    notice := { s.notice with attention := false }
    port := { s.port with prompts := Vector.replicate 49 false } } :=
  ⟨rfl, rfl, rfl, rfl, rfl, id, id, id, id, id, id, id, fun _ _ => ⟨rfl, rfl, rfl, fun _ _ => rfl⟩⟩

theorem startEngine_sound (keep : Bool) : Sound s (startEngine keep s) := by
  unfold startEngine
  split <;> exact portOnly_sound s _ rfl rfl

theorem haltEngine_sound : Sound s (haltEngine s) := by
  unfold haltEngine
  split
  · exact Sound.refl s
  · exact (portOnly_sound s _ rfl rfl).trans (endHalting_worked 0 _).sound
  · exact portOnly_sound s _ rfl rfl

theorem addPrompt_sound (v : Word32) : Sound s (addPrompt v s) := by
  unfold addPrompt
  split
  · exact portOnly_sound s _ rfl rfl
  · exact Sound.refl s

theorem writeAttention_sound (v : Word32) : Sound s (writeAttention v s) := by
  unfold writeAttention
  exact ((Lawful.ofNotice 0 s (fun n => { n with attention := v.getLsbD 0 }) rfl rfl (fun _ _ => rfl) (fun _ _ => rfl)).trans
    (Lawful.ifThen fun _ => raiseAttention_lawful 0 _)).sound

theorem readTimeLow_sound : Sound s (readTimeLow s) := portOnly_sound s _ rfl rfl

theorem takeLook_sound : Sound s (takeLook s) := by
  unfold takeLook
  split
  · split
    · rename_i i _
      refine (Worked.ofPort 0 s _ rfl fun w j => ?_).sound
      simp only [modPort_port, upd_get]
      split
      · exact w i
      · exact w j
    · exact Sound.refl s
  · exact Sound.refl s

theorem loadPatternsRequest_sound : Sound s (loadPatternsRequest s).state := by
  unfold loadPatternsRequest
  split
  · exact Sound.refl s
  · exact ⟨rfl, rfl, rfl, rfl, rfl, id, id, id, id, id, id, id, fun _ _ => ⟨rfl, rfl, rfl, fun _ _ => rfl⟩⟩

theorem applySettingsRequest_sound : Sound s (applySettingsRequest s).state := by
  refine (Worked.ofPort 0 s (fun p => { p with
    scan := s.selector
    entries := tab fun i => p.entries[i].rescanned s.selector }) rfl fun w i => ?_).sound
  simp only [modPort_port, Fin.getElem_fin, tab_get]
  have := w i
  unfold PortEntry.rescanned
  split <;> exact this

theorem unknownRequest_sound (r : Request) : Sound s (unknownRequest r s).state := Sound.refl s

theorem answerUnknown_sound (first : Bool) : Sound s (answerUnknown first s) := by
  unfold answerUnknown
  split
  · exact Sound.refl s
  · exact endLook_sound s _ first _ fun u => carryOut_sound u _ _ (unknownRequest_sound u _)

theorem lineRequest_lawful (k : LineIx) (mark : Bool) (r : Request) : Lawful k s (lineRequest k mark r s).state := by
  unfold lineRequest
  repeat' split
  · exact enableRequest_lawful k s mark
  · exact disableRequest_lawful k s
  · exact configureRequest_lawful k s mark
  · exact relockRequest_lawful k s
  · exact resetCountersRequest_lawful k s
  · exact clearCaptureRequest_lawful k s r
  · exact pinNowRequest_lawful k s r
  · exact unpinRequest_lawful k s r
  · exact setConsoleRequest_lawful k s r
  · exact holdInputRequest_lawful k s
  · exact openInputRequest_lawful k s
  · exact Lawful.refl k s

theorem controlRequest_sound (r : Request) : Sound s (controlRequest r s).state := by
  unfold controlRequest
  split
  · exact loadPatternsRequest_sound s
  · split
    · exact applySettingsRequest_sound s
    · exact Sound.refl s

theorem ownerActs_sound (i : EntryIx) (mark : Bool) (r : Request) : Sound s (ownerActs i mark r s).state := by
  unfold ownerActs
  split
  · exact (lineRequest_lawful s _ mark r).sound
  · exact controlRequest_sound s r

theorem finishLook_sound (first mark : Bool) : Sound s (finishLook first mark s) := by
  unfold finishLook
  split
  · exact (lookOver_worked 0 s).sound
  · split
    · exact (lookOver_worked 0 s).sound.trans (handCount_sound _ _ _)
    · exact endLook_sound s _ first _ fun u => carryOut_sound u _ _ (ownerActs_sound u _ mark _)

theorem sampleAll_sound (p : Vector Pins 48) : Sound s (sampleAll p s) := by
  unfold sampleAll
  have h := Sound.foldl (sampleLine p) (fun s k => (sampleLine_lawful k s p).sound) (List.finRange 48) s
  generalize (List.finRange 48).foldl (sampleLine p) s = t at h
  exact h.trans (portOnly_sound t _ rfl rfl)

end

/-! ## START (R171) -/

section
variable (s : State)

theorem writeAll_sound (l : List EntryIx) :
    Sound s (l.foldl (fun t i => writeStatus (fun _ => true) i t) s) :=
  Sound.foldl (fun t i => writeStatus (fun _ => true) i t) (fun t i => (writeStatus_worked 0 _ i t).sound) l s

theorem acceptStart_sound : Sound (startedState s) (acceptStart s) := writeAll_sound _ _

@[simp] theorem startedState_mem : (startedState s).mem = s.mem := by
  unfold startedState
  dsimp only
  split <;> rfl

@[simp] theorem startedState_pending : (startedState s).pending = s.pending := by
  unfold startedState
  dsimp only
  split <;> rfl

@[simp] theorem startedState_now : (startedState s).now = s.now := by
  unfold startedState
  dsimp only
  split <;> rfl

@[simp] theorem startedState_rate : (startedState s).rate = RateFinder.reset := by
  unfold startedState
  dsimp only
  split <;> rfl

/-- Every line is OFF after START, with its receiver STOPPED and its gate holding NOT_LIVE. -/
theorem startedState_line (k : LineIx) : ((startedState s).ctl k).state = .off ∧
    ((startedState s).fe k).receiver = .stopped ∧ ((startedState s).inp k).gate.notLive = true ∧
    ((startedState s).inp k).entry = none ∧ ((startedState s).cap k).openRecord = none := by
  unfold startedState
  dsimp only
  split
  · simp [keptBlocks, State.ctl, State.fe, State.inp, State.cap, Control.kept, FrontEnd.started, InputLine.kept,
      InputLine.started, InputLine.reset]
  · simp [freshBlocks, State.ctl, State.fe, State.inp, State.cap, Control.reset, FrontEnd.started, InputLine.started,
      InputLine.reset, Pool.fresh, Capture.reset]

/-- A kept START keeps every chain and the free list; a fresh one has none and 1 to N (R103, R104). -/
theorem startedState_pool :
    (s.startKeeps = true → (startedState s).pool.free = s.pool.free ∧ (startedState s).pool.blocks = s.pool.blocks ∧
      ∀ k, ((startedState s).cap k).chain = (s.cap k).chain) ∧
    (s.startKeeps = false → (startedState s).pool = Pool.fresh (poolBlocks s.directory.pool)) := by
  unfold startedState
  dsimp only
  constructor
  · intro h
    simp [h, keptBlocks, State.cap]
  · intro h
    simp [h, freshBlocks]

theorem fresh_chain (n : Nat) (t : State) (h : t.pool = Pool.fresh n) (k : LineIx) : (t.cap k).chain = [] := by
  simp [State.cap, h, Pool.fresh, Capture.reset]

theorem startedState_poolLaw (h : s.poolLaw) : (startedState s).poolLaw := by
  obtain ⟨kept, fresh⟩ := startedState_pool s
  cases e : s.startKeeps
  · have p := fresh e
    unfold State.poolLaw heldIndices
    have c : chainIndices (startedState s) = fun _ => [] := by
      funext k
      simp [chainIndices, fresh_chain _ _ p k]
    have z : ∀ l : List LineIx, l.flatMap (fun _ => ([] : List Nat)) = [] := fun l => by induction l <;> simp_all
    rw [c, p, z]
    simp [Pool.fresh]
  · obtain ⟨f, b, c⟩ := kept e
    unfold State.poolLaw heldIndices at *
    have ch : chainIndices (startedState s) = chainIndices s := by
      funext k
      simp [chainIndices, c k]
    rw [f, b, ch]
    exact h

theorem startedState_filling (h : ∀ k, s.fillingLaw k) (k : LineIx) : (startedState s).fillingLaw k := by
  obtain ⟨kept, fresh⟩ := startedState_pool s
  unfold State.fillingLaw
  cases e : s.startKeeps
  · rw [fresh_chain _ _ (fresh e) k]; simp
  · rw [(kept e).2.2 k]; exact h k

theorem startedState_size (h : ∀ k, s.sizeLaw k) (k : LineIx) : (startedState s).sizeLaw k := by
  obtain ⟨kept, fresh⟩ := startedState_pool s
  obtain ⟨-, -, -, e, o⟩ := startedState_line s k
  refine ⟨by simp [o], by simp [e], ?_⟩
  cases e : s.startKeeps
  · rw [fresh_chain _ _ (fresh e) k]; simp
  · rw [(kept e).2.2 k]; exact (h k).2.2

theorem startedState_versions (h : s.versionLaw) : (startedState s).versionLaw := by
  intro i
  have : ((startedState s).port.entries[i]).version = s.port.entries[i].version := by
    unfold startedState
    dsimp only
    simp [EnginePort.started, PortEntry.started]
  rw [this]
  exact h i

end

end Sys2Proof.Machine
end

