-- ==== Sys2Proof/Laws/Settle.lean ====
section
/-! SUPPORT. What the Input Path's operations leave alone. `Inward s t` says that line states and settings, the Rate Finder,
matching, the Engine Port, TIME and the queue stay; further lemmas say what `settle` leaves of the front end and of the
input of its line. -/

namespace Sys2Proof.Machine

/-- Only counters, front ends, the pool, inputs, notices and the shared region may differ. -/
structure Inward (s t : State) : Prop where
  pending : t.pending = s.pending
  now : t.now = s.now
  port : t.port = s.port
  control : t.control = s.control
  rate : t.rate = s.rate
  engine : t.engine = s.engine

theorem Inward.refl (s : State) : Inward s s := ⟨rfl, rfl, rfl, rfl, rfl, rfl⟩

theorem Inward.trans {s t u : State} (h : Inward s t) (g : Inward t u) : Inward s u :=
  ⟨g.pending.trans h.pending, g.now.trans h.now, g.port.trans h.port, g.control.trans h.control, g.rate.trans h.rate,
    g.engine.trans h.engine⟩

theorem Inward.ctl {s t : State} (h : Inward s t) (k : LineIx) : t.ctl k = s.ctl k := by simp [State.ctl, h.control]
theorem Inward.cfg {s t : State} (h : Inward s t) (k : LineIx) : t.cfg k = s.cfg k := by simp [State.cfg, h.ctl]
theorem Inward.mat {s t : State} (h : Inward s t) (k : LineIx) : t.mat k = s.mat k := by simp [State.mat, h.engine]
theorem Inward.phaseOf {s t : State} (h : Inward s t) (k : LineIx) : t.phaseOf k = s.phaseOf k := by
  simp [State.phaseOf, h.rate]
theorem Inward.time {s t : State} (h : Inward s t) : t.time = s.time := by simp [State.time, h.now]

theorem Recorded.inward {s t : State} (h : Recorded s t) : Inward s t :=
  ⟨h.pending, h.now, h.port, h.control, h.rate, h.engine⟩

theorem Inward.ifThen {s : State} {c : Bool} {f : State → State} (h : Inward s (f s)) : Inward s (s.ifThen c f) := by
  cases c
  · exact Inward.refl s
  · exact h

section
variable (k : LineIx) (s : State)

theorem modFe_inward (f : FrontEnd → FrontEnd) : Inward s (s.modFe k f) := ⟨rfl, rfl, rfl, rfl, rfl, rfl⟩
theorem modInp_inward (f : InputLine → InputLine) : Inward s (s.modInp k f) := ⟨rfl, rfl, rfl, rfl, rfl, rfl⟩
theorem modCnt_inward (f : Counters → Counters) : Inward s (s.modCnt k f) := (modCnt_recorded k s f).inward

theorem cutBreak_inward : Inward s (cutBreak k s) := by
  unfold cutBreak
  split
  · exact (modFe_inward k s _).trans (reportBreak_recorded k _ _ _ _).inward
  · exact Inward.refl s

theorem changeHolder_inward (holder : Nat) (c : GrantCause) : Inward s (changeHolder k holder c s) := by
  unfold changeHolder
  exact (((modInp_inward k s _).trans (Inward.ifThen (modInp_inward k _ _))).trans (record_recorded k _ _).inward).trans
    (tell_recorded k _ _ _).inward

theorem withdrawProbe_inward : Inward s (withdrawProbe k s) := by
  unfold withdrawProbe
  split
  · exact (modFe_inward k s _).trans (modInp_inward k _ _)
  · exact Inward.refl s

theorem reviewProbe_inward : Inward s (reviewProbe k s) := by
  unfold reviewProbe
  split
  · split
    · exact Inward.ifThen (modFe_inward k s _)
    · exact withdrawProbe_inward k s
  · exact Inward.refl s

theorem handItem_inward (e : InFlight) : Inward s (handItem k e s) := by
  unfold handItem
  split <;> exact (modFe_inward k s _).trans (modInp_inward k _ _)

theorem judgeHandOff_inward (e : InFlight) (since : Nat) : Inward s (judgeHandOff k e since s) := by
  unfold judgeHandOff
  split
  · exact modInp_inward k s _
  · split
    · exact modInp_inward k s _
    · exact handItem_inward k s e

theorem resumeEntry_inward : Inward s (resumeEntry k s) := by
  unfold resumeEntry
  split
  · exact Inward.refl s
  · split
    · exact Inward.refl s
    · split
      · exact judgeHandOff_inward k s _ _
      · exact modInp_inward k s _

theorem settle_inward : Inward s (settle k s) :=
  ((resumeEntry_inward k s).trans (reviewProbe_inward k _)).trans (modInp_inward k _ _)

theorem dropEntry_inward : Inward s (dropEntry k s) :=
  ((modInp_inward k s _).trans (modInp_inward k _ _)).trans (modInp_inward k _ _)

theorem cutSentBreak_inward (e : InFlight) : Inward s (cutSentBreak k e s) := by
  unfold cutSentBreak
  split
  · exact (modFe_inward k s _).trans (record_recorded k _ _).inward
  · exact Inward.refl s

theorem stopSending_inward : Inward s (stopSending k s) := by
  unfold stopSending
  split
  · exact (modFe_inward k s _).trans (Inward.ifThen (modInp_inward k _ _))
  · exact Inward.refl s

theorem cutEntry_inward (r : CutReason) : Inward s (cutEntry k r s) := by
  unfold cutEntry
  split
  · exact stopSending_inward k s
  · split
    · exact ((cutSentBreak_inward k s _).trans (tellCut_recorded k _ _ _).inward).trans (dropEntry_inward k _)
    · exact (((stopSending_inward k s).trans (endKeys_recorded k _ _ _).inward).trans (tellCut_recorded k _ _ _).inward).trans
        (dropEntry_inward k _)

theorem nextKeyOrEnd_inward (e : InFlight) : Inward s (nextKeyOrEnd k e s) := by
  unfold nextKeyOrEnd
  split
  · exact modInp_inward k s _
  · exact (endKeys_recorded k s _ _).inward.trans (dropEntry_inward k _)

theorem refuseHead_inward (r : RingEntry) (reason : RefuseReason) : Inward s (refuseHead k r reason s) :=
  (modInp_inward k s _).trans (refuseHead_recorded k s r reason).inward

theorem takeHead_inward (e : InFlight) : Inward s (takeHead k e s) :=
  (((withdrawProbe_inward k s).trans (modInp_inward k _ _)).trans (modInp_inward k _ _)).trans (modInp_inward k _ _)

/-! ## What `settle` leaves of its line -/

theorem withdrawProbe_rest :
    ((withdrawProbe k s).fe k).rest = (s.fe k).rest ∧ ((withdrawProbe k s).inp k).rest = (s.inp k).rest := by
  unfold withdrawProbe
  split <;> simp [restartSilence, FrontEnd.rest, InputLine.rest]

theorem reviewProbe_rest :
    ((reviewProbe k s).fe k).rest = (s.fe k).rest ∧ ((reviewProbe k s).inp k).rest = (s.inp k).rest := by
  unfold reviewProbe
  split
  · split
    · unfold State.ifThen
      split <;> simp [startProbe, FrontEnd.rest, InputLine.rest]
    · exact withdrawProbe_rest k s
  · exact ⟨rfl, rfl⟩

theorem judgeHandOff_rest (e : InFlight) (t : Nat) :
    ((judgeHandOff k e t s).fe k).rest = (s.fe k).rest ∧ ((judgeHandOff k e t s).inp k).rest = (s.inp k).rest := by
  unfold judgeHandOff handItem
  split
  · simp [setEntryPhase, InputLine.rest]
  · split
    · simp [setEntryPhase, InputLine.rest]
    · split <;> simp [setEntryPhase, setTransmitter, FrontEnd.rest, InputLine.rest]

theorem resumeEntry_rest :
    ((resumeEntry k s).fe k).rest = (s.fe k).rest ∧ ((resumeEntry k s).inp k).rest = (s.inp k).rest := by
  unfold resumeEntry
  split
  · exact ⟨rfl, rfl⟩
  · split
    · exact ⟨rfl, rfl⟩
    · split
      · exact judgeHandOff_rest k s _ _
      · simp [setEntryPhase, InputLine.rest]

/-- `settle` changes of its front end the transmitter and the handed probe, and of its input the grant timer, the entry
in flight and the silence timer. -/
theorem settle_rest : ((settle k s).fe k).rest = (s.fe k).rest ∧ ((settle k s).inp k).rest = (s.inp k).rest := by
  unfold settle
  have a := resumeEntry_rest k s
  have b := reviewProbe_rest k (resumeEntry k s)
  refine ⟨?_, ?_⟩
  · rw [← a.1, ← b.1]; simp [reviewGrant]
  · rw [← a.2, ← b.2]; simp [reviewGrant, InputLine.rest]

@[simp] theorem settle_receiver : ((settle k s).fe k).receiver = (s.fe k).receiver := by
  have h := congrArg FrontEnd.receiver (settle_rest k s).1; exact h
@[simp] theorem settle_mark : ((settle k s).fe k).mark = (s.fe k).mark := by
  have h := congrArg FrontEnd.mark (settle_rest k s).1; exact h
@[simp] theorem settle_idle : ((settle k s).fe k).idle = (s.fe k).idle := by
  have h := congrArg FrontEnd.idle (settle_rest k s).1; exact h
@[simp] theorem settle_flowPause : ((settle k s).fe k).flowPause = (s.fe k).flowPause := by
  have h := congrArg FrontEnd.flowPause (settle_rest k s).1; exact h
@[simp] theorem settle_view : ((settle k s).fe k).view = (s.fe k).view := by
  have h := congrArg FrontEnd.view (settle_rest k s).1; exact h
@[simp] theorem settle_contrary : ((settle k s).fe k).contrary = (s.fe k).contrary := by
  have h := congrArg FrontEnd.contrary (settle_rest k s).1; exact h
@[simp] theorem settle_latch : ((settle k s).fe k).latch = (s.fe k).latch := by
  have h := congrArg FrontEnd.latch (settle_rest k s).1; exact h
@[simp] theorem settle_highRun : ((settle k s).fe k).highRun = (s.fe k).highRun := by
  have h := congrArg FrontEnd.highRun (settle_rest k s).1; exact h
@[simp] theorem settle_readings : ((settle k s).fe k).readings = (s.fe k).readings := by
  have h := congrArg FrontEnd.readings (settle_rest k s).1; exact h
@[simp] theorem settle_gate : ((settle k s).inp k).gate = (s.inp k).gate := by
  have h := congrArg InputLine.gate (settle_rest k s).2; exact h
@[simp] theorem settle_holder : ((settle k s).inp k).holder = (s.inp k).holder := by
  have h := congrArg InputLine.holder (settle_rest k s).2; exact h
@[simp] theorem settle_produce : ((settle k s).inp k).produce = (s.inp k).produce := by
  have h := congrArg InputLine.produce (settle_rest k s).2; exact h
@[simp] theorem settle_consume : ((settle k s).inp k).consume = (s.inp k).consume := by
  have h := congrArg InputLine.consume (settle_rest k s).2; exact h
@[simp] theorem settle_lastKeyEnd : ((settle k s).inp k).lastKeyEnd = (s.inp k).lastKeyEnd := by
  have h := congrArg InputLine.lastKeyEnd (settle_rest k s).2; exact h
@[simp] theorem settle_armed : ((settle k s).inp k).armed = (s.inp k).armed := by
  have h := congrArg InputLine.armed (settle_rest k s).2; exact h

@[simp] theorem settle_ctl (j : LineIx) : (settle k s).ctl j = s.ctl j := (settle_inward k s).ctl j
@[simp] theorem settle_cfg (j : LineIx) : (settle k s).cfg j = s.cfg j := (settle_inward k s).cfg j
@[simp] theorem settle_mat (j : LineIx) : (settle k s).mat j = s.mat j := (settle_inward k s).mat j
@[simp] theorem settle_phaseOf (j : LineIx) : (settle k s).phaseOf j = s.phaseOf j := (settle_inward k s).phaseOf j
@[simp] theorem settle_now : (settle k s).now = s.now := (settle_inward k s).now
@[simp] theorem settle_port : (settle k s).port = s.port := (settle_inward k s).port
@[simp] theorem settle_rate : (settle k s).rate = s.rate := (settle_inward k s).rate
@[simp] theorem settle_engine : (settle k s).engine = s.engine := (settle_inward k s).engine
@[simp] theorem settle_control : (settle k s).control = s.control := (settle_inward k s).control

/-- `settle` touches only a line's front end and input. -/
structure Quiet (s t : State) : Prop extends Inward s t where
  counters : t.counters = s.counters
  pool : t.pool = s.pool
  notice : t.notice = s.notice
  mem : t.mem = s.mem

theorem Quiet.trans {s t u : State} (h : Quiet s t) (g : Quiet t u) : Quiet s u :=
  ⟨h.toInward.trans g.toInward, g.counters.trans h.counters, g.pool.trans h.pool, g.notice.trans h.notice,
    g.mem.trans h.mem⟩

theorem modFe_quiet (f : FrontEnd → FrontEnd) : Quiet s (s.modFe k f) := ⟨modFe_inward k s f, rfl, rfl, rfl, rfl⟩
theorem modInp_quiet (f : InputLine → InputLine) : Quiet s (s.modInp k f) := ⟨modInp_inward k s f, rfl, rfl, rfl, rfl⟩
theorem Quiet.refl : Quiet s s := ⟨Inward.refl s, rfl, rfl, rfl, rfl⟩

theorem withdrawProbe_quiet : Quiet s (withdrawProbe k s) := by
  unfold withdrawProbe
  split
  · exact (modFe_quiet k s _).trans (modInp_quiet k _ _)
  · exact Quiet.refl s

theorem judgeHandOff_quiet (e : InFlight) (since : Nat) : Quiet s (judgeHandOff k e since s) := by
  unfold judgeHandOff handItem
  split
  · exact modInp_quiet k s _
  · split
    · exact modInp_quiet k s _
    · split <;> exact (modFe_quiet k s _).trans (modInp_quiet k _ _)

theorem settle_quiet : Quiet s (settle k s) := by
  unfold settle
  have a : Quiet s (resumeEntry k s) := by
    unfold resumeEntry
    split
    · exact Quiet.refl s
    · split
      · exact Quiet.refl s
      · split
        · exact judgeHandOff_quiet k s _ _
        · exact modInp_quiet k s _
  refine (a.trans ?_).trans (modInp_quiet k _ _)
  unfold reviewProbe
  split
  · split
    · unfold State.ifThen
      split
      · exact modFe_quiet k _ _
      · exact Quiet.refl _
    · exact withdrawProbe_quiet k _
  · exact Quiet.refl _

@[simp] theorem settle_cnt (j : LineIx) : (settle k s).cnt j = s.cnt j := by simp [State.cnt, (settle_quiet k s).counters]
@[simp] theorem settle_cap (j : LineIx) : (settle k s).cap j = s.cap j := by simp [State.cap, (settle_quiet k s).pool]
@[simp] theorem settle_pool : (settle k s).pool = s.pool := (settle_quiet k s).pool
@[simp] theorem settle_notice : (settle k s).notice = s.notice := (settle_quiet k s).notice
@[simp] theorem settle_mem : (settle k s).mem = s.mem := (settle_quiet k s).mem

/-- An entry that is not paused, or none, is left as it is. -/
theorem settle_entry (h : ∀ e, (s.inp k).entry = some e → e.phase.pausedSince = none) :
    ((settle k s).inp k).entry = (s.inp k).entry := by
  have a : resumeEntry k s = s := by
    unfold resumeEntry
    split
    · rfl
    · rename_i e he
      rw [h e he]
  unfold settle
  rw [a]
  unfold reviewGrant reviewProbe withdrawProbe
  split
  · split
    · unfold State.ifThen
      split <;> simp [startProbe]
    · simp [restartSilence]
  · simp

/-- With no entry paused and no probe handed, the transmitter is left as it is. -/
theorem settle_transmitter (h : ∀ e, (s.inp k).entry = some e → e.phase.pausedSince = none)
    (p : (s.fe k).probeHanded = false) :
    ((settle k s).fe k).transmitter = (s.fe k).transmitter ∧ ((settle k s).fe k).probeHanded = false := by
  have a : resumeEntry k s = s := by
    unfold resumeEntry
    split
    · rfl
    · rename_i e he
      rw [h e he]
  unfold settle
  rw [a]
  unfold reviewGrant reviewProbe
  simp [p]

end

end Sys2Proof.Machine
end

