-- ==== Sys2Proof/Laws/Publish.lean ====
section
/-! SUPPORT. What publishing the status records changes: the shared region, and the versions and brackets of the Engine
Port's entries. With it, what `perform` answers, and that a command about one line is `OnlyLine`. -/

namespace Sys2Proof.Machine

/-- Only the shared region and the versions and brackets of the entries differ. -/
structure Published (s t : State) : Prop where
  state : t = { s with mem := t.mem, port := t.port }
  port : t.port = { s.port with entries := t.port.entries }
  entries : ∀ i : EntryIx, t.port.entries[i] =
    { s.port.entries[i] with version := t.port.entries[i].version, bracket := t.port.entries[i].bracket }

theorem Published.refl (s : State) : Published s s := ⟨rfl, rfl, fun _ => rfl⟩

theorem Published.trans {s t u : State} (h : Published s t) (g : Published t u) : Published s u := by
  refine ⟨?_, ?_, fun i => ?_⟩
  · rw [g.state, h.state]
  · rw [g.port, h.port]
  · rw [g.entries i, h.entries i]

theorem writeStatus_published (fresh : StatusField → Bool) (i : EntryIx) (s : State) :
    Published s (writeStatus fresh i s) := by
  unfold writeStatus
  dsimp only
  generalize layFields _ _ _ _ = bs
  unfold State.store
  split
  all_goals
    refine ⟨rfl, rfl, fun j => ?_⟩
    simp only [modPort_port, upd_get]
    split
    · rename_i e; subst e; rfl
    · rfl

theorem publishEntry_published (before s : State) (i : EntryIx) : Published s (publishEntry before s i) := by
  unfold publishEntry
  split
  · exact Published.refl s
  · exact writeStatus_published _ i s

theorem publish_published (before s : State) : Published s (publish before s) := by
  unfold publish
  split
  · rename_i h
    clear h
    generalize List.finRange 49 = l
    induction l generalizing s with
    | nil => exact Published.refl s
    | cons i l ih => exact (publishEntry_published before s i).trans (ih _)
  · exact Published.refl s

/-- A command that changes no published field writes no status record. -/
theorem publish_same (before s : State) (h : ∀ i, before.statusFields i = s.statusFields i) : publish before s = s := by
  unfold publish
  split
  · generalize List.finRange 49 = l
    induction l with
    | nil => rfl
    | cons i l ih => rw [List.foldl_cons, publishEntry, if_pos (h i)]; exact ih
  · rfl

section
variable (before s : State) (k : LineIx)

@[simp] theorem publish_pending : (publish before s).pending = s.pending := by rw [(publish_published before s).state]
@[simp] theorem publish_now : (publish before s).now = s.now := by rw [(publish_published before s).state]
@[simp] theorem publish_control : (publish before s).control = s.control := by rw [(publish_published before s).state]
@[simp] theorem publish_counters : (publish before s).counters = s.counters := by rw [(publish_published before s).state]
@[simp] theorem publish_front : (publish before s).front = s.front := by rw [(publish_published before s).state]
@[simp] theorem publish_rate : (publish before s).rate = s.rate := by rw [(publish_published before s).state]
@[simp] theorem publish_pool : (publish before s).pool = s.pool := by rw [(publish_published before s).state]
@[simp] theorem publish_engine : (publish before s).engine = s.engine := by rw [(publish_published before s).state]
@[simp] theorem publish_input : (publish before s).input = s.input := by rw [(publish_published before s).state]
@[simp] theorem publish_notice : (publish before s).notice = s.notice := by rw [(publish_published before s).state]
@[simp] theorem publish_ctl : (publish before s).ctl k = s.ctl k := by simp [State.ctl]
@[simp] theorem publish_cfg : (publish before s).cfg k = s.cfg k := by simp [State.cfg]
@[simp] theorem publish_cnt : (publish before s).cnt k = s.cnt k := by simp [State.cnt]
@[simp] theorem publish_fe : (publish before s).fe k = s.fe k := by simp [State.fe]
@[simp] theorem publish_cap : (publish before s).cap k = s.cap k := by simp [State.cap]
@[simp] theorem publish_mat : (publish before s).mat k = s.mat k := by simp [State.mat]
@[simp] theorem publish_inp : (publish before s).inp k = s.inp k := by simp [State.inp]
@[simp] theorem publish_phaseOf : (publish before s).phaseOf k = s.phaseOf k := by simp [State.phaseOf]
@[simp] theorem publish_time : (publish before s).time = s.time := by simp [State.time]
@[simp] theorem publish_grantTime : (publish before s).grantTime k = s.grantTime k := by simp [State.grantTime]

/-- Versions and brackets aside, the Engine Port is as it was. -/
@[simp] theorem publish_shown : (publish before s).port.shown = s.port.shown := by
  have p := publish_published before s
  unfold EnginePort.shown
  have e : (tab fun i : EntryIx => ({ (publish before s).port.entries[i] with version := 0, bracket := none } : PortEntry)) =
      tab fun i : EntryIx => ({ s.port.entries[i] with version := 0, bracket := none } : PortEntry) := by
    congr 1
    funext i
    rw [p.entries i]
  rw [e]
  conv_lhs => rw [p.port]

@[simp] theorem publish_look : (publish before s).port.look = s.port.look := by rw [(publish_published before s).port]
@[simp] theorem publish_regions : (publish before s).port.regions = s.port.regions := by
  rw [(publish_published before s).port]
@[simp] theorem publish_engineState : (publish before s).port.engine = s.port.engine := by
  rw [(publish_published before s).port]
@[simp] theorem publish_scan : (publish before s).port.scan = s.port.scan := by rw [(publish_published before s).port]
@[simp] theorem publish_answered (i : EntryIx) :
    (publish before s).port.entries[i].answered = s.port.entries[i].answered := by
  rw [(publish_published before s).entries i]
@[simp] theorem publish_code (i : EntryIx) : (publish before s).port.entries[i].code = s.port.entries[i].code := by
  rw [(publish_published before s).entries i]
@[simp] theorem publish_detail (i : EntryIx) : (publish before s).port.entries[i].detail = s.port.entries[i].detail := by
  rw [(publish_published before s).entries i]
@[simp] theorem publish_deadline (i : EntryIx) :
    (publish before s).port.entries[i].deadline = s.port.entries[i].deadline := by
  rw [(publish_published before s).entries i]

end

/-! ## The arrival of an event (R88) -/

/-- The end of a tick changes nothing of a part where no line has taken a block. -/
theorem endTick_none (ran : List Instr) (s : State) (h : s.pool.takes = []) : endTick ran s = s := by
  unfold endTick
  rw [h]

/-- Where no line has taken a block at the present tick, an event finds the part as it stands, but for the record of the tick. -/
theorem arrive_eq (e : Event) (s : State) (h : s.pool.takes = []) :
    s.arrive e = { s with
      now := max s.now e.tick
      mem := s.mem.hostWrites e.writes
      ran := (s.arrive e).ran
      start := (s.arrive e).start } := by
  unfold State.arrive
  rw [endTick_none _ s h]
  split <;> rfl

section
variable (e : Event) (s : State) (k : LineIx)

@[simp] theorem met_now : (s.met e).now = max s.now e.tick := rfl

@[simp] theorem arrive_pending : (s.arrive e).pending = s.pending := by
  rw [arrive_met]
  exact (beforeEvent_sound e s).pending

@[simp] theorem arrive_capacity : (s.arrive e).notice.capacity = s.notice.capacity := by
  rw [arrive_met]
  exact (beforeEvent_sound e s).capacity

@[simp] theorem arrive_blocks : (s.arrive e).pool.blocks = s.pool.blocks := by
  rw [arrive_met]
  exact (beforeEvent_sound e s).blocks

@[simp] theorem arrive_now : (s.arrive e).now = max s.now e.tick := by
  rw [arrive_met, met_now, (beforeEvent_sound e s).now]

section
variable (h : s.pool.takes = [])
include h

theorem arrive_control : (s.arrive e).control = s.control := by rw [arrive_eq e s h]
theorem arrive_counters : (s.arrive e).counters = s.counters := by rw [arrive_eq e s h]
theorem arrive_front : (s.arrive e).front = s.front := by rw [arrive_eq e s h]
theorem arrive_rate : (s.arrive e).rate = s.rate := by rw [arrive_eq e s h]
theorem arrive_pool : (s.arrive e).pool = s.pool := by rw [arrive_eq e s h]
theorem arrive_engine : (s.arrive e).engine = s.engine := by rw [arrive_eq e s h]
theorem arrive_input : (s.arrive e).input = s.input := by rw [arrive_eq e s h]
theorem arrive_notice : (s.arrive e).notice = s.notice := by rw [arrive_eq e s h]
theorem arrive_port : (s.arrive e).port = s.port := by rw [arrive_eq e s h]

end

/-- An event keeps every law but for those of time. -/
theorem arrive_laws :
    (s.mem.wf → (s.arrive e).mem.wf) ∧ (s.poolLaw → (s.arrive e).poolLaw) ∧ (s.grantLaw → (s.arrive e).grantLaw) ∧
      (s.versionLaw → (s.arrive e).versionLaw) ∧
      ((∀ k, s.decodingLaw k) → ∀ k, (s.arrive e).decodingLaw k) ∧
      ((∀ k, s.fillingLaw k) → ∀ k, (s.arrive e).fillingLaw k) ∧ ((∀ k, s.sizeLaw k) → ∀ k, (s.arrive e).sizeLaw k) := by
  have h := beforeEvent_sound e s
  rw [arrive_met]
  exact ⟨fun w => Mem.hostWrites_wf _ _ (h.wf w), h.pool, h.grant, h.versions, h.decoding, h.filling, h.size⟩

end

/-! ## Commands about one line -/

/-- The work of line `k`, published, touches only line `k`. -/
theorem Lawful.onlyLine {k : LineIx} {s t : State} (h : Lawful k s t) (before : State) :
    OnlyLine k s (publish before t) where
  elsewhere := h.toSameElsewhere.trans (publish_worked k before t).apart
  port := by rw [publish_shown, h.port]
  now := by rw [publish_now, h.now]
  pending := by rw [publish_pending, h.pending]
  capacity := by rw [publish_notice, h.capacity]
  consume := by rw [publish_notice, h.consumed]

/-- What `perform` answers with an act that is line `k`'s work, while the regions in force lie in the shared region. -/
theorem perform_line {k : LineIx} {e : Event} {s : State} {act : State → State} (h : (s.arrive e).regionsInside = true)
    (l : Lawful k (s.arrive e) (act (s.arrive e))) :
    ∃ t, perform e s act = .next t ∧ OnlyLine k (s.arrive e) t ∧ t = publish (s.arrive e) (act (s.arrive e)) :=
  ⟨_, by simp only [perform, h, if_true], l.onlyLine _, rfl⟩

/-- `perform` with an act that changes nothing. -/
theorem perform_same {e : Event} {s : State} {act : State → State} (h : (s.arrive e).regionsInside = true)
    (i : act (s.arrive e) = s.arrive e) : perform e s act = .next (s.arrive e) := by
  simp only [perform, h, if_true, i, publish_same _ _ fun _ => rfl]

end Sys2Proof.Machine
end

