-- ==== Sys2Proof/Laws/Answers.lean ====
section
/-! SUPPORT. What answering a taken request does, and what a request command answers. -/

namespace Sys2Proof.Machine

@[simp] theorem post_counters (n : Notice) (s : State) : (post n s).counters = s.counters := by
  unfold post appendNotice raiseAttention foldNotice
  split
  · split <;> simp
  · rfl

@[simp] theorem post_consume (n : Notice) (s : State) : (post n s).notice.consume = s.notice.consume := by
  unfold post appendNotice raiseAttention foldNotice
  split
  · split <;> simp
  · rfl

/-- The answer of a request is heard by its line's input and the Notice Unit alone; `t` has the port of `s`. -/
structure Heard (s t : State) : Prop where
  pending : t.pending = s.pending
  now : t.now = s.now
  port : t.port = s.port
  control : t.control = s.control
  counters : t.counters = s.counters
  front : t.front = s.front
  rate : t.rate = s.rate
  pool : t.pool = s.pool
  engine : t.engine = s.engine

theorem Heard.refl (s : State) : Heard s s := ⟨rfl, rfl, rfl, rfl, rfl, rfl, rfl, rfl, rfl⟩

theorem Heard.trans {s t u : State} (h : Heard s t) (g : Heard t u) : Heard s u :=
  ⟨g.pending.trans h.pending, g.now.trans h.now, g.port.trans h.port, g.control.trans h.control,
    g.counters.trans h.counters, g.front.trans h.front, g.rate.trans h.rate, g.pool.trans h.pool, g.engine.trans h.engine⟩

theorem modInp_heard (k : LineIx) (f : InputLine → InputLine) (s : State) : Heard s (s.modInp k f) :=
  ⟨rfl, rfl, rfl, rfl, rfl, rfl, rfl, rfl, rfl⟩

theorem modNotice_heard (f : NoticeUnit → NoticeUnit) (s : State) : Heard s (s.modNotice f) :=
  ⟨rfl, rfl, rfl, rfl, rfl, rfl, rfl, rfl, rfl⟩

theorem post_heard (n : Notice) (s : State) : Heard s (post n s) :=
  have r := post_recorded s n
  ⟨r.pending, r.now, r.port, r.control, post_counters n s, r.front, r.rate, post_pool s n, r.engine⟩

theorem deliverSummary_heard (s : State) (i : EntryIx) : Heard s (deliverSummary s i) := by
  unfold deliverSummary
  split
  · rename_i h
    have e : appendNotice (summaryNotice i s.notice.summaries[i] s.time) s =
        post (summaryNotice i s.notice.summaries[i] s.time) s := by
      unfold post; rw [if_pos h.1]
    rw [e]
    exact (post_heard _ s).trans (modNotice_heard _ _)
  · exact Heard.refl s

theorem handCount_heard (i : EntryIx) (c : Word32) (s : State) : Heard s (handCount i c s) := by
  unfold handCount
  split
  · unfold handConsume deliverSummaries
    refine (modNotice_heard (fun n => { n with consume := c }) s).trans ?_
    generalize s.modNotice (fun n => { n with consume := c }) = t
    generalize List.finRange 49 = l
    induction l generalizing t with
    | nil => exact Heard.refl t
    | cons i l ih => exact (deliverSummary_heard t i).trans (ih _)
  · unfold handProduce
    dsimp only
    split
    · exact (modInp_heard _ _ s).trans ((post_heard _ _).trans (modInp_heard _ _ _))
    · exact modInp_heard _ _ s

/-- A state whose look is over and its answer, with the port as `State.answered` leaves it. -/
theorem answer_heard (r : Request) (code : AnswerCode) (detail : Nat) (s : State) (h : s.port.look = none) :
    Heard (s.answered r code detail) (answer r code detail s) := by
  unfold answer
  dsimp only
  have p := post_heard ⟨.answer, r.entry, s.time, answerArgs r code detail⟩ (s.modPort fun p => { p with
    entries := upd p.entries r.entry fun q => { q with answered := r.number, code := code, detail := detail } })
  refine ⟨p.pending, p.now, ?_, p.control, p.counters, p.front, p.rate, p.pool, p.engine⟩
  rw [p.port]
  simp [State.answered, h]

/-- What a notice does to the Notice Unit depends on nothing of the Engine Port. -/
theorem post_notice_congr (n : Notice) (s : State) (f : EnginePort → EnginePort) :
    (post n (s.modPort f)).notice = (post n s).notice := by
  have room : (s.modPort f).room = s.room := rfl
  unfold post
  rw [room]
  split
  · unfold appendNotice raiseAttention
    simp only [modNotice_notice, store_notice, modPort_notice]
    split <;> simp
  · rfl

/-- An answer leaves every input, and posts its ANSWER notice. -/
theorem answer_plain (r : Request) (code : AnswerCode) (detail : Nat) (s : State) :
    (answer r code detail s).input = s.input ∧
      (answer r code detail s).notice = (post (answerNotice s r code detail) s).notice := by
  unfold answer
  exact ⟨(post_recorded _ _).input, post_notice_congr _ s _⟩

/-- What comes before the request of a look at line `k`: the look is over, and the rest is the line's own work. -/
theorem asTaken_lawful (k : LineIx) (s : State) (first : Bool) : Lawful k (lookOver s) (s.asTaken (entryOf k) first) := by
  unfold State.asTaken
  split
  · exact Lawful.refl k _
  · exact takeCount_lawful k _ _

/-- The end of a look is the request's work on the state it meets, with the count behind it if the request goes first. -/
theorem endLook_eq (i : EntryIx) (first : Bool) (deal : State → State) (s : State) :
    endLook i first deal s =
      if first then handCount i (s.entryWord i 0x60) (deal (s.asTaken i first)) else deal (s.asTaken i first) := by
  have e : (lookOver s).entryWord i 0x60 = s.entryWord i 0x60 := rfl
  unfold endLook State.lookOrder State.asTaken
  rw [e]
  cases first <;> simp

theorem handProduce_consume (k : LineIx) (c : Word32) (s : State) :
    (handProduce k c s).notice.consume = s.notice.consume := by
  unfold handProduce
  dsimp only
  split
  · simp only [modInp_notice, tell, post_consume]
  · rfl

/-- What a request command of line `k` answers when the look in progress takes its request: `b` is the state the request
meets, and `act` is what its owner makes of it. -/
theorem request_line {k : LineIx} {kind : Nat} {first : Bool} {e : Event} {s a b : State} {r : Request}
    {act : Request → State → Reply} (ha : a = s.arrive e) (h : a.regionsInside = true)
    (q : a.takenAt (entryOf k) kind = some r) (l : Lawful k b (act r b).state)
    (hb : b = a.asTaken (entryOf k) first) :
    ∃ t, perform e s (onRequest (entryOf k) kind first act) = .next t ∧
      OnlyLine k (b.answered r (act r b).code (act r b).detail) t ∧
      t = publish a (if first then handProduce k (a.entryWord (entryOf k) 0x60) (carryOut r act b) else carryOut r act b) := by
  subst ha
  have hr : r.entry = entryOf k := takenAt_entry _ q
  have eq := endLook_eq (entryOf k) first (carryOut r act) (s.arrive e)
  rw [← hb, handCount_line] at eq
  refine ⟨_, by simp only [perform, h, if_true, onRequest, q, eq], ?_, rfl⟩
  have hd := asTaken_lawful k (s.arrive e) first
  rw [← hb] at hd
  have ll : ((act r b).state).port.look = none := by rw [l.port, hd.port]; rfl
  have g := answer_heard r (act r b).code (act r b).detail (act r b).state ll
  have w : Worked k b (carryOut r act b) := carryOut_worked k b r act hr l.worked
  have cu : (carryOut r act b).notice.consume = b.notice.consume := by
    unfold carryOut answer
    rw [post_consume, modPort_notice, l.consumed]
  have pp : (carryOut r act b).port = (b.answered r (act r b).code (act r b).detail).port := by
    unfold carryOut
    rw [g.port]
    simp only [State.answered, l.port]
  have all : Worked k b (if first then handProduce k ((s.arrive e).entryWord (entryOf k) 0x60) (carryOut r act b)
      else carryOut r act b) := by
    split
    · exact w.trans (handProduce_lawful k _ _).worked
    · exact w
  have port : (if first then handProduce k ((s.arrive e).entryWord (entryOf k) 0x60) (carryOut r act b)
      else carryOut r act b).port = (carryOut r act b).port := by
    split
    · exact (handProduce_lawful k _ _).port
    · rfl
  have cons : (if first then handProduce k ((s.arrive e).entryWord (entryOf k) 0x60) (carryOut r act b)
      else carryOut r act b).notice.consume = b.notice.consume := by
    split
    · rw [handProduce_consume, cu]
    · exact cu
  generalize (if first then handProduce k ((s.arrive e).entryWord (entryOf k) 0x60) (carryOut r act b)
    else carryOut r act b) = z at all port cons
  refine ⟨?_, ?_, ?_, ?_, ?_, ?_⟩
  · exact (show SameElsewhere k (b.answered r (act r b).code (act r b).detail) b from
      ⟨fun _ _ => rfl, fun _ _ => rfl, fun _ _ => rfl, fun _ _ => rfl, fun _ _ => rfl, fun _ _ => rfl, fun _ _ => rfl,
        fun _ _ => rfl, rfl, rfl, rfl⟩).trans (all.apart.trans (publish_worked k _ _).apart)
  · rw [publish_shown, port, pp]
  · rw [publish_now, all.sound.now]; rfl
  · rw [publish_pending, all.sound.pending]; rfl
  · rw [publish_notice, all.sound.capacity]; rfl
  · rw [publish_notice, cons]; rfl

end Sys2Proof.Machine
end

