-- ==== Sys2Proof/Tests/Slice0.lean ====
section
/-! SUPPORT. Tests of the model: expected values are the manual's worked examples and tables, or worked by hand from
its rules. Each theorem whose name begins with `witness_` shows a state that meets the hypotheses of the statement it
names. -/

namespace Sys2Proof.Tests

open Sys2Proof Sys2Proof.Machine

/-! ## Small states -/

/-- What a field of the next state is, if there is a next state. -/
def look {α : Type} (o : Host.Outcome State Fault Refusal) (f : State → α) : Option α :=
  match o with
  | .next t => some (f t)
  | _ => none

/-- An event at tick `n`, with no host write. -/
def at' (n : Nat) : Event := ⟨n, []⟩

/-- Line 5. -/
def five : LineIx := 4

/-- A part that runs with no region in force. -/
def running : State := { State.reset with port := { EnginePort.reset with engine := .running } }

/-- A part whose line 5 is in a state, and decodes if that state does. -/
def lineIn (state : LineState) : State :=
  { running with
    control := upd running.control five fun c => { c with state := state }
    input := upd running.input five fun i => { i with gate := { i.gate with notLive := !state.decoding } }
    front := upd running.front five fun f => { f with receiver := if state.decoding then .idle else .stopped } }

/-- Line 5 is LIVE. -/
def live : State := lineIn .live

/-- The settings of line 5 changed. -/
def withSettings (f : Settings → Settings) (s : State) : State :=
  s.modCtl five fun c => { c with settings := f c.settings }

/-- The regions of the example of R172, with a pattern region, a ring of 256 notices and an input ring area. -/
def theRegions : Regions where
  lineTable := ⟨0x40000, 0x61FF⟩
  patterns := ⟨0x1000, 0x7FF⟩
  ring := ⟨0x2000, 0x1FFF⟩
  inputs := ⟨0x20000, 0x17FFF⟩
  pool := ⟨0x100000, 0x3FFFF⟩

/-- A look at an entry is in progress, and the entry's slot holds request 7 of a kind with its first arguments. -/
def askedAt (i : EntryIx) (kind : Nat) (args : List Byte) (s : State) : State :=
  { s with
    mem := s.mem.write (0x40000 + i.val * 512 + 0x40) ([7, 0, 0, 0, byteOf kind, 0, 0, 0] ++ args)
    port := { s.port with regions := some theRegions, look := some ⟨i, 0, false⟩ } }

/-- A look at line 5's entry is to take a request. -/
def asked (kind : Nat) (args : List Byte) (s : State) : State := askedAt (entryOf five) kind args s

/-- A look at the control entry is to take a request. -/
def askedControl (kind : Nat) (s : State) : State := askedAt 0 kind [] s

/-- Request 7 of a slot, with its first arguments and zeros behind them. -/
def request (i : EntryIx) (kind : Nat) (args : List Byte) : Request :=
  ⟨i, 7, kind, args ++ List.replicate (24 - args.length) 0⟩

/-- Bytes at an address of the shared region of a state that holds nothing else, with the regions in force. -/
def holding (address : Nat) (bs : List Byte) (s : State) : State :=
  { s with mem := Mem.cells address bs, port := { s.port with regions := some theRegions } }

/-- The record of R198 that holds the defaults of R43. -/
def defaultRecord : List Byte :=
  [0, 8, 0, 1, 0x88, 0x13, 0, 0, 0xFF, 0xFF, 40, 24, 0, 0, 3, 2, 250, 0, 0, 0, 3, 8, 0, 0, 0, 0, 0, 0, 1, 0, 0x2C, 1,
    0, 0, 0, 0, 5, 0, 0, 0, 0, 0, 2, 0, 16, 0] ++ List.replicate 18 0

/-- Line 5's settings record in the line table. -/
def recordAt5 : Nat := 0x40000 + 5 * 512

/-- An entry at the head of line 5's ring: tag, kind, length, break duration, keys; one entry is pending. -/
def ringHolds (tag kind length duration : Nat) (keys : List Byte) (s : State) : State :=
  (holding (0x20000 + 4 * 2048)
      ([byteOf tag, byteOf kind, byteOf length, 0] ++ leBytes 2 duration ++ [0, 0] ++ keys) s).modInp five
    fun i => { i with produce := 1 }

/-- An entry in flight on line 5. -/
def inFlight (x : InFlight) (s : State) : State := s.modInp five fun i => { i with entry := some x }

/-- The transmitter of line 5 changed. -/
def sends (x : Transmitter) (s : State) : State := s.modFe five fun f => { f with transmitter := x }

/-- The receiver of line 5 changed. -/
def hears (x : Receiver) (s : State) : State := s.modFe five fun f => { f with receiver := x }

/-- 8 data bits, no parity, 1 stop bit. -/
def n81 : Frame := ⟨true, .none, false⟩

/-- A tick far on. -/
def late : Event := at' 100000000

/-! ## Well-formed commands -/

theorem test_write_of_PROMPT_is_not_ignored : WellFormed (.registerWriteIgnored late 0x08 0) = false := by decide

theorem test_write_of_TIME_HIGH_is_ignored : WellFormed (.registerWriteIgnored late 0x14 1) = true := by decide

theorem test_START_is_not_an_ignored_write : WellFormed (.registerWriteIgnored late 0x04 5) = false := by decide

theorem test_command_code_3_is_ignored : WellFormed (.registerWriteIgnored late 0x04 7) = true := by decide

theorem test_ill_formed_write_is_refused :
    exec (.registerWriteIgnored late 0x0C 1) running = .refused .notAnIgnoredWrite := by rfl

theorem test_no_word_spells_a_command : decodeTableWord 32 0 = none := rfl

/-! ## Rates: the worked cases of chapter 1 -/

/-- The twelve widths of 1.7. -/
def widths : List Nat := [410, 821, 411, 410, 1232, 411, 821, 410, 411, 410, 821, 411]

theorem test_rate_table_is_R9 :
    (List.finRange 16).map tablePeriod =
      [160000, 80000, 40000, 20000, 10000, 5000, 3333, 2500, 1667, 1250, 833, 625, 417, 208, 104, 52] := by decide

theorem test_worked_window_yields_entry_12 : windowResult 0xFFFF 40 widths = .entry 12 := by decide

theorem test_worked_trim_period_is_411 : proposedPeriod .autoTrim 12 13958 34 = 411 := by decide

theorem test_two_bit_minimum_yields_nothing :
    windowResult 0xFFFF 40 [834, 834, 1250, 834, 1667, 834, 834, 2500, 834, 834, 1250, 834] = .noCandidate := by decide

theorem test_tie_takes_the_larger_period : candidate 0xC000 78 = some 14 := by decide

/-! ## Settings and patterns -/

theorem test_default_record_gives_the_defaults : parseSettings defaultRecord = .ok Settings.default := by rfl

theorem test_fixed_period_39_fails_row_2 :
    parseSettings ([0, 8, 0, 1, 39, 0, 0, 0, 0xFF, 0xFF, 40, 24, 0, 0, 3, 2]) = .error 2 := by rfl

/-- "--More--", anywhere. -/
def more : Pattern :=
  { Pattern.unused with length := 8, bytes := [0x2D, 0x2D, 0x4D, 0x6F, 0x72, 0x65, 0x2D, 0x2D], filter := 31, mask := 16 }

theorem test_worked_progress_of_7_3 :
    more.stepAnywhere 1 0x2D = (2, false) ∧ more.stepAnywhere 2 0x2D = (2, false) ∧
      more.stepAnywhere 7 0x2D = (0, true) ∧ more.stepAnywhere 4 0x2D = (1, false) := by decide

/-- "login:" after a line start, case folded. -/
def login : Pattern :=
  { Pattern.unused with
    length := 6, bytes := [0x6C, 0x6F, 0x67, 0x69, 0x6E, 0x3A], fold := true, lineStart := true, filter := 31, mask := 16 }

theorem test_worked_line_start_of_7_3 :
    login.stepLineStart 0 true 0x4C = (1, false) ∧ login.stepLineStart 1 false 0x61 = (0, false) ∧
      login.stepLineStart 5 false 0x3A = (0, true) ∧ login.stepLineStart 0 false 0x6C = (0, false) := by decide

/-! ## Registers, resets, START, HALT and looks -/

theorem test_part_reset_halts : look (exec (.partReset late) running) (fun t => (t.port.engine, t.now)) = some (.halted, 0) := by
  decide

theorem test_link_reset_clears_the_enable :
    look (exec (.hostLinkReset late) { running with notice := { running.notice with attention := true } })
      (fun t => t.notice.attention) = some false := by decide

theorem test_start_begins : look (exec (.start late true) State.reset) (fun t => (t.port.engine, t.port.keepFlag)) =
    some (.starting, true) := by decide

theorem test_start_in_running_is_ignored :
    look (exec (.start late false) running) (fun t => (t.port.engine, t.port.result)) = some (.running, .ignoredRunning) := by
  decide

theorem test_halt_with_all_lines_off_ends :
    look (exec (.halt late) running) (fun t => (t.port.engine, t.port.result)) = some (.halted, .stopped) := by decide

theorem test_halt_with_a_live_line_goes_on :
    look (exec (.halt late) live) (fun t => t.port.engine) = some .halting := by decide

/-- The directory of the example of R172, with a pool of the limit given, and a capacity of 256. -/
def starting (poolLimit : Nat) : State :=
  { State.reset with
    port := { EnginePort.reset with engine := .starting }
    mem := Mem.cells 0 (List.replicate 8 0 ++
        leBytes 4 0x40000 ++ leBytes 4 0x61FF ++ leBytes 4 0x1000 ++ leBytes 4 0x7FF ++ leBytes 4 0x2000 ++
        leBytes 4 0x1FFF ++ leBytes 4 0x20000 ++ leBytes 4 0x17FFF ++ leBytes 4 0x100000 ++ leBytes 4 poolLimit) ++
      Mem.cells 0x40004 (leBytes 4 256) }

theorem test_start_with_128_blocks_runs :
    look (exec (.startingEnd late) (starting 0x3FFFF)) (fun t => (t.port.engine, t.port.result, t.pool.blocks)) =
      some (.running, .started, 128) := by decide +kernel

theorem test_start_with_127_blocks_is_refused :
    look (exec (.startingEnd late) (starting 0x3F7FF)) (fun t => (t.port.engine, t.port.result, t.port.detail)) =
      some (.halted, .poolTooSmall, 127) := by decide

theorem test_line_halt_ends_halting :
    look (exec (.lineHalt late five) { live with port := { live.port with engine := .halting } })
      (fun t => ((t.ctl five).state, t.port.engine, t.port.result)) = some (.off, .halted, .stopped) := by decide +kernel

theorem test_prompt_48_joins : look (exec (.prompt late 48) running) (fun t => t.port.prompts[48]) = some true := by decide

theorem test_prompt_49_is_ignored : look (exec (.prompt late 49) running) (fun t => t.port.prompted) = some false := by decide

theorem test_enable_with_a_backlog_raises_at_once :
    look (exec (.attentionEnable late 1) { running with notice := { running.notice with produce := 1 } })
      (fun t => (t.notice.attention, t.notice.interrupts)) = some (false, 1) := by decide

theorem test_enable_without_a_backlog_stays :
    look (exec (.attentionEnable late 1) running) (fun t => (t.notice.attention, t.notice.interrupts)) = some (true, 0) := by
  decide

theorem test_time_is_latched :
    look (exec (.timeLow (at' (48 * (2 ^ 32 + 5)))) running) (fun t => (t.port.readData, t.port.timeHigh)) =
      some (5, 1) := by decide

theorem test_ignored_write_leaves_the_result :
    look (exec (.registerWriteIgnored late 0 5) running) (fun t => (t.port.engine, t.port.result)) =
      some (.running, .none) := by decide

theorem test_look_takes_the_lowest_entry_due :
    look (exec (.lookBegin late) running) (fun t => (t.port.look, t.port.entries[0].deadline)) =
      some (some ⟨0, 100000000, false⟩, 100000000 + 8 * 48000) := by decide

/-- RESET_COUNTERS is carried out and answered as the look at its slot ends (R179). -/
theorem test_look_carries_out_a_new_request :
    (let t := finishLook false true (asked kindResetCounters [] (running.modCnt five fun c => { c with bytesReceived := 9 }));
      (t.port.look, t.cnt five, t.port.entries[5].answered, t.port.entries[5].code)) = (none, Counters.zero, 7, .done) := by
  decide

/-- The slot's number is the one answered: nothing is taken. -/
theorem test_look_without_a_new_request_takes_none :
    look (exec (.lookEnd ⟨late, false⟩ true) (running.modPort fun p => { p with look := some ⟨entryOf five, 0, false⟩ }))
      (fun t => (t.port.look, t.port.entries[5].code)) = some (none, .none) := by decide

/-- One look reads KEYS of operator 3 and a DISABLE. -/
def keysAndDisable : State :=
  let s := askedAt 5 kindDisable [] (ringHolds 3 1 2 0 [0x6C, 0x73] (live.modInp five fun i => { i with holder := 3 }))
  { s.modInp five fun i => { i with produce := 0 } with mem := s.mem.write 0x40A60 [1] }

/-- The entry taken, then cut with DISABLED, behind its INPUT record the LINE record; or the DISABLE first, and the entry left
(R178). -/
theorem test_count_and_request_of_one_look_in_either_order :
    (let t := finishLook false true keysAndDisable;
      ((t.ctl five).state, (t.inp five).entry, (t.inp five).consume, (t.cap five).nextRecord)) = (.off, none, 1, 3) ∧
      (let t := finishLook true true keysAndDisable;
        ((t.ctl five).state, (t.inp five).produce, (t.inp five).consume, (t.cap five).nextRecord)) = (.off, 1, 0, 2) := by
  decide +kernel

/-- A DONE behind a DONE is written, over what the host put in its place (R175, R179). -/
theorem test_an_equal_code_is_written_again :
    (let s := holding 0x40A88 [9] (running.modPort fun p => { p with
        entries := upd p.entries 5 fun q => { q with answered := 6, code := .done } });
      (publishEntry s (answer (request 5 5 []) .done 0 s) 5).mem.slice 0x40A84 8) = [7, 0, 0, 0, 1, 0, 0, 0] := by
  decide +kernel

theorem test_word_written_to_ENGINE_COMMAND :
    hostWrite late 0x04 0x101 = .start late true ∧ hostWrite late 0x04 0xFFFFFEFE = .halt late ∧
      hostWrite late 0x04 0x103 = .registerWriteIgnored late 0x04 0x103 ∧
      hostWrite late 0x14 1 = .registerWriteIgnored late 0x14 1 := by decide

/-! ## Requests -/

/-- Eight blocks on the free list. -/
def pooled (s : State) : State := { s with pool := { s.pool with blocks := 8, free := [1, 2, 3, 4, 5, 6, 7, 8] } }

/-- The LINE record stands first in block 1 (R207). -/
theorem test_enable_of_a_fixed_line_is_live :
    (let t := (enableRequest five true (pooled (holding recordAt5 defaultRecord running))).state;
      ((t.ctl five).state, (t.fe five).receiver, (t.cap five).nextRecord, t.mem.slice 0x100020 20)) =
      (.live, .idle, 3, [5, 0, 4, 0, 1, 0, 0, 0, 0, 0, 0, 0, 0, 0, 0, 0, 3, 1, 0, 0]) := by decide

theorem test_enable_with_a_bad_record_names_the_row :
    (let r := enableRequest five true running;
      (r.code, r.detail, (r.state.ctl five).state)) = (.badArgument, 2, .off) := by decide

theorem test_disable_leaves_the_line_off :
    (let r := disableRequest five live;
      ((r.state.ctl five).state, (r.state.inp five).gate.notLive, r.code)) = (.off, true, .done) := by decide

theorem test_configure_changes_the_period_of_a_fixed_line :
    (let t := (configureRequest five true
        (holding recordAt5 ([0, 8, 0, 1, 0xC4, 0x09] ++ defaultRecord.drop 6) live)).state;
      ((t.ctl five).period, (t.ctl five).lockCause, (t.ctl five).state)) = (2500, .configure, .live) := by decide

theorem test_configure_to_auto_checks :
    (let t := (configureRequest five true (holding recordAt5 (1 :: defaultRecord.drop 1) live)).state;
      ((t.ctl five).period, (t.ctl five).state, t.phaseOf five, t.channelNumber five)) =
      (5000, .checking, .measuring, 1) := by decide

theorem test_relock_of_a_fixed_line_is_refused :
    (relockRequest five live).code = .refusedState := by decide

theorem test_relock_of_an_auto_line_checks :
    (let r := relockRequest five (withSettings (fun n => { n with rateMode := .autoTrim }) live);
      ((r.state.ctl five).state, r.state.phaseOf five)) = (.checking, .measuring) := by decide

theorem test_reset_counters :
    (let r := resetCountersRequest five (running.modCnt five fun c => { c with bytesReceived := 9, blocksReclaimed := 3 });
      (r.state.cnt five, r.code)) = (Counters.zero, .done) := by decide

/-- Line 5 holds blocks 2 and 3, the newer FILLING, and pins the older with pin 17. -/
def chained (s : State) : State :=
  { s with pool :=
    { blocks := 3
      free := [1]
      takes := []
      lines := upd s.pool.lines five fun c => { c with
        chain := [⟨2, 1, false, 1, 9, 2000, 0, 0⟩, ⟨3, 2, true, 10, 1, 24, 0, 0⟩]
        nextRecord := 11
        nextSequence := 3
        pins := [⟨17, 0, 1, 1, 0, false, 0⟩] } } }

/-- UNPIN of one of two pins over the same block frees none; the pinned count is written anew all the same, over a byte that the
host has changed (R119). -/
theorem test_unpin_writes_the_pinned_count :
    (let p : Pin := ⟨17, 0, 1, 1, 0, false, 0⟩
      let s := (holding 0x40AA2 [9] (chained live)).modCap five fun c => { c with pins := [p, { p with id := 18 }] }
      ((removePin five p s).cap five).pinned = (s.cap five).pinned ∧
        (publishEntry s (removePin five p s) 5).mem.slice 0x40AA1 3 = [1, 1, 0]) := by decide

theorem test_clear_spares_the_pinned_block :
    (let r := clearCaptureRequest five (request 5 kindClearCapture [0]) (chained live);
      (r.state.pool.free, chainIndices r.state five, r.detail)) = ([1, 3], [2], 1) := by decide

theorem test_clear_with_drop_pins_returns_all :
    (let r := clearCaptureRequest five (request 5 kindClearCapture [1]) (chained live);
      (r.state.pool.free, (r.state.cap five).pins, r.detail)) = ([1, 2, 3], [], 2) := by decide

/-- The reserved bytes 1Eh and 1Fh of a header are written 0 with it, whatever the memory held (R194, R206). -/
theorem test_reserved_header_bytes_are_written_0 :
    (returnBlock five (holding 0x10081E [9, 9] (chained live)) 2).mem.slice 0x10081E 2 = [0, 0] := by decide

theorem test_pin_now_without_a_budget_is_refused :
    (let r := pinNowRequest five (request 5 kindPinNow [1, 1]) (chained live);
      (r.code, (r.state.cap five).pins.length)) = (.noRoom, 1) := by decide

theorem test_pin_now_covers_the_block_before :
    (let r := pinNowRequest five (request 5 kindPinNow [1, 3])
        (withSettings (fun n => { n with quotaMin := 4 }) (chained live));
      ((r.state.cap five).pins.map fun p => (p.id, p.first, p.last, p.remaining), (r.state.cap five).nextRecord)) =
      ([(17, 1, 1, 0), (1, 1, 2, 3)], 12) := by decide

theorem test_unpin_answers_the_blocks_freed :
    (let r := unpinRequest five (request 5 kindUnpin [17]) (chained live);
      ((r.state.cap five).pins, r.detail)) = ([], 1) := by decide

theorem test_unpin_of_an_unknown_id :
    (let r := unpinRequest five (request 5 kindUnpin [16]) (chained live);
      (r.code, r.detail)) = (.badArgument, 16) := by decide

theorem test_set_console_answers_the_state_before :
    (let r := setConsoleRequest five (request 5 kindSetConsole [1])
        (withSettings (fun n => { n with bootHold := true }) live);
      ((r.state.mat five).console, (r.state.inp five).gate.boot, r.detail)) = (.booting, true, 0) := by decide

theorem test_hold_input_answers_the_reasons :
    (let r := holdInputRequest five running;
      ((r.state.inp five).gate.host, r.detail)) = (true, 9) := by decide

theorem test_open_input_takes_host_and_pattern_out :
    (let r := openInputRequest five (live.modInp five fun i => { i with gate := ⟨false, true, true, true⟩ });
      ((r.state.inp five).gate, r.detail)) = (⟨false, true, false, false⟩, 2) := by decide

theorem test_load_of_unused_slots :
    (let r := loadPatternsRequest running;
      (r.state.engine.loads, r.code, r.detail)) = (1, .done, 0) := by decide

theorem test_load_names_slot_and_check :
    (loadPatternsRequest (holding 0x1040 [33] running)).detail = 2 + 256 := by decide

theorem test_apply_settings_takes_the_selector :
    (let r := applySettingsRequest (holding 0x40000 [9] running);
      (r.state.port.scan, r.detail)) = (7, 7) := by decide

theorem test_apply_settings_is_answered :
    (let r := applySettingsRequest running;
      (r.state.port.scan, r.code)) = (0, .done) := by decide

theorem test_unknown_request_answers_its_kind :
    (let r := unknownRequest (request 5 16 []) running;
      (r.code, r.detail)) = (.unknownRequest, 16) := by decide

/-! ## Input entries -/

/-- Operator 3 holds line 5's grant. -/
def held3 (s : State) : State := s.modInp five fun i => { i with holder := 3 }

theorem test_keys_of_the_holder_are_taken :
    (let t := onHead five kindKeys (considerKeys five) (held3 (ringHolds 3 1 2 0 [0x6C, 0x73] live));
      ((t.inp five).consume, (t.inp five).entry.map fun x => (x.tag, x.keys, x.phase))) =
      (1, some (3, [0x6C, 0x73], .ready)) := by decide

theorem test_keys_of_another_are_refused :
    (let t := onHead five kindKeys (considerKeys five) (held3 (ringHolds 4 1 2 0 [0x6C, 0x73] live));
      ((t.inp five).consume, (t.inp five).entry, (t.cnt five).entriesRefused)) = (1, none, 1) := by decide

theorem test_break_takes_the_default_duration :
    (let t := onHead five kindBreak (considerBreak five) (held3 (ringHolds 3 2 0 0 [] live));
      (t.inp five).entry.map fun x => (x.isBreak, x.duration)) = some (true, 300) := by decide

theorem test_break_at_the_prompt_is_refused_by_policy :
    (let t := onHead five kindBreak (considerBreak five)
        (held3 (ringHolds 3 2 0 0 [] (live.modMat five fun m => { m with console := .prompt })));
      ((t.inp five).entry, (t.cnt five).entriesRefused)) = (none, 1) := by decide

theorem test_take_of_a_free_grant :
    (let t := onHead five kindTake (considerTake five) (ringHolds 3 3 0 0 [] live);
      ((t.inp five).holder, (t.cap five).nextRecord)) = (3, 2) := by decide

theorem test_take_of_a_held_grant_is_refused :
    (let t := onHead five kindTake (considerTake five) (held3 (ringHolds 4 3 0 0 [] live));
      ((t.inp five).holder, (t.cnt five).entriesRefused)) = (3, 1) := by decide

theorem test_give_by_the_holder :
    (let t := onHead five kindGive (considerGive five) (held3 (ringHolds 3 4 0 0 [] live));
      ((t.inp five).holder, (t.cap five).nextRecord)) = (0, 2) := by decide

theorem test_steal_by_the_supervisor :
    (let t := onHead five kindSteal (considerSteal five) (held3 (ringHolds 15 5 0 0 [] live));
      ((t.inp five).holder, (t.cap five).nextRecord)) = (15, 2) := by decide

theorem test_steal_by_another_is_refused :
    (let t := onHead five kindSteal (considerSteal five) (held3 (ringHolds 4 5 0 0 [] live));
      ((t.inp five).holder, (t.cnt five).entriesRefused)) = (3, 1) := by decide

theorem test_tag_0_is_refused :
    look (exec (.refusedEntry late five) (live.modInp five fun i => { i with produce := 1 }))
      (fun t => ((t.inp five).consume, (t.cnt five).entriesRefused)) = some (1, 1) := by decide

/-! ## The transmit side -/

/-- Two keys of operator 3, none sent. -/
def keys : InFlight := ⟨false, 3, 0, 0, [0x6C, 0x0D], 0, 0, .ready⟩

theorem test_hand_off_begins_the_key :
    look (exec (.handOff late five) (inFlight keys live))
      (fun t => ((t.fe five).transmitter, (t.inp five).entry.map InFlight.phase)) =
      some (.sending ⟨false, 0x6C, 100000000, 5000, n81⟩, some .sending) := by decide

theorem test_hand_off_under_a_held_gate_pauses :
    look (exec (.handOff late five) (inFlight keys (live.modInp five fun i => { i with gate := ⟨false, true, false, false⟩ })))
      (fun t => ((t.fe five).transmitter, (t.inp five).entry.map InFlight.phase)) =
      some (.idle, some (.pausedGate 100000000)) := by decide

/-- 9,600 baud: ten bits of 5,000 ticks. -/
theorem test_character_ends_after_ten_bits :
    look (exec (.characterSent (at' 50000) five) (sends (.sending ⟨false, 0x6C, 0, 5000, n81⟩) (inFlight keys live)))
      (fun t => ((t.fe five).transmitter, (t.inp five).entry.map InFlight.sent, (t.cnt five).bytesSent)) =
      some (.idle, some 1, 1) := by decide

theorem test_character_does_not_end_before :
    look (exec (.characterSent (at' 49999) five) (sends (.sending ⟨false, 0x6C, 0, 5000, n81⟩) (inFlight keys live)))
      (fun t => (t.cnt five).bytesSent) = some 0 := by decide

theorem test_line_end_of_the_last_byte_ends_the_entry :
    look (exec (.lineEndExpiry late five) (inFlight { keys with sent := 2, phase := .lineEnd 100000000 } live))
      (fun t => ((t.inp five).entry, (t.cap five).nextRecord)) = some (none, 2) := by decide

/-- One second of pause under a stall limit of 1. -/
def stalled : State :=
  withSettings (fun n => { n with stallLimit := 1 })
    (inFlight { keys with phase := .pausedFlow 52000000 } (live.modFe five fun f => { f with flowPause := true }))

theorem test_stall_cuts_the_entry :
    look (exec (.stall late five) stalled) (fun t => ((t.inp five).entry, (t.cap five).nextRecord)) = some (none, 2) := by
  decide

/-- A grant held for two seconds under a timeout of 2. -/
def lapsing : State :=
  withSettings (fun n => { n with grantTimeout := 2 })
    (live.modInp five fun i => { i with holder := 3, grantSince := some 4000000 })

theorem test_lapse_frees_the_grant :
    look (exec (.lapse late five) lapsing) (fun t => ((t.inp five).holder, (t.cap five).nextRecord)) = some (0, 2) := by
  decide

theorem test_lapse_waits_for_the_timeout :
    look (exec (.lapse (at' 99999999) five) lapsing) (fun t => (t.inp five).holder) = some 3 := by decide

/-- A break of 300 ms. -/
def aBreak : InFlight := ⟨true, 3, 0, 0, [], 300, 0, .breaking⟩

theorem test_break_sent_enters_recovery :
    look (exec (.breakSent (at' 14400000) five) (sends (.spacing 0 300) (inFlight aBreak live)))
      (fun t => ((t.fe five).transmitter, (t.inp five).entry, (t.cap five).nextRecord)) =
      some (.recovery 14405000, none, 2) := by decide

theorem test_recovery_ends :
    look (exec (.recoveryEnd (at' 14405000) five) (sends (.recovery 14405000) live)) (fun t => (t.fe five).transmitter) =
      some .idle := by decide

/-- A probe interval of 2 seconds on a LIVE line of UNKNOWN console state. -/
def probing : State := withSettings (fun n => { n with probeInterval := 2 }) live

theorem test_probe_begins :
    look (exec (.probeDue (at' 96000000) five) probing) (fun t => ((t.fe five).transmitter, (t.inp five).armed)) =
      some (.sending ⟨true, 0x0D, 96000000, 5000, n81⟩, true) := by decide

theorem test_sent_probe_is_disarmed :
    look (exec (.characterSent late five) (sends (.sending ⟨true, 0x0D, 96000000, 100, n81⟩) probing))
      (fun t => ((t.fe five).transmitter, (t.inp five).armed, (t.inp five).silence)) = some (.idle, false, 100000000) := by
  decide

/-! ## The receive side -/

/-- A start edge at tick 0, at 9,600 baud. -/
def edge0 : StartEdge := ⟨0, 5000, n81⟩

/-- The wave of 41h: bits 1 and 7 high (1000 0010 on the wire after the start bit). -/
def waveA : Wave := [(45000, true), (40000, false), (35000, true), (10000, false), (5000, true)]

theorem test_wave_of_41h : waveOf 0 5000 n81 0x41 = waveA := by decide

theorem test_character_41h_is_delivered :
    look (exec (.characterDelivered (at' 47500) five) (hears (.frame edge0 waveA) live))
      (fun t => ((t.cap five).openRecord.map OpenRecord.bytes, (t.cnt five).bytesReceived, (t.fe five).receiver)) =
      some (some [0x41], 1, .idle) := by decide

theorem test_xoff_is_absorbed :
    look (exec (.characterDelivered (at' 47500) five)
        (hears (.frame edge0 (waveOf 0 5000 n81 0x13)) (withSettings (fun n => { n with flow := .soft }) live)))
      (fun t => ((t.fe five).flowPause, (t.cap five).openRecord, (t.cnt five).bytesReceived)) = some (true, none, 0) := by
  decide

/-- An open DATA record of one byte, idle since tick 50,000: the gap of 3 characters is at 200,000. -/
def idling : State :=
  (live.modCap five fun c => { c with openRecord := some ⟨[0x41], 0, 0, 0⟩ }).modFe five
    fun f => { f with idle := some ⟨50000, 50000⟩ }

theorem test_record_gap_closes :
    look (exec (.recordGap (at' 200000) five) idling) (fun t => ((t.cap five).openRecord, (t.cap five).nextRecord)) =
      some (none, 2) := by decide

theorem test_record_gap_is_not_early :
    look (exec (.recordGap (at' 199999) five) idling) (fun t => (t.cap five).nextRecord) = some 1 := by decide

theorem test_break_begins_at_two_characters :
    look (exec (.breakBegun (at' 100000) five) (hears (.holding edge0 []) live))
      (fun t => ((t.fe five).receiver, (t.cnt five).breaksReceived)) = some (.inBreak edge0 none, 1) := by decide

theorem test_break_ends_after_a_high_bit :
    look (exec (.breakEnded (at' 125000) five) (hears (.inBreak edge0 (some 120000)) live))
      (fun t => ((t.fe five).receiver, (t.cap five).nextRecord)) = some (.idle, 2) := by decide

/-- A break of 100 ms under a dark-break limit of 100 ms. -/
def spaced : State :=
  withSettings (fun n => { n with darkBreak := 100 })
    ((hears (.inBreak edge0 none) live).modFe five fun f => { f with mark := false, view := true })

theorem test_space_hold_takes_the_line_to_dark :
    look (exec (.spaceHold (at' 4800000) five) spaced)
      (fun t => ((t.ctl five).state, (t.fe five).latch, (t.fe five).view, (t.cap five).nextRecord)) =
      some (.dark, true, false, 3) := by decide +kernel

/-- Every pin at mark and 3 V, every signal asserted. -/
def pinsUp : Vector Pins 48 := Vector.replicate 48 ⟨some ⟨true, 3⟩, some ⟨true, 3⟩, some true, some true, some true, some true⟩

/-- Every pin at mark and 1 V, every signal negated. -/
def pinsDown : Vector Pins 48 := Vector.replicate 48 ⟨some ⟨true, 1⟩, some ⟨true, 1⟩, some false, some false, some false, some false⟩

theorem test_sample_reads_the_level :
    look (exec (.sample (at' 48000) pinsDown) live)
      (fun t => ((t.fe five).readings, t.port.sampled)) = some (⟨false, true, false, false⟩, some 48000) := by decide +kernel

/-- A pin with no voltage reads mark, at 0 V, and deasserted (R17). -/
theorem test_undriven_pins :
    readPins Settings.default ⟨none, none, none, none, none, none⟩ = ⟨false, true, false, false⟩ ∧
      readPins { Settings.default with role := .dce } ⟨none, none, none, none, none, none⟩ = ⟨false, true, false, false⟩ := by
  decide

/-- One sample short of the settle count, on a present line whose level falls. -/
def fading : State :=
  withSettings (fun n => { n with source := .level })
    (live.modFe five fun f => { f with view := true, contrary := 249 })

theorem test_the_250th_contrary_sample_takes_the_line_to_dark :
    look (exec (.sample (at' 48000) pinsDown) fading) (fun t => ((t.ctl five).state, (t.fe five).view)) =
      some (.dark, false) := by decide +kernel

theorem test_falling_edge_starts_a_candidate :
    look (exec (.joinEvent (at' 7) five) live) (fun t => ((t.fe five).receiver, (t.inp five).silence)) =
      some (.candidate ⟨7, 5000, n81⟩ [], 7) := by decide

/-- A SEEKING AUTO line that waits for an edge. -/
def seeking : State :=
  (withSettings (fun n => { n with rateMode := .autoSnap }) (lineIn .seeking)).setPhase five .edgeWait

theorem test_falling_edge_joins_a_waiting_line :
    look (exec (.joinEvent (at' 7) five) seeking) (fun t => (t.phaseOf five, t.channelNumber five)) =
      some (.measuring, 1) := by decide

/-- Line 6 joins and takes the only FREE channel; line 5 joins at the same tick and comes before it (R64, R67). -/
theorem test_lines_of_one_tick_join_in_ascending_number :
    (let t := joinTail 4 (joinTail 5
        ([(0 : Fin 4), 1, 2].foldl (fun s i => setChannel i (some (Channel.awaiting ⟨i.val, by omega⟩ 0)) s) running));
      (t.phaseOf 4, t.phaseOf 5, t.rate.wait)) = (.measuring, .queued, [5]) := by decide

/-- Line 1 leaves channel 1 and line 6 joins at one tick, channel 2 being FREE: in either order line 6 has channel 1 (R67). -/
theorem test_releases_of_a_tick_come_before_its_grants :
    (let s := [(0 : Fin 4), 2, 3].foldl (fun s i => setChannel i (some (Channel.awaiting ⟨i.val, by omega⟩ 0)) s)
        { running with now := 7 };
      ((leaveMeasurement 0 .edgeWait (joinTail 5 s)).channelNumber 5, (joinTail 5 (leaveMeasurement 0 .edgeWait s)).channelNumber 5)) =
      (1, 1) := by decide

theorem test_rising_edge_within_the_deglitch_time_is_a_glitch :
    look (exec (.receiveRisingEdge (at' 23) five)
        ((hears (.candidate edge0 []) live).modFe five fun f => { f with mark := false }))
      (fun t => (t.fe five).receiver) = some .idle := by decide

theorem test_confirming_sample_confirms :
    look (exec (.confirmingSample (at' 2500) five) (hears (.candidate edge0 []) live)) (fun t => (t.fe five).receiver) =
      some (.frame edge0 []) := by decide

theorem test_confirming_sample_finds_a_false_start :
    look (exec (.confirmingSample (at' 2500) five) (hears (.candidate edge0 [(2000, true)]) live))
      (fun t => (t.fe five).receiver) = some .idle := by decide

/-- R4 at P = 417: a low that ended 50 ticks on, behind D = 24, is judged by the sample at 208, which is high, though a CONFIGURE
has set D to 255 since. -/
theorem test_ended_low_is_judged_by_the_sample_whatever_D_has_become :
    look (exec (.confirmingSample (at' 255) five)
        (hears (.candidate ⟨0, 417, n81⟩ [(50, true)]) (withSettings (fun n => { n with deglitch := 255 }) live)))
      (fun t => (t.fe five).receiver) = some .idle := by decide

theorem test_low_frame_is_held_back :
    look (exec (.frameHeldBack (at' 47500) five) (hears (.frame edge0 []) live)) (fun t => (t.fe five).receiver) =
      some (.holding edge0 []) := by decide

/-! ## Measurement and the DATA timer -/

/-- Line 5 in channel 2 with the second worked window of 1.7 complete. -/
def measured (state : LineState) (x : Channel) : State :=
  (setChannel 1 (some x) (withSettings (fun n => { n with rateMode := .autoTrim }) (lineIn state))).setPhase five .measuring

/-- The channel after twelve widths, the window before it having been the same. -/
def agreeing : Channel :=
  { Channel.awaiting five 0 with
    collecting := true, evaluated := 1, current := widths, previous := some (.entry 12)
    previousWidths := widths, previousMultiples := [1, 2, 1, 1, 3, 1, 2, 1, 1, 1, 2, 1] }

theorem test_second_worked_window_locks_at_411 :
    look (exec (.windowEvaluated (at' 9) five) (measured .seeking agreeing))
      (fun t => ((t.ctl five).state, (t.ctl five).period, (t.ctl five).remembered, t.channelNumber five)) =
      some (.live, 411, some 411, 0) := by decide

theorem test_sixth_window_fails :
    look (exec (.windowEvaluated (at' 9) five) (measured .seeking { agreeing with evaluated := 5, previous := some .noCandidate }))
      (fun t => ((t.ctl five).state, t.phaseOf five)) = some (.seeking, .edgeWait) := by decide

theorem test_window_timeout_waits_for_an_edge :
    look (exec (.windowTimeout (at' 96000000) five) (measured .seeking (Channel.awaiting five 0)))
      (fun t => (t.phaseOf five, t.channelNumber five)) = some (.edgeWait, 0) := by decide

/-- At the tick of the twelfth width the window is evaluated, and its timer does not end it (R70). -/
theorem test_complete_window_does_not_time_out :
    look (exec (.windowTimeout (at' 96000000) five) (measured .seeking { agreeing with timer := 96000000 }))
      (fun t => (t.phaseOf five, t.channelNumber five)) = some (.measuring, 2) := by decide

/-- A DATA notice pending since tick 0, with an interval of 1 second. -/
def dataPending : State :=
  withSettings (fun n => { n with dataInterval := 1000 })
    { live with notice := { live.notice with data := upd live.notice.data five fun _ => ⟨some 0, true, 4⟩ } }

theorem test_data_timer_starts_again :
    look (exec (.dataTimer (at' 48000000) five) dataPending) (fun t => t.notice.data[five]) =
      some ⟨some 48000000, false, 0⟩ := by decide

theorem test_queue_is_first_in_first_out :
    look (step { running with pending := [.prompt late 1, .prompt late 2] })
      (fun t => (t.pending, t.port.prompts[1], t.port.prompts[2])) = some ([.prompt late 2], true, false) := by decide


/-! ## Witnesses: states that meet the hypotheses of the statements -/

theorem witness_StepTakesFrontCommand : State.reset.pending = [] := rfl

theorem witness_EveryCommandIsCarriedOut :
    (WellFormed (.halt late) = true ∧ live.regionsInside = true ∧ ∃ t, exec (.halt late) live = .next t) ∧
      exec (.disable ⟨late, false⟩ five)
        { running with port := { running.port with regions := some { theRegions with pool := ⟨0x2000000, 0⟩ } } } =
        .fault .outsideSharedRegion ∧
      exec (.registerWriteIgnored late 8 0) running = .refused .notAnIgnoredWrite :=
  ⟨⟨rfl, rfl, _, rfl⟩, rfl, rfl⟩

/-- Line 5 is LIVE, holds block 2 of 3, and the command at the front of the queue halts the engine. -/
def kept : State :=
  { live with
    pending := [.halt late]
    pool :=
      { blocks := 2
        free := [1]
        takes := []
        lines := upd live.pool.lines five fun c => { c with chain := [⟨2, 1, true, 1, 1, 2016, 0, 0⟩] } } }

theorem witness_invariants_step : ∃ t, step kept = .next t := ⟨_, rfl⟩

theorem witness_StepKeepsCanonicalMemory : (holding 0x1FFFFFF [1] running).mem.wf := by decide

theorem witness_StepKeepsDecodingLaw : ∀ k, kept.decodingLaw k := by
  unfold State.decodingLaw
  decide

/-- Lines 5 and 6 joined at one tick, with no channel FREE; every line is SEEKING. -/
def waiting : State :=
  { joinTail 4 (joinTail 5
      ([(0 : Fin 4), 1, 2, 3].foldl
        (fun s i => (setChannel i (some (Channel.awaiting ⟨i.val, by omega⟩ 0)) s).setPhase ⟨i.val, by omega⟩ .measuring)
        { running with
          control := tab fun k => { running.control[k] with state := .seeking }
          rate := { running.rate with phase := Vector.replicate 48 .edgeWait, joined := Vector.replicate 48 (some 0) } })) with
    pending := [.timeLow late] }

theorem witness_StepKeepsGrantLaw :
    waiting.grantLaw ∧ waiting.queueLaw ∧ waiting.measureLaw ∧ ∃ t, step waiting = .next t := by
  have h : waiting.measurementsHold = true := by decide +kernel
  simp only [State.measurementsHold, decide_eq_true_eq] at h
  exact ⟨h.1, h.2.1, h.2.2, _, rfl⟩

theorem kept_poolLaw : kept.poolLaw := by
  unfold State.poolLaw
  decide

/-- One block at most, none open, nothing in flight: the bounds of R82 and R94 hold. -/
theorem bounds {s : State} (h : ∀ k, (s.cap k).chain.length ≤ 1 ∧ (s.cap k).openRecord = none ∧ (s.inp k).entry = none ∧
    ∀ b ∈ (s.cap k).chain, b.fill ≤ payloadBytes) (k : LineIx) : s.fillingLaw k ∧ s.sizeLaw k := by
  obtain ⟨h1, h2, h3, h4⟩ := h k
  refine ⟨fun b hb => ?_, by simp [h2], by simp [h3], h4⟩
  have := List.length_pos_of_mem hb
  simp at this
  omega

theorem witness_StepKeepsPoolLaw : kept.poolLaw ∧ ∀ k, kept.fillingLaw k ∧ kept.sizeLaw k :=
  ⟨kept_poolLaw, bounds (by decide)⟩

/-- Line 5 holds blocks 1 and 2 of 100 under a quota min of 4, both pinned by the OPEN pin 17; line 5 is LIVE. -/
def lawful : State :=
  withSettings (fun n => { n with quotaMin := 4 })
    { live with
      pending := [.halt late]
      pool :=
        { blocks := 100
          free := List.range' 3 98
          takes := []
          lines := upd live.pool.lines five fun c => { c with
            chain := [⟨1, 1, false, 1, 9, 2000, 0, 0⟩, ⟨2, 2, true, 10, 1, 24, 0, 0⟩]
            nextRecord := 11
            nextSequence := 3
            pins := [⟨17, 0, 1, 2, 3, false, 0⟩] } } }

theorem lawful_poolLaw : lawful.poolLaw := by
  have h : heldIndices lawful = [1, 2] := by decide
  unfold State.poolLaw
  rw [h]
  exact List.perm_append_comm (l₂ := [1, 2])

theorem lawful_laws (k : LineIx) :
    lawful.fillingLaw k ∧ lawful.sizeLaw k ∧ lawful.rangeLaw k ∧ lawful.chainLaw k ∧ lawful.pinLaw k ∧ lawful.youngLaw k := by
  have h : ∀ k, ((lawful.cap k).openRecord = none ∧ (lawful.inp k).entry = none ∧ (lawful.ctl k).remembered = none) ∧
      (∀ b ∈ (lawful.cap k).chain, b.fill ≤ payloadBytes) ∧ (∀ b ∈ (lawful.cap k).chain.dropLast, b.filling = false) ∧
      (40 ≤ (lawful.ctl k).period ∧ (lawful.ctl k).period ≤ 1048575) := by decide
  have hr : ∀ k, (lawful.cfg k).inRange := by
    unfold Settings.inRange
    decide
  have hc : ∀ k, lawful.chainLaw k ∧ lawful.pinLaw k := by
    unfold State.chainLaw State.pinLaw
    decide +kernel
  have hy : ∀ k, (∀ b ∈ (lawful.cap k).chain, lawful.age k b.sequence < 2 ^ 32 - 2 ^ 16) ∧
      ∀ p ∈ (lawful.cap k).pins, lawful.age k p.first < 2 ^ 32 - 2 ^ 16 := by decide +kernel
  obtain ⟨⟨h1, h2, h3⟩, h4, h5, h6⟩ := h k
  exact ⟨h5, ⟨by simp [h1], by simp [h2], h4⟩, ⟨hr k, h6, by simp [h3]⟩, (hc k).1, (hc k).2, hy k⟩

theorem witness_StepKeepsCaptureBounds :
    lawful.poolLaw ∧ lawful.reserveLaw ∧
      (∀ k, lawful.fillingLaw k ∧ lawful.sizeLaw k ∧ lawful.rangeLaw k ∧ lawful.chainLaw k ∧ lawful.pinLaw k ∧
        lawful.youngLaw k) ∧ lawful.pool.plan = Plan.none ∧ ∃ t, step lawful = .next t := by
  refine ⟨lawful_poolLaw, ?_, lawful_laws, rfl, _, rfl⟩
  unfold State.reserveLaw
  decide +kernel

theorem witness_StepKeepsVersionsEven : kept.versionLaw := by
  unfold State.versionLaw
  decide

theorem witness_StepKeepsHaltedLinesOff : kept.haltedLaw ∧ State.reset.haltedLaw := by
  unfold State.haltedLaw
  decide

theorem witness_StepKeepsRanges : ∀ k, kept.rangeLaw k := by
  have h : ∀ k, (kept.ctl k).settings = Settings.default ∧ (kept.ctl k).period = 5000 ∧ (kept.ctl k).remembered = none := by
    decide
  intro k
  obtain ⟨h1, h2, h3⟩ := h k
  unfold State.rangeLaw State.cfg
  rw [h1, h2, h3]
  refine ⟨?_, by decide, nofun⟩
  unfold Settings.inRange
  decide

theorem witness_LinesAreApart : lineActedOn (.handOff late five) = some five ∧ ∃ t, exec (.handOff late five) live = .next t :=
  ⟨rfl, _, rfl⟩

theorem witness_StoresStayInside :
    (∀ e, Instr.recordGap late five ≠ .partReset e) ∧ kept.poolLaw ∧ (∀ k, kept.sizeLaw k) ∧
      ∃ t, exec (.recordGap late five) kept = .next t :=
  ⟨nofun, kept_poolLaw, fun k => (witness_StepKeepsPoolLaw.2 k).2, _, rfl⟩

theorem witness_RecordFreeCommandsSpareTheBlocks :
    (writesNoBlock (.keysEntry late five) = true ∧ ∃ t, exec (.keysEntry late five) live = .next t) ∧
      (let s := holding 0 [] (live.modPort fun p => { p with look := some ⟨entryOf five, 0, false⟩ });
        (s.arrive late).looking = some (entryOf five) ∧ (s.arrive late).newRequest (entryOf five) = none ∧
          ∃ t, exec (.lookEnd ⟨late, false⟩ true) s = .next t) ∧
      writesNoBlock (.holdInput ⟨late, false⟩ five) = true ∧ countFirst (.holdInput ⟨late, false⟩ five) = true ∧
        ((asked kindHoldInput [] live).arrive late).looking = some (entryOf five) ∧
          ∃ t, exec (.holdInput ⟨late, false⟩ five) (asked kindHoldInput [] live) = .next t :=
  ⟨⟨rfl, _, rfl⟩, ⟨by decide, by decide, _, rfl⟩, rfl, rfl, by decide, _, rfl⟩

theorem witness_CandidateIsNearest :
    (0xC000 : BitVec 16) ≠ 0 ∧ candidate 0xC000 78 = some 14 ∧ enabled 0xC000 15 = true ∧ (15 : Fin 16) ≠ 14 := by decide

theorem witness_AcceptanceTest : parseSettings defaultRecord = .ok Settings.default := by rfl

theorem witness_ProposedPeriodByMode : 0 < 34 ∧ (2 * 13958 + 34) / (2 * 34) = 411 := by decide

/-- Line 5 is CHECKING at a period of 5,000. -/
def checking (mode : RateMode) : State := withSettings (fun n => { n with rateMode := mode }) (lineIn .checking)

theorem witness_LockOfCheckingLine :
    ((checking .autoSnap).ctl five).state = .checking ∧ ((checking .autoSnap).ctl five).period = 5000 ∧
      ((checking .autoSnap).cfg five).rateMode = .autoSnap ∧ ((checking .autoTrim).ctl five).state = .checking ∧
      ((checking .autoTrim).ctl five).period = 5000 ∧ ((checking .autoTrim).cfg five).rateMode = .autoTrim := by decide

theorem witness_SentCharacterIsReceived :
    2 ≤ 5000 ∧ waveOf 0 5000 n81 0x41 = waveA ∧
      (((hears (.frame edge0 waveA) live).arrive (at' 47500)).fe five).receiver = .frame ⟨0, 5000, n81⟩ waveA := by decide

theorem witness_ProgressIsTheLongestPrefix :
    more.length = more.bytes.length ∧ 1 ≤ more.length ∧
      ∀ pre, pre <+: [0x2D#8, 0x2D, 0x2D, 0x4D, 0x6F, 0x72, 0x65, 0x2D] → pre.length < more.length ∨
        more.sameAll more.bytes (pre.drop (pre.length - more.length)) = false := by
  refine ⟨rfl, by decide, fun pre h => ?_⟩
  obtain ⟨n, rfl⟩ : ∃ n, pre = List.take n [0x2D#8, 0x2D, 0x2D, 0x4D, 0x6F, 0x72, 0x65, 0x2D] :=
    ⟨_, List.prefix_iff_eq_take.mp h⟩
  by_cases hn : n < 8
  · exact .inl (by simp [more]; omega)
  · rw [List.take_of_length_le (by simp; omega)]
    exact .inr (by decide)

theorem witness_ProgressIsTheLongestPrefix_lineStart :
    (login.length = login.bytes.length ∧ 1 ≤ login.length ∧ ∀ b ∈ login.bytes, b ≠ 0x0D#8 ∧ b ≠ 0x0A#8) ∧
      ∀ b ∈ [0x4C#8, 0x6F, 0x67], b ≠ 0x0D#8 ∧ b ≠ 0x0A#8 := by decide

/-- Line 5's FILLING block 2 has room for one record of 20 bytes, and no more. -/
def nearlyFull : State :=
  { holding 0 [] kept with pool :=
    { blocks := 2
      free := [1]
      takes := []
      lines := upd kept.pool.lines five fun c => { c with chain := [⟨2, 1, true, 1, 1, 1996, 0, 0⟩] } } }

theorem witness_PlacedRecordReadsBack :
    nearlyFull.port.regions = some theRegions ∧
      fillingOf (nearlyFull.cap five).chain = some ⟨2, 1, true, 1, 1, 1996, 0, 0⟩ ∧
      1996 + (grantRecord 0 3 .give 0).size ≤ payloadBytes ∧
      theRegions.pool.base + blockOffset 2 + 2048 ≤ regionBytes ∧ nearlyFull.mem.wf := by decide

/-- The same with a ring of 256 slots and a GRANT record written. -/
def granted : State :=
  record five (grantRecord 0 3 .give 0) { nearlyFull with notice := { nearlyFull.notice with capacity := some 256 } }

theorem witness_RecordTakesTheNextNumber :
    (let s := { nearlyFull with notice := { nearlyFull.notice with capacity := some 256 } };
      s.port.regions = some theRegions ∧ s.mem.wf ∧ s.poolLaw ∧ (∀ x, s.poolArea x → ¬s.ringArea x)) ∧
      theRegions.pool.base + 2 * 2048 ≤ regionBytes ∧ (grantRecord 0 3 .give 0).size ≤ payloadBytes ∧
      fillingOf (granted.cap five).chain = some ⟨2, 1, true, 1, 2, 2016, 0, 0⟩ := by
  refine ⟨⟨rfl, by decide, by unfold State.poolLaw; decide, ?_⟩, by decide⟩
  rintro x ⟨r, hr, hx⟩ ⟨q, c, hq, hc, hx'⟩
  cases hr
  cases hq
  cases hc
  simp [theRegions] at hx hx'
  omega

/-- Line 5 holds two blocks under a quota of 2 to 3, the older FILLED and unpinned, with `free` blocks left. -/
def quota (free : List Nat) : State :=
  withSettings (fun n => { n with quotaMax := 3 })
    { chained running with pool := { (chained running).pool with
        free := free
        lines := upd (chained running).pool.lines five fun c => { c with pins := [] } } }

theorem witness_BlockChoice :
    ((pooled running).pool.plan = Plan.none ∧ (quota []).pool.plan = Plan.none ∧ (pooled running).pool.free = 1 :: [2, 3, 4, 5, 6, 7, 8] ∧
        ((pooled running).cap five).chain.length < ((pooled running).cfg five).quotaMin) ∧
      (((quota (List.range' 4 95)).cap five).chain.length < ((quota (List.range' 4 95)).cfg five).quotaMax ∧
        (quota (List.range' 4 95)).unmetOthers five < (quota (List.range' 4 95)).pool.free.length) ∧
      (((quota [1]).cfg five).quotaMin ≤ ((quota [1]).cap five).chain.length ∧
        (quota [1]).pool.free.length ≤ (quota [1]).unmetOthers five ∧
        (sealFilling five (quota [1])).victim five = some 2) := by decide

/-- Line 5 takes a block before line 4, at one tick. -/
theorem witness_BlockChoice_order :
    (3 : LineIx) < five ∧ lawful.pool.plan = Plan.none ∧ lawful.pool.takes = [] ∧ lawful.poolLaw ∧ lawful.reserveLaw ∧
      ∀ k, lawful.fillingLaw k ∧ lawful.sizeLaw k ∧ lawful.rangeLaw k ∧ lawful.chainLaw k ∧ lawful.pinLaw k ∧
        lawful.youngLaw k :=
  ⟨by decide, rfl, rfl, lawful_poolLaw, witness_StepKeepsCaptureBounds.2.1, lawful_laws⟩

/-- Of two lines that need blocks at one tick the one of the lower number has the head of the free list, once the takes of the
tick are known, though its command comes second (R88). -/
theorem test_lines_take_blocks_in_ascending_number :
    (let s := takeBlock 3 (takeBlock five lawful); (chainIndices s 3, chainIndices s five)) = ([4], [1, 2, 3]) ∧
      (let s := takeBlock 3 (takeBlock five
          { lawful with pool := { lawful.pool with plan := ⟨[⟨five, false⟩, ⟨3, false⟩], []⟩ } });
        (chainIndices s 3, chainIndices s five, s.pool.plan.chosen)) = ([3], [1, 2, 4], []) := by decide +kernel

/-- The same where line 5 has returned its block before line 4 takes: block 3 is line 4's, and block 4 comes behind the others on
the free list. -/
theorem test_a_returned_block_is_the_one_chosen :
    (let s := takeBlock 3 (returnBlock five (takeBlock five
        { lawful with pool := { lawful.pool with plan := ⟨[⟨five, false⟩, ⟨3, false⟩], []⟩ } }) 4);
      (chainIndices s 3, chainIndices s five, s.pool.free.getLast?)) = ([3], [1, 2], some 4) := by decide +kernel

/-- Lines 5 and 30 hold two full blocks each under a quota of 2 to 16, with one block left beyond the other lines' minimums. -/
def oneSpare : State :=
  let full (k : LineIx) (a b : Nat) (s : State) : State := s.modCap k fun c =>
    { c with chain := [⟨a, 1, false, 1, 9, 2016, 0, 0⟩, ⟨b, 2, true, 10, 1, 2016, 0, 0⟩], nextRecord := 11, nextSequence := 3 }
  full five 1 2 (full 29 3 4 { running with pool := { running.pool with blocks := 97, free := List.range' 5 93 } })

/-- At one tick line 30 takes a block, then line 5, and line 30's history is cleared. -/
def spareTick (takes : List Take) : State × Nat :=
  clearCapture 29 false
    (takeBlock five (takeBlock 29 { oneSpare with pool := { oneSpare.pool with plan := ⟨takes, []⟩ } }))

/-- In the order of the commands line 30 has the last spare block, line 5 reclaims its own for want of one, and three blocks are
returned. -/
theorem test_takes_in_the_order_of_commands :
    (chainIndices (spareTick []).1 five, (spareTick []).2, (spareTick []).1.pool.takes) =
      ([2, 1], 3, [⟨29, false⟩, ⟨five, false⟩]) := by decide +kernel

/-- Its takes known, the tick gives line 5 the spare block; line 30 reclaims its own, and two blocks are returned (R88, log
entry 25). -/
theorem test_the_lower_line_chooses_first :
    (let s := spareTick [⟨29, false⟩, ⟨five, false⟩];
      (chainIndices s.1 five, s.2, (s.1.cnt five).blocksReclaimed, (s.1.cnt 29).blocksReclaimed, s.1.pool.takes)) =
      ([1, 2, 5], 2, 0, 1, [⟨29, false⟩, ⟨five, false⟩]) := by decide +kernel

/-- The same with the grants of both lines, which are LIVE, due to lapse; the tick begins with them. -/
def lapsed (tick : Nat) : State :=
  let due (k : LineIx) (s : State) : State :=
    ((s.modCtl k fun c => { c with state := .live, settings := { c.settings with grantTimeout := 1 } }).modFe k fun f =>
      { f with receiver := .idle }).modInp k fun i =>
      { i with holder := 3, grantElapsed := 48000000, gate := { i.gate with notLive := false } }
  let s := due five (due 29 { oneSpare with now := tick })
  { s with start := s.toPart }

/-- A tick in which the grant of line 30 lapses before that of line 5 is run again by its record, here after a tick at which no
command came, and with events that come late (log entry 4). -/
theorem witness_BlockChoice_again :
    (let ran : List Instr := [.lapse (at' 0) 29, .lapse (at' 0) five];
      match step (lapsed 7) with
      | .next s => (reordered ran (ran.foldl again s)).map fun t => (chainIndices t five, chainIndices t 29, t.now)
      | _ => none) = some ([1, 2, 5], [4, 3], 8) := by decide +kernel

/-- A load of a table of unused slots, with the load count saturated, over a count that the host has written over: the count is
written into the control entry again (R124, R175). -/
theorem test_accepted_load_writes_the_count :
    look (exec (.loadPatterns ⟨late, false⟩)
        (let s := askedControl kindLoadPatterns { running with engine := { running.engine with loads := 0xFFFFFFFF } }
         { s with mem := s.mem.write 0x40098 [9, 9] }))
      (fun t => (t.port.entries[(0 : EntryIx)].code, t.engine.loads, t.mem.slice 0x40098 4)) =
      some (.done, 0xFFFFFFFF, [0xFF, 0xFF, 0xFF, 0xFF]) := by decide +kernel

/-- A ring of 256 slots with `n` notices unconsumed. -/
def ringWith (n : Word32) : State :=
  { holding 0 [] running with notice := { running.notice with capacity := some 256, produce := n } }

theorem witness_PostAppendsOrFolds :
    (ringWith 255).port.regions = some theRegions ∧ (ringWith 255).notice.capacity = some 256 ∧
      theRegions.ring.base + 256 * 32 ≤ regionBytes ∧ (ringWith 255).mem.wf ∧
      (leBytes 8 0 ++ leBytes 8 0 : List Byte).length ≤ 16 ∧ (ringWith 255).room = 1 ∧ (ringWith 256).room = 0 := by decide

theorem witness_DataTimerPostsPendingNotice :
    (let a := dataPending.arrive (at' 48000000);
      a.regionsInside = true ∧ a.notice.data[five].last = some 0 ∧ a.notice.data[five].pending = true ∧
        (a.cfg five).dataInterval ≠ 0 ∧ 0 + (a.cfg five).dataInterval * 48000 ≤ a.now) ∧
      (let a := dataPending.arrive (at' 47999999);
        a.notice.data[five].last = some 0 ∧ a.now < 0 + (a.cfg five).dataInterval * 48000) := by decide

theorem witness_EngineStatusFields : State.reset.port.detail < 256 := by decide

theorem witness_RegisterCommands :
    WellFormed (.registerWriteIgnored late 0x10 1) = true ∧ WellFormed (.registerWriteIgnored late 0x0C 1) = false ∧
      0x14#32 ∉ [0x04#32, 0x08#32, 0x0C#32] := by decide

theorem witness_StartAndHaltByEngineState :
    ((State.reset.arrive late).port.engine = .halted ∧ ((starting 0x3FFFF).arrive late).port.engine = .starting ∧
      (live.arrive late).port.engine = .running ∧ ¬∀ k, ((live.arrive late).ctl k).state = .off) ∧
      (0x101#32).toNat % 4 = 1 ∧ (2#32).toNat % 4 = 2 ∧ (3#32).toNat % 4 ≠ 1 ∧ (3#32).toNat % 4 ≠ 2 := by decide

/-- A directory with its ring and its pool off their alignment: the ring, entry 3, is the failing pair. -/
theorem witness_DirectoryChecks :
    checkDirectory theRegions 256 = none ∧
      (let r := { theRegions with ring := ⟨0x2010, 0x1FFF⟩, pool := ⟨0x100001, 0x3FFFF⟩ };
        checkDirectory r 256 = some (3, 2) ∧ r.fails 256 3 2 ∧ r.fails 256 5 2) :=
  ⟨by decide, by decide, ⟨⟨0x2010, 0x1FFF⟩, 32, 8192, by decide, rfl, .inr (.inl (by decide))⟩,
    ⟨⟨0x100001, 0x3FFFF⟩, 2048, 0, by decide, rfl, .inr (.inl (by decide))⟩⟩

theorem witness_RefusedStart :
    (let a := (starting 0x3F7FF).arrive late;
      a.regionsInside = true ∧ a.port.engine = .starting ∧ a.startRefusal = some (.poolTooSmall, 127)) ∧
      (let s := starting 0x3FFFF;
        let a := State.arrive late { s with mem := s.mem.write 0x40004 (leBytes 4 300) };
        a.regionsInside = true ∧ a.port.engine = .starting ∧ a.startRefusal = some (.badDirectory, 3 + 16 * 3)) := by decide

/-- A START with KEEP over the pool of the last run. -/
def restarting : State :=
  (starting 0x3FFFF).modPort fun p => { p with keepFlag := true, lastPool := some theRegions.pool }

theorem witness_AcceptedStart :
    (let a := (starting 0x3FFFF).arrive late;
      a.regionsInside = true ∧ a.port.engine = .starting ∧ a.startRefusal = none ∧ a.port.keepFlag = false) ∧
      (let a := restarting.arrive late;
        a.regionsInside = true ∧ a.port.engine = .starting ∧ a.startRefusal = none ∧ a.port.keepFlag = true ∧
          a.port.lastPool = some a.directory.pool) ∧
      (∃ count : EntryIx → Word32, ∀ i : EntryIx, count i = BitVec.ofNat 32
        (leValue ((restarting.arrive late).mem.slice
          ((restarting.arrive late).directory.lineTable.base + i.val * 512 + 0x60) 4))) :=
  ⟨by decide, by decide, _, fun _ => rfl⟩

/-- Every deadline is at tick 1,000, and entry 48 is prompted. -/
def scanning : State :=
  running.modPort fun p => { p with
    prompts := upd p.prompts 48 fun _ => true
    entries := tab fun i => { p.entries[i] with deadline := 1000 } }

theorem witness_LookBeginTakesTheWaitingEntry :
    (let a := scanning.arrive (at' 1000);
      a.readerFree = true ∧ a.port.entries[(0 : EntryIx)].deadline ≤ a.now ∧
        ∀ j : EntryIx, a.port.entries[j].deadline ≤ a.now →
          a.port.entries[(0 : EntryIx)].deadline < a.port.entries[j].deadline ∨
            a.port.entries[(0 : EntryIx)].deadline = a.port.entries[j].deadline ∧ 0 ≤ j) ∧
      (let a := scanning.arrive (at' 999);
        a.readerFree = true ∧ (∀ j : EntryIx, a.now < a.port.entries[j].deadline) ∧ a.port.prompts[(48 : EntryIx)] = true ∧
          ∀ j : EntryIx, j < 48 → a.port.prompts[j] = false) ∧
      ((asked 1 [] scanning).arrive late).readerFree = false := by decide

/-- A look at line 5's entry is in progress; its slot holds a request of a kind and its count stands at `count`. -/
def looking (discarded : Bool) (number kind count : Byte) : State :=
  holding (recordAt5 + 0x40) ([number, 0, 0, 0, kind] ++ List.replicate 27 0 ++ [count])
    (live.modPort fun p => { p with look := some ⟨entryOf five, 0, discarded⟩ })

theorem witness_LookEndTakesRequestAndCount :
    (running.arrive late).port.look = none ∧
      (∀ kind ∈ [0, 1, 2, 3, 4, 5, 6, 7, 8, 9, 10, 11, 12],
        let a := (looking false 7 kind 32).arrive late;
        a.regionsInside = true ∧ a.port.look = some ⟨entryOf five, 0, false⟩ ∧ a.entryWord (entryOf five) 0x60 = 32 ∧
          a.port.engine = .running ∧ (a.requestSlot (entryOf five)).kind = kind.toNat ∧
          (a.requestSlot (entryOf five)).number ≠ a.port.entries[entryOf five].answered ∧
          (32 - (a.inp five).consume).toNat ≤ 32) ∧
      (let a := (looking false 0 5 33).arrive late;
        a.regionsInside = true ∧ a.port.look = some ⟨entryOf five, 0, false⟩ ∧ a.entryWord (entryOf five) 0x60 = 33 ∧
          a.port.engine = .running ∧ (a.requestSlot (entryOf five)).number = a.port.entries[entryOf five].answered ∧
          ¬(33 - (a.inp five).consume).toNat ≤ 32) ∧
      ((looking true 7 5 32).arrive late).port.look = some ⟨entryOf five, 0, true⟩ := by decide

theorem witness_StatusFollowsTheState :
    (holding 0 [] live).port.regions = some theRegions ∧ theRegions.lineTable.base + 25088 ≤ regionBytes ∧
      (holding 0 [] live).mem.wf ∧ (⟨0x90, 1, 3⟩ : StatusField) ∈ (holding 0 [] live).statusFields (entryOf five) ∧
      (⟨0x90, 1, 3⟩ : StatusField) ∉ running.statusFields (entryOf five) := by decide

/-- A look at the control entry is in progress; its slot holds a request of a kind and its consume count stands at 9. -/
def lookingAt0 (number kind : Byte) : State :=
  holding 0x40040 ([number, 0, 0, 0, kind] ++ List.replicate 27 0 ++ [9])
    (running.modPort fun p => { p with look := some ⟨0, 5, false⟩ })

/-- The summaries of the control entry and of line 5 wait, and there is room for one notice. -/
theorem witness_LookEndDeliversSummaries_notices :
    let s := foldNotice ⟨.lineUp, 5, 0, []⟩ (foldNotice ⟨.answer, 0, 0, []⟩ (ringWith 255));
    s.port.regions = some theRegions ∧ s.notice.capacity = some 256 ∧ 256 ∣ 2 ^ 32 ∧
      theRegions.ring.base + 256 * 32 ≤ regionBytes ∧ s.mem.wf ∧ s.room = 1 ∧
      ((List.finRange 49).filter fun i => decide (0 < s.notice.summaries[i].count)) = [0, 5] := by decide +kernel

theorem witness_LookEndDeliversSummaries :
    (0 : EntryIx) < 1 ∧
      0 < (deliverSummaries (foldNotice ⟨.answer, 0, 0, []⟩ running)).notice.summaries[(0 : EntryIx)].count ∧
      (let a := (lookingAt0 0 16).arrive late;
        a.regionsInside = true ∧ a.port.look = some ⟨0, 5, false⟩ ∧ a.port.engine = .running ∧
          (a.requestSlot 0).number = a.port.entries[(0 : EntryIx)].answered ∧ a.entryWord 0 0x60 = 9) ∧
      ∀ kind ∈ [16, 17, 1],
        let a := (lookingAt0 7 kind).arrive late;
        a.regionsInside = true ∧ (a.requestSlot 0).kind = kind.toNat ∧
          (a.requestSlot 0).number ≠ a.port.entries[(0 : EntryIx)].answered ∧ a.entryWord 0 0x60 = 9 := by decide +kernel

/-- Line 5 has a request of a kind to be taken, and the default settings record with some bytes changed. -/
def askedWith (kind : Nat) (edits : List (Nat × Byte)) (s : State) : State :=
  asked kind [] (holding recordAt5 (edits.foldl (fun b e => b.set e.1 e.2) defaultRecord) s)

/-- The state a request of line 5 meets, behind the count. -/
def met (a : State) : State := a.asTaken (entryOf five) false

/-- The settings that the line's record resolves to, if it is accepted. -/
def resolved (a : State) : Option Settings :=
  match (met a).checkSettings five with
  | .ok n => some n
  | .error _ => none

/-- The look at line 5's slot takes a request with settings that are accepted. -/
structure Accepts (kind : Nat) (n : Settings) (a : State) : Prop where
  inside : a.regionsInside = true
  taken : a.takenAt (entryOf five) kind = some (request 5 kind [])
  settings : (met a).checkSettings five = .ok n
  decoding : a.decodingLaw five

theorem accepts {kind : Nat} {n : Settings} {a : State}
    (h : a.regionsInside = true ∧ a.takenAt (entryOf five) kind = some (request 5 kind []) ∧ resolved a = some n ∧
      (a.inp five).gate.notLive = (!(a.ctl five).state.decoding) ∧
      ((a.fe five).receiver = .stopped ↔ (a.ctl five).state.decoding = false)) : Accepts kind n a := by
  refine ⟨h.1, h.2.1, ?_, h.2.2.2⟩
  have := h.2.2.1
  unfold resolved at this
  split at this
  · rename_i heq
    rw [heq, Option.some.inj this]
  · cases this

theorem witness_EnableChoosesTheState :
    (let a := (askedWith kindEnable [] running).arrive late;
      Accepts kindEnable Settings.default a ∧ ((met a).ctl five).state = .off ∧
        rawPresence Settings.default.source ((met a).fe five).readings = true ∧
        (takeSettings five Settings.default (met a)).chosen five = .live) ∧
      (let n := { Settings.default with source := .level };
        let a := (askedWith kindEnable [(0x0E, 0)] running).arrive late;
        Accepts kindEnable n a ∧ ((met a).ctl five).state = .off ∧ rawPresence n.source ((met a).fe five).readings = false) ∧
      (let n := { Settings.default with rateMode := .autoSnap };
        let a := (askedWith kindEnable [(0, 1)] (running.modCtl five fun c => { c with remembered := some 411 })).arrive late;
        Accepts kindEnable n a ∧ ((met a).ctl five).state = .off ∧ (takeSettings five n (met a)).chosen five = .checking) ∧
      (let n := { Settings.default with rateMode := .autoSnap };
        let a := (askedWith kindEnable [(0, 1)] running).arrive late;
        Accepts kindEnable n a ∧ ((met a).ctl five).state = .off ∧ (takeSettings five n (met a)).chosen five = .seeking) :=
  ⟨⟨accepts (by decide), by decide⟩, ⟨accepts (by decide), by decide⟩,
    ⟨accepts (by decide), by decide⟩, accepts (by decide), by decide⟩

/-- No setting changes; the fixed period does; the mode leaves FIXED on a noisy line; SEEKING ends in FIXED; the frame
changes. -/
theorem witness_ConfigureFollowsTheTable :
    Accepts kindConfigure Settings.default ((askedWith kindConfigure [] live).arrive late) ∧
      (let a := (askedWith kindConfigure [(4, 0xC4), (5, 0x09)] live).arrive late;
        Accepts kindConfigure { Settings.default with fixedPeriod := 2500 } a ∧ ((met a).ctl five).state = .live ∧
          ((met a).ctl five).period = 5000) ∧
      (let a := (askedWith kindConfigure [(0, 1)] (live.modCtl five fun c => { c with noisy := true })).arrive late;
        Accepts kindConfigure { Settings.default with rateMode := .autoSnap } a ∧ ((met a).ctl five).state = .live ∧
          ((met a).cfg five).rateMode = .fixed ∧ ((met a).ctl five).noisy = true) ∧
      (let a := (askedWith kindConfigure [] seeking).arrive late;
        Accepts kindConfigure Settings.default a ∧ ((met a).ctl five).state = .seeking) ∧
      (let a := (askedWith kindConfigure [(1, 7)] live).arrive late;
        Accepts kindConfigure { Settings.default with frame := { n81 with eight := false } } a ∧ ((met a).cfg five).frame = n81) ∧
      Accepts kindConfigure Settings.default ((askedWith kindConfigure [] running).arrive late) :=
  ⟨accepts (by decide), ⟨accepts (by decide), by decide⟩, ⟨accepts (by decide), by decide⟩,
    ⟨accepts (by decide), by decide⟩, ⟨accepts (by decide), by decide⟩, accepts (by decide)⟩

/-- A role that changes while a break, a key byte or a measurement is in progress. -/
theorem witness_ConfigureFollowsTheTable_role :
    (let a := (askedWith kindConfigure [(0x0C, 1)] (sends (.spacing 0 300) (inFlight aBreak live))).arrive late;
      Accepts kindConfigure { Settings.default with role := .dce } a ∧ ((met a).cfg five).role = .dte ∧
        ((met a).inp five).entry = some aBreak ∧ ((met a).fe five).transmitter = .spacing 0 300) ∧
      (let a := (askedWith kindConfigure [(0x0C, 1)]
          (sends (.sending ⟨false, 0x6C, 0, 5000, n81⟩) (inFlight { keys with phase := .sending } live))).arrive late;
        Accepts kindConfigure { Settings.default with role := .dce } a ∧ ((met a).inp five).entry = some { keys with phase := .sending } ∧
          ((met a).fe five).transmitter = .sending ⟨false, 0x6C, 0, 5000, n81⟩) ∧
      (let a := (askedWith kindConfigure [(0, 2), (0x0C, 1)] (measured .checking agreeing)).arrive late;
        Accepts kindConfigure { Settings.default with rateMode := .autoTrim, role := .dce } a ∧ (met a).phaseOf five = .measuring ∧
          (met a).channelOf five = some 1) :=
  ⟨⟨accepts (by decide), by decide⟩, ⟨accepts (by decide), by decide⟩, accepts (by decide), by decide⟩

/-- A dark-break limit of 100 ms over a break of 100 ms, and one of 1,000 ms, which has not passed; a stall limit of 1 second
over a pause of 1 second; a grant timeout of 2 seconds over a grant of 2 seconds. -/
theorem witness_ConfigureFollowsTheTable_limits :
    (let a := (askedWith kindConfigure [(0x12, 100)] (hears (.inBreak edge0 none) live)).arrive (at' 4800000);
      Accepts kindConfigure { Settings.default with darkBreak := 100 } a ∧
        (met a).darkens five { Settings.default with darkBreak := 100 }) ∧
      (let a := (askedWith kindConfigure [(0x12, 0xE8), (0x13, 3)] (hears (.inBreak edge0 none) live)).arrive (at' 4800000);
        Accepts kindConfigure { Settings.default with darkBreak := 1000 } a ∧
          ¬(met a).darkens five { Settings.default with darkBreak := 1000 }) ∧
      (let a := (askedWith kindConfigure [(0x1B, 1)]
          (inFlight { keys with phase := .pausedFlow 52000000 } (live.modFe five fun f => { f with flowPause := true }))).arrive late;
        Accepts kindConfigure { Settings.default with stallLimit := 1 } a ∧
          (met a).stalls five { Settings.default with stallLimit := 1 }) ∧
      (let a := (askedWith kindConfigure [(0x20, 2)]
          (live.modInp five fun i => { i with holder := 3, grantSince := some 4000000 })).arrive late;
        Accepts kindConfigure { Settings.default with grantTimeout := 2 } a ∧
          (met a).lapses five { Settings.default with grantTimeout := 2 } ((met a).inp five).gate) :=
  ⟨⟨accepts (by decide), by decide, by decide, by decide, edge0, none, rfl, by decide, nofun⟩,
    ⟨accepts (by decide), by
      rintro ⟨-, -, -, c, rise, hc, h, -⟩
      cases hc
      exact absurd h (by decide)⟩,
    ⟨accepts (by decide), fun h => absurd rfl h.1, by decide, by decide, .inl rfl,
      { keys with phase := .pausedFlow 52000000 }, 52000000, rfl, .inr rfl, by decide⟩,
    accepts (by decide), by decide, by decide, by decide, rfl, rfl, by decide⟩

theorem witness_LinesAreTakenOut :
    (let a := (asked kindDisable [] live).arrive late;
      a.regionsInside = true ∧ a.takenAt (entryOf five) kindDisable = some (request 5 kindDisable []) ∧
        ((met a).ctl five).state ≠ .off) ∧
      (let a := (live.modPort fun p => { p with engine := .halting }).arrive late;
        a.regionsInside = true ∧ a.port.engine = .halting ∧ (a.ctl five).state ≠ .off) ∧
      (let a := spaced.arrive (at' 4800000);
        a.regionsInside = true ∧ a.spaceHoldDue five = true ∧ (a.ctl five).state.present = true) := by decide

/-- An AUTO_SNAP line 5 with a RELOCK taken. -/
def relocking (state : LineState) : State :=
  asked kindRelock [] (withSettings (fun n => { n with rateMode := .autoSnap }) (lineIn state))

theorem witness_RelockStartsTheMeasurementAgain :
    (let a := (relocking .live).arrive late;
      a.regionsInside = true ∧ a.takenAt (entryOf five) kindRelock = some (request 5 kindRelock []) ∧
        ((met a).cfg five).rateMode ≠ .fixed ∧ ((met a).ctl five).state.present = true ∧ ((met a).ctl five).state = .live) ∧
      (let a := (asked kindRelock [] (measured .checking agreeing)).arrive late;
        a.regionsInside = true ∧ a.takenAt (entryOf five) kindRelock = some (request 5 kindRelock []) ∧
          ((met a).cfg five).rateMode ≠ .fixed ∧ ((met a).ctl five).state.present = true ∧ ((met a).ctl five).state ≠ .live ∧
          (met a).phaseOf five = .measuring ∧ (met a).channelOf five = some 1) ∧
      (let a := ((relocking .seeking).setPhase five .edgeWait).arrive late;
        ((met a).ctl five).state.present = true ∧ (met a).phaseOf five = .edgeWait) ∧
      (let a := ((relocking .seeking).setPhase five .queued).arrive late;
        ((met a).ctl five).state.present = true ∧ (met a).phaseOf five = .queued) := by decide

theorem witness_ResetCountersZeroesEveryCounter :
    let a := (asked kindResetCounters [] (running.modCnt five fun c => { c with bytesReceived := 9 })).arrive late;
    a.regionsInside = true ∧
      a.takenAt (entryOf five) kindResetCounters = some (request 5 kindResetCounters []) := by
  decide

theorem witness_ClearCaptureReturnsUnpinnedBlocks :
    ∀ drop ∈ [(0 : Byte), 1],
      let a := (asked kindClearCapture [drop] (chained live)).arrive late;
      a.regionsInside = true ∧
        a.takenAt (entryOf five) kindClearCapture = some (request 5 kindClearCapture [drop]) ∧
        ((request 5 kindClearCapture [drop]).arg 0).testBit 0 = decide (drop = 1) ∧ a.poolLaw := by
  unfold State.poolLaw
  decide

/-- What goes back, and the regions under which a header is read back. -/
theorem witness_ClearCaptureReturnsUnpinnedBlocks_blocks :
    (closeOpen five .clear (chained live)).unpinned five = [3] ∧ chainIndices (closeOpen five .clear (chained live)) five = [2, 3] ∧
      theRegions.pool.base + 3 * 2048 ≤ regionBytes ∧ ((asked kindClearCapture [0] (chained live)).arrive late).mem.wf ∧
      ∀ y, ((asked kindClearCapture [0] (chained live)).arrive late).poolArea y →
        ¬((asked kindClearCapture [0] (chained live)).arrive late).ringArea y ∧
          ∀ i, ¬((asked kindClearCapture [0] (chained live)).arrive late).statusArea i y := by
  refine ⟨by decide, by decide, by decide, by decide, ?_⟩
  rintro y ⟨r, hr, hy⟩
  cases hr
  refine ⟨?_, ?_⟩
  · rintro ⟨q, c, hq, hc, -⟩
    cases hc
  · rintro i ⟨q, hq, hy'⟩
    cases hq
    simp [theRegions] at hy hy'
    omega

theorem witness_PinsAreMadeAndRemoved :
    (let a := (asked kindPinNow [1, 3] (withSettings (fun n => { n with quotaMin := 3 }) (chained live))).arrive late;
      a.regionsInside = true ∧ a.takenAt (entryOf five) kindPinNow = some (request 5 kindPinNow [1, 3]) ∧
        1 ≤ (met a).budget five ∧ ((met a).cap five).chain ≠ [] ∧ ((met a).cap five).pins.length ≤ 4) ∧
      (let a := (asked kindUnpin [17] (chained live)).arrive late;
        a.regionsInside = true ∧ a.takenAt (entryOf five) kindUnpin = some (request 5 kindUnpin [17]) ∧
          (((met a).cap five).pins.find? fun q => q.id == (request 5 kindUnpin [17]).arg 0) =
            some ⟨17, 0, 1, 1, 0, false, 0⟩) := by decide +kernel

/-- A pin in the list, OPEN and CLOSED; a line whose pins are all CLOSED takes a block. -/
theorem witness_PinsAreMadeAndRemoved_extension :
    (⟨17, 0, 1, 2, 3, false, 0⟩ ∈ (lawful.cap five).pins ∧ ((lawful.cap five).pins.map Pin.id).Nodup) ∧
      (⟨17, 0, 1, 1, 0, false, 0⟩ ∈ ((chained live).cap five).pins ∧ (((chained live).cap five).pins.map Pin.id).Nodup ∧
        ∀ p ∈ ((chained live).cap five).pins, p.remaining = 0) ∧ lawful.poolLaw ∧ 1 ≤ 3 ∧ 3 ≤ lawful.pool.blocks :=
  ⟨by decide, by decide, lawful_poolLaw, by decide, by decide⟩

/-- The two blocks of the pin fill the budget of 2: the third closes it truncated (R113). -/
theorem test_pin_without_room_closes_truncated :
    ((joinBlock five 3 lawful).cap five).pins = [⟨17, 0, 1, 2, 0, true, 0⟩] := by decide

/-- The fifth pin discards the oldest of four (R110). -/
theorem test_fifth_pin_discards_the_oldest :
    ((placePin five ⟨21, 0, 2, 2, 0, false, 9⟩ (lawful.modCap five fun c => { c with
        pins := [17, 18, 19, 20].map fun id => ⟨id, 0, 1, 2, 0, false, 0⟩ })).cap five).pins.map Pin.id = [18, 19, 20, 21] := by
  decide

theorem witness_ConsoleAndGateRequests :
    (let a := (asked kindSetConsole [1] live).arrive late;
      a.regionsInside = true ∧ a.takenAt (entryOf five) kindSetConsole = some (request 5 kindSetConsole [1]) ∧
        Console.ofCode ((request 5 kindSetConsole [1]).arg 0) = some .booting) ∧
      Console.ofCode ((request 5 kindSetConsole [0]).arg 0) = some (live.mat five).console ∧
      ((asked kindHoldInput [] live).arrive late).takenAt (entryOf five) kindHoldInput =
        some (request 5 kindHoldInput []) ∧
      ((asked kindOpenInput [] live).arrive late).takenAt (entryOf five) kindOpenInput =
        some (request 5 kindOpenInput []) := by decide

theorem witness_ControlSlotRequests :
    (let a := (askedControl kindLoadPatterns running).arrive late;
      a.regionsInside = true ∧ a.takenAt 0 kindLoadPatterns = some (request 0 kindLoadPatterns []) ∧
        (a.asTaken 0 false).badSlot = none) ∧
      (((askedControl kindLoadPatterns (holding 0x1040 [33] running)).arrive late).asTaken 0 false).badSlot = some (1, 1) ∧
      ((askedControl kindApplySettings running).arrive late).takenAt 0 kindApplySettings =
        some (request 0 kindApplySettings []) ∧
      ((asked 16 [] running).arrive late).takenUnknown = some (request 5 16 []) := by decide +kernel

theorem witness_RefusedRequestsOnlyAnswer :
    (let a := (asked kindEnable [] live).arrive late;
      a.regionsInside = true ∧ a.takenAt (entryOf five) kindEnable = some (request 5 kindEnable []) ∧
        ((met a).ctl five).state ≠ .off) ∧
      ((met ((asked kindEnable [] running).arrive late)).ctl five).state = .off ∧
      ((met ((asked kindDisable [] running).arrive late)).ctl five).state = .off ∧
      ((asked kindDisable [] running).arrive late).takenAt (entryOf five) kindDisable =
        some (request 5 kindDisable []) ∧
      ((asked kindConfigure [] live).arrive late).takenAt (entryOf five) kindConfigure =
        some (request 5 kindConfigure []) ∧
      ((asked kindRelock [] live).arrive late).takenAt (entryOf five) kindRelock =
        some (request 5 kindRelock []) ∧
      ((met ((asked kindRelock [] live).arrive late)).cfg five).rateMode = .fixed ∧
      ((met ((relocking .dark).arrive late)).ctl five).state.present = false ∧
      ((asked kindPinNow [] live).arrive late).takenAt (entryOf five) kindPinNow =
        some (request 5 kindPinNow []) ∧
      (met ((asked kindPinNow [] live).arrive late)).budget five = 0 ∧
      ((asked kindUnpin [16] (chained live)).arrive late).takenAt (entryOf five) kindUnpin =
        some (request 5 kindUnpin [16]) ∧
      (∀ p ∈ ((met ((asked kindUnpin [16] (chained live)).arrive late)).cap five).pins, p.id ≠ 16) ∧
      Console.ofCode ((request 5 kindSetConsole [5]).arg 0) = none := by decide

theorem witness_RefusedRequestsOnlyAnswer_settings :
    (match (((asked kindEnable [] running).arrive late).asTaken 5 false).checkSettings five with
      | .error x => some x
      | .ok _ => none) = some (.badArgument, 2) ∧
      (match (((asked kindConfigure [] live).arrive late).asTaken 5 true).checkSettings five with
      | .error x => some x
      | .ok _ => none) = some (.badArgument, 2) := by decide

/-- An entry as read from line 5's ring, without keys. -/
def entryRead (tag kind : Nat) : RingEntry := ⟨tag, kind, 0, 0, List.replicate 56 0⟩

/-- The entry stands at the head and is considered, in a state that line 5's ring with it makes. -/
theorem heads (tag kind : Nat) (s : State) (h : (s.considers five, s.head five, (entryRead tag kind).tagOk) =
    (true, entryRead tag kind, true)) : Heads five kind (entryRead tag kind) s := by
  simp only [Prod.mk.injEq] at h
  exact ⟨h.1, h.2.1, h.2.2, rfl⟩

theorem witness_GrantEntriesActOnTheHolder :
    Heads five kindTake (entryRead 3 3) ((ringHolds 3 3 0 0 [] live).arrive late) ∧
      Heads five kindTake (entryRead 3 3) ((held3 (ringHolds 3 3 0 0 [] live)).arrive late) ∧
      Heads five kindTake (entryRead 4 3) ((held3 (ringHolds 4 3 0 0 [] live)).arrive late) ∧
      Heads five kindGive (entryRead 3 4) ((held3 (ringHolds 3 4 0 0 [] live)).arrive late) ∧
      Heads five kindGive (entryRead 4 4) ((held3 (ringHolds 4 4 0 0 [] live)).arrive late) ∧
      Heads five kindSteal (entryRead 15 5) ((held3 (ringHolds 15 5 0 0 [] live)).arrive late) ∧
      Heads five kindSteal (entryRead 4 5) ((held3 (ringHolds 4 5 0 0 [] live)).arrive late) ∧
      ((ringHolds 3 3 0 0 [] live).arrive late).regionsInside = true :=
  ⟨heads _ _ _ (by decide), heads _ _ _ (by decide), heads _ _ _ (by decide),
    heads _ _ _ (by decide), heads _ _ _ (by decide), heads _ _ _ (by decide),
    heads _ _ _ (by decide), by decide⟩

theorem witness_KeysAndBreaksAreTakenOrRefused :
    (Heads five kindKeys (entryRead 3 1) ((held3 (ringHolds 3 1 0 0 [] live)).arrive late) ∧
        (((held3 (ringHolds 3 1 0 0 [] live)).arrive late).inp five).gate.held = false ∧
        (((held3 (ringHolds 3 1 0 0 [] live)).arrive late).inp five).holder = 3 ∧
        ((held3 (ringHolds 3 1 0 0 [] live)).arrive late).regionsInside = true) ∧
      (Heads five kindKeys (entryRead 4 1) ((held3 (ringHolds 4 1 0 0 [] live)).arrive late) ∧
        (((held3 (ringHolds 4 1 0 0 [] live)).arrive late).inp five).holder ≠ 4) ∧
      (Heads five kindKeys (entryRead 3 1) ((held3 (ringHolds 3 1 0 0 [] (lineIn .seeking))).arrive late) ∧
        (((held3 (ringHolds 3 1 0 0 [] (lineIn .seeking))).arrive late).inp five).gate.held = true) ∧
      (Heads five kindBreak (entryRead 3 2) ((held3 (ringHolds 3 2 0 0 [] live)).arrive late) ∧
        (((held3 (ringHolds 3 2 0 0 [] live)).arrive late).cfg five).breakPolicy = .holder ∧
        (((held3 (ringHolds 3 2 0 0 [] live)).arrive late).mat five).console ≠ .prompt) ∧
      (Heads five kindBreak (entryRead 3 2)
          ((withSettings (fun n => { n with breakPolicy := .never }) (held3 (ringHolds 3 2 0 0 [] live))).arrive late) ∧
        (((withSettings (fun n => { n with breakPolicy := .never }) (held3 (ringHolds 3 2 0 0 [] live))).arrive late).cfg
          five).breakPolicy = .never) ∧
      (((ringHolds 16 1 0 0 [] live).arrive late).considers five = true ∧
        ((ringHolds 16 1 0 0 [] live).arrive late).head five = entryRead 16 1) ∧
      ((ringHolds 15 6 0 0 [] live).arrive late).considers five = true ∧
        ((ringHolds 15 6 0 0 [] live).arrive late).head five = entryRead 15 6 :=
  ⟨⟨heads _ _ _ (by decide), by decide⟩, ⟨heads _ _ _ (by decide), by decide⟩,
    ⟨heads _ _ _ (by decide), by decide⟩, ⟨heads _ _ _ (by decide), by decide⟩,
    ⟨heads _ _ _ (by decide), by decide⟩, by decide⟩

theorem witness_HandOffBeginsOrPauses :
    (let a := (inFlight keys live).arrive late;
      a.regionsInside = true ∧ (a.inp five).entry = some keys ∧ keys.phase = .ready ∧ (a.fe five).transmitter = .idle) ∧
      (∀ last, (((inFlight keys live).arrive late).inp five).lastKeyEnd = some last →
        last + (((inFlight keys live).arrive late).cfg five).paceGap * 48 ≤ ((inFlight keys live).arrive late).now) ∧
      (((inFlight aBreak live).arrive late).inp five).entry = some aBreak ∧ aBreak.phase ≠ .ready ∧
      (let a := (withSettings (fun n => { n with paceGap := 2 })
          ((inFlight keys live).modInp five fun i => { i with lastKeyEnd := some 0 })).arrive (at' 95);
        keys.isBreak = false ∧ (a.inp five).lastKeyEnd = some 0 ∧ a.now < 0 + (a.cfg five).paceGap * 48) :=
  ⟨by decide, nofun, by decide⟩

/-- The last bit of the first key ends at tick 50,000. -/
def sendingKey : State := sends (.sending ⟨false, 0x6C, 0, 5000, n81⟩) (inFlight { keys with phase := .sending } live)

theorem witness_SentItemsAndLineEnds :
    (let a := sendingKey.arrive (at' 50000);
      a.regionsInside = true ∧ (a.fe five).probeHanded = false ∧
        (a.fe five).transmitter = .sending ⟨false, 0x6C, 0, 5000, n81⟩ ∧ 0 + n81.bits * 5000 ≤ a.now ∧
        (a.inp five).entry = some { keys with phase := .sending }) ∧
      (let a := (sends (.sending ⟨true, 0x0D, 0, 5000, n81⟩) probing).arrive (at' 50000);
        (a.fe five).transmitter = .sending ⟨true, 0x0D, 0, 5000, n81⟩ ∧ 0 + n81.bits * 5000 ≤ a.now ∧
          (a.inp five).entry = none ∧ (a.fe five).probeHanded = false) ∧
      (let a := (inFlight { keys with sent := 2, phase := .lineEnd 100000000 } live).arrive late;
        (a.inp five).entry = some { keys with sent := 2, phase := .lineEnd 100000000 } ∧ 100000000 ≤ a.now) ∧
      (sendingKey.arrive (at' 49999)).now < 0 + n81.bits * 5000 := by decide

theorem witness_TransmitTimersRunOut :
    (let a := stalled.arrive late;
      a.regionsInside = true ∧ (a.inp five).entry = some { keys with phase := .pausedFlow 52000000 } ∧
        (a.cfg five).stallLimit ≠ 0 ∧ 52000000 + (a.cfg five).stallLimit * 48000000 ≤ a.now) ∧
      (lapsing.arrive late).lapseDue five = true ∧
      (let a := (sends (.spacing 0 300) (inFlight aBreak live)).arrive (at' 14400000);
        (a.fe five).transmitter = .spacing 0 300 ∧ 0 + 300 * 48000 ≤ a.now ∧ (a.inp five).entry = some aBreak) ∧
      (let a := (sends (.recovery 14405000) live).arrive (at' 14405000);
        (a.fe five).transmitter = .recovery 14405000 ∧ 14405000 ≤ a.now ∧ (a.fe five).probeHanded = false ∧
          (a.inp five).entry = none) ∧
      (let a := probing.arrive (at' 96000000);
        a.probeConditions five = true ∧ (a.fe five).transmitter = .idle ∧ (a.fe five).probeHanded = false) := by decide

/-- A whole character stands on the wire at its stop sample. -/
def received (s : State) : State := (hears (.frame edge0 waveA) s).arrive (at' 47500)

theorem witness_CharacterIsAbsorbedOrCaptured :
    ((received live).regionsInside = true ∧
        (received live).delivered five = some (⟨0x41, false, false, 0⟩, 50000, .idle) ∧
        (received live).completing five 0x41 = [] ∧ ((received live).inp five).entry = none ∧
        ((received live).cfg five).flow ≠ .soft) ∧
      (let a := (hears (.frame edge0 (waveOf 0 5000 n81 0x13))
          (withSettings (fun n => { n with flow := .soft }) live)).arrive (at' 47500);
        a.delivered five = some (⟨0x13, false, false, 0⟩, 50000, .idle) ∧ (a.cfg five).flow = .soft) := by decide

/-- A verdict that begins a check, one that turns NOISY on and one that turns it off: the 256th character of a window under an
error limit of 8, with the verdicts before it. -/
theorem witness_CharacterIsAbsorbedOrCaptured_window :
    (let a := received ((withSettings (fun n => { n with rateMode := .autoSnap }) live).modCtl five
        fun c => { c with windowChars := 255, windowErrors := 8, history := [true] });
      a.delivered five = some (⟨0x41, false, false, 0⟩, 50000, .idle) ∧ 256 ≤ (a.ctl five).windowChars + 1 ∧
        (a.ctl five).state = .live ∧ (a.cfg five).rateMode ≠ .fixed ∧ 2 ≤ (([true] ++ [decide (8 ≤ 8)]).filter id).length) ∧
      (let a := received (live.modCtl five fun c => { c with windowChars := 255, windowErrors := 8, history := [true] });
        a.delivered five = some (⟨0x41, false, false, 0⟩, 50000, .idle) ∧ (a.cfg five).rateMode = .fixed ∧
          (a.ctl five).noisy = false) ∧
      (let a := received (live.modCtl five fun c => { c with windowChars := 255, history := [false, false], noisy := true });
        a.delivered five = some (⟨0x41, false, false, 0⟩, 50000, .idle) ∧ (a.ctl five).noisy = true ∧
          [false, false] ++ [decide (8 ≤ 0)] = [false, false, false]) := by decide

/-- The two keys are sent and the entry waits for the echo of its CR. -/
def echoing (sent : Nat) : State :=
  withSettings (fun n => { n with echoWait := true }) (inFlight { keys with sent := sent, phase := .lineEnd 100000000 } live)

theorem witness_CharacterIsAbsorbedOrCaptured_echo :
    (let a := (hears (.frame edge0 (waveOf 0 5000 n81 0x0D)) (echoing 2)).arrive (at' 47500);
      a.delivered five = some (⟨0x0D, false, false, 0⟩, 50000, .idle) ∧
        a.echoed five 0x0D = some { keys with sent := 2, phase := .lineEnd 100000000 } ∧ a.echoRecords five 0x0D ≠ []) ∧
      (let a := (hears (.frame edge0 (waveOf 0 5000 n81 0x0D)) (echoing 1)).arrive (at' 47500);
        a.echoed five 0x0D = some { keys with sent := 1, phase := .lineEnd 100000000 } ∧ a.echoRecords five 0x0D = []) ∧
      (received (echoing 2)).echoed five 0x41 = none := by decide

theorem test_echo_of_the_last_CR_ends_the_entry :
    look (exec (.characterDelivered (at' 47500) five) (hears (.frame edge0 (waveOf 0 5000 n81 0x0D)) (echoing 2)))
      (fun t => ((t.inp five).entry, (t.cap five).nextRecord)) = some (none, 3) := by decide

theorem test_two_bad_verdicts_begin_a_check :
    look (exec (.characterDelivered (at' 47500) five) (hears (.frame edge0 waveA)
        ((withSettings (fun n => { n with rateMode := .autoSnap }) live).modCtl five
          fun c => { c with windowChars := 255, windowErrors := 8, history := [true] })))
      (fun t => ((t.ctl five).state, (t.ctl five).history, t.phaseOf five)) = some (.checking, [], .measuring) := by
  decide

/-- Slot 3 is the one byte "A" on every line, with MARK, STATE and HOLD. -/
def patterned : State :=
  { live with engine := { live.engine with table := upd live.engine.table 2 fun p => { p with
      length := 1, bytes := [0x41], filter := 31, mask := 0xFFFFFFFFFFFF, actMark := true, actState := true
      actHold := true, target := .monitor } } }

theorem witness_CompletionsAreHandledInOrder :
    (received patterned).regionsInside = true ∧
      (received patterned).delivered five = some (⟨0x41, false, false, 0⟩, 50000, .idle) ∧
      ((received patterned).cfg five).flow ≠ .soft ∧ (received patterned).completing five 0x41 = [2] ∧
      ((received patterned).inp five).entry = none := by decide

/-- A line with SOFT flow control, and an entry in LINE_END that the byte of the pattern ends. -/
theorem witness_CompletionsAreHandledInOrder_soft_echo :
    (let a := received (withSettings (fun n => { n with flow := .soft }) patterned);
      a.delivered five = some (⟨0x41, false, false, 0⟩, 50000, .idle) ∧ (a.cfg five).flow = .soft ∧
        a.completing five 0x41 = [2]) ∧
      (let a := (hears (.frame edge0 (waveOf 0 5000 n81 0x0D))
          { echoing 2 with engine := { patterned.engine with
              table := upd patterned.engine.table 2 fun p => { p with bytes := [0x0D] } } }).arrive (at' 47500);
        a.delivered five = some (⟨0x0D, false, false, 0⟩, 50000, .idle) ∧ a.completing five 0x0D = [2] ∧
          a.echoed five 0x0D = some { keys with sent := 2, phase := .lineEnd 100000000 }) := by decide

theorem test_completion_marks_holds_and_sets_the_state :
    look (exec (.characterDelivered (at' 47500) five) (hears (.frame edge0 waveA) patterned))
      (fun t => ((t.cap five).nextRecord, (t.mat five).console, (t.inp five).gate.pattern)) =
      some (3, .monitor, true) := by decide

theorem witness_ReceiverDecides :
    (let a := (hears (.candidate edge0 [(2499, true)]) live).arrive (at' 2500);
      a.regionsInside = true ∧ (a.fe five).receiver = .candidate edge0 [(2499, true)] ∧
        edge0.edge + edge0.period / 2 ≤ a.now ∧ 2499 < edge0.edge + edge0.period / 2) ∧
      (let a := (hears (.candidate edge0 [(2501, true)]) live).arrive (at' 2502);
        (a.fe five).receiver = .candidate edge0 [(2501, true)] ∧ edge0.edge + edge0.period / 2 ≤ a.now ∧
          edge0.edge + edge0.period / 2 < 2501) ∧
      (let a := (hears (.candidate edge0 []) live).arrive (at' 2500);
        (a.fe five).receiver = .candidate edge0 [] ∧
          edge0.edge + max (edge0.period / 2) (a.cfg five).deglitch ≤ a.now) ∧
      ((hears (.candidate edge0 []) live).arrive (at' 2499)).now < edge0.edge + max (edge0.period / 2) (live.cfg five).deglitch ∧
      (let a := (hears (.frame edge0 []) live).arrive (at' 47500);
        (a.fe five).receiver = .frame edge0 [] ∧ edge0.stopAt ≤ a.now) ∧
      (let a := (hears (.holding edge0 [(100000, true)]) live).arrive (at' 100000);
        (a.fe five).receiver = .holding edge0 [(100000, true)] ∧ edge0.edge + 2 * (edge0.frame.bits * edge0.period) ≤ a.now ∧
          ∀ x ∈ [((100000 : Nat), true)], x.2 = true → edge0.edge + 2 * (edge0.frame.bits * edge0.period) ≤ x.1) ∧
      (let a := (hears (.inBreak edge0 (some 120000)) live).arrive (at' 125000);
        (a.fe five).receiver = .inBreak edge0 (some 120000) ∧ 120000 + edge0.period ≤ a.now) ∧
      (idling.arrive (at' 200000)).gapDue five = true ∧ (idling.arrive (at' 199999)).gapDue five = false := by decide

/-- The receive data of line 5 is low, in a receiver state. -/
def hearsLow (x : Receiver) : State := (hears x live).modFe five fun f => { f with mark := false }

/-- What the receiver delivers: a stop sample at 47,500 that is high, with the line high or fallen again behind it; one that is low
behind a rise, and one that is low throughout; a frame held back that rises at the last tick before edge + 2 × C, or at that tick;
and an idle receiver. -/
theorem witness_ReceiverDecides_delivered :
    (∀ w ∈ [waveA, (47501, false) :: waveA],
      let a := (hears (.frame edge0 w) live).arrive (at' 47501);
      (a.fe five).receiver = .frame edge0 w ∧ edge0.edge + edge0.period / 2 + (1 + edge0.frame.dataBits +
          edge0.frame.parityBits) * edge0.period = 47500 ∧ 47500 ≤ a.now ∧ (∀ x ∈ w, x.1 ≠ 47500) ∧
        ((w.find? fun x => decide (x.1 < 47500)).map Prod.snd).getD false = true) ∧
      (∀ w ∈ [[((10000 : Nat), false), (5000, true)], []],
        let a := (hearsLow (.frame edge0 w)).arrive (at' 47500);
        (a.fe five).receiver = .frame edge0 w ∧ 47500 ≤ a.now ∧ (∀ x ∈ w, x.1 ≠ 47500) ∧
          ((w.find? fun x => decide (x.1 < 47500)).map Prod.snd).getD false = false) ∧
      ((hears (.frame edge0 waveA) live).arrive (at' 47499)).now < 47500 ∧
      (∀ rise ∈ [(99999 : Nat), 100000],
        ((hears (.holding edge0 [(rise, true)]) live).arrive (at' rise)).delivered five =
          if rise = 99999 then some (⟨0, false, true, 0⟩, 50000, .idle) else none) ∧
      (live.arrive late).delivered five = none := by decide

theorem witness_EdgesReachReceiverAndChannel :
    ((live.arrive late).regionsInside = true ∧ ((live.arrive late).fe five).mark = true ∧
        ((live.arrive late).fe five).receiver = .idle) ∧
      ((running.arrive late).ctl five).state = .off ∧ (seeking.arrive late).phaseOf five = .edgeWait ∧
      (let a := (measured .seeking (Channel.awaiting five 0)).arrive (at' 1);
        (a.fe five).mark = true ∧ a.phaseOf five = .measuring ∧ a.channelOf five = some 1 ∧
          a.rate.channels[(1 : Fin 4)] = some (Channel.awaiting five 0) ∧ 0 < a.now) ∧
      (let a := ((measured .seeking { agreeing with current := [], lowStart := some 7 }).modFe five
          fun f => { f with mark := false }).arrive late;
        (a.fe five).mark = false ∧ a.channelOf five = some 1 ∧
          a.rate.channels[(1 : Fin 4)] = some { agreeing with current := [], lowStart := some 7 }) := by decide

/-- The clauses of the rising edge: WAIT_HIGH, a glitch at the last tick before edge + D (and none at the next), FRAME. -/
theorem witness_EdgesReachReceiverAndChannel_rise :
    (let a := (hearsLow .waitHigh).arrive late;
        a.regionsInside = true ∧ (a.fe five).mark = false ∧ (a.fe five).receiver = .waitHigh) ∧
      (let a := (hearsLow (.candidate edge0 [])).arrive (at' 23);
        a.regionsInside = true ∧ (a.fe five).mark = false ∧ (a.fe five).receiver = .candidate edge0 [] ∧
          a.now < edge0.edge + (a.cfg five).deglitch) ∧
      (let a := (hearsLow (.candidate edge0 [])).arrive (at' 24); ¬a.now < edge0.edge + (a.cfg five).deglitch) ∧
      (let a := (hearsLow (.frame edge0 [(5000, true), (10000, false)])).arrive (at' 15000);
        a.regionsInside = true ∧ (a.fe five).mark = false ∧
          (a.fe five).receiver = .frame edge0 [(5000, true), (10000, false)]) ∧
      ∀ x ∈ [Receiver.holding edge0 [], .inBreak edge0 none, .idle, .stopped],
        let a := (hearsLow x).arrive late;
        a.regionsInside = true ∧ (a.fe five).mark = false ∧ (a.fe five).receiver = x := by decide

/-- A falling edge behind the start edge: in CANDIDATE, FRAME and HOLDING, and in BREAK on a high stretch of one tick less than P and
of P. -/
theorem witness_EdgesReachReceiverAndChannel_fall :
    (∀ x ∈ [Receiver.candidate edge0 [(2000, true)], .frame edge0 [(5000, true)], .holding edge0 [(99000, true)]],
      let a := (hears x live).arrive (at' 99500);
      a.regionsInside = true ∧ (a.fe five).mark = true ∧ (a.fe five).receiver = x) ∧
      ∀ now ∈ [(124999 : Nat), 125000],
        let a := (hears (.inBreak edge0 (some 120000)) live).arrive (at' now);
        a.regionsInside = true ∧ (a.fe five).mark = true ∧ (a.fe five).receiver = .inBreak edge0 (some 120000) ∧
          decide (120000 + edge0.period ≤ a.now) = decide (now = 125000) := by decide

/-- Line 5 is held DARK by space, one high sample from recovery, with HARD flow control. -/
def latched : State :=
  withSettings (fun n => { n with flow := .hard })
    ((lineIn .dark).modFe five fun f => { f with latch := true, highRun := 249 })

theorem witness_SampleReadsEveryLine :
    ((fading.arrive (at' 48000)).regionsInside = true ∧ (fading.arrive (at' 48000)).sampleDue = true ∧
        readPins ((fading.arrive (at' 48000)).cfg five) pinsDown[five] = ⟨false, true, false, false⟩ ∧
        rawPresence ((fading.arrive (at' 48000)).cfg five).source ⟨false, true, false, false⟩ = false ∧
        ((fading.arrive (at' 48000)).fe five).view = true ∧ ((fading.arrive (at' 48000)).fe five).latch = false ∧
        ((fading.arrive (at' 48000)).cfg five).settle ≤ ((fading.arrive (at' 48000)).fe five).contrary + 1) ∧
      (((latched.arrive (at' 48000)).fe five).latch = true ∧ ((latched.arrive (at' 48000)).ctl five).state ≠ .off ∧
        ((latched.arrive (at' 48000)).cfg five).settle ≤ ((latched.arrive (at' 48000)).fe five).highRun + 1 ∧
        (readPins ((latched.arrive (at' 48000)).cfg five) pinsUp[five]).mark = true) ∧
      (fading.arrive (at' 47999)).sampleDue = false ∧ (fading.arrive (at' 0)).sampleDue = false := by decide

/-- One line at a time: SIGNAL for device-ready that falls; presence that is lost and that is gained, by the filter and by
recovery from space hold. -/
theorem witness_SampleReadsEveryLine_line :
    (let s := { (withSettings (fun n => { n with readyEdges := .both }) live).modFe five
          fun f => { f with readings := { f.readings with deviceReady := true } } with
        port := { live.port with sampled := some 0 } };
      (s.signalNotices five ⟨false, true, false, false⟩).length = 1 ∧ (s.fe five).latch = false ∧
        (s.fe five).contrary + 1 < (s.cfg five).settle) ∧
      ((fading.ctl five).state.present = true ∧ (fading.fe five).latch = false ∧ (fading.fe five).view = true ∧
        (fading.cfg five).settle ≤ (fading.fe five).contrary + 1 ∧
        readPins (fading.cfg five) pinsDown[five] = ⟨false, true, false, false⟩ ∧
        rawPresence (fading.cfg five).source ⟨false, true, false, false⟩ = false) ∧
      (let s := (lineIn .dark).modFe five fun f => { f with view := false, contrary := 249 };
        (s.ctl five).state = .dark ∧ (s.fe five).latch = false ∧ (s.fe five).view = false ∧
          (s.cfg five).settle ≤ (s.fe five).contrary + 1 ∧
          rawPresence (s.cfg five).source (readPins (s.cfg five) pinsUp[five]) = true ∧ s.chosen five = .live) ∧
      ((latched.ctl five).state = .dark ∧ (latched.fe five).latch = true ∧
        rawPresence (latched.cfg five).source (readPins (latched.cfg five) pinsUp[five]) = true ∧
        (readPins (latched.cfg five) pinsUp[five]).mark = true ∧ (latched.cfg five).settle ≤ (latched.fe five).highRun + 1) := by
  decide

theorem test_recovery_from_space_hold_brings_the_line_up :
    look (exec (.sample (at' 48000) pinsUp) latched) (fun t => ((t.ctl five).state, (t.fe five).latch, (t.cap five).nextRecord)) =
      some (.live, false, 3) := by decide +kernel

/-- Line 1's window timer runs out in channel 1, with lines 5 and 6 on the wait list and no channel given at that tick. -/
theorem witness_WindowsLockFailOrGoOn_timeout :
    let a := waiting.arrive (at' 96000000);
    a.regionsInside = true ∧ a.channelOf 0 = some 0 ∧ a.rate.channels[(0 : Fin 4)] = some (Channel.awaiting 0 0) ∧
      (Channel.awaiting 0 0).timer ≤ a.now ∧ (Channel.awaiting 0 0).complete = false ∧ a.rate.wait = [4, 5] ∧
      (∀ m : Fin 4, a.rate.channels[m].isSome = true) ∧ ∀ j : LineIx, a.rate.granted[j] ≠ some a.now := by decide +kernel

theorem witness_WindowsLockFailOrGoOn :
    (let a := (measured .seeking agreeing).arrive (at' 9);
      a.regionsInside = true ∧ a.channelOf five = some 1 ∧ a.rate.channels[(1 : Fin 4)] = some agreeing ∧
        agreeing.complete = true ∧ windowResult (a.cfg five).mask (a.cfg five).tolerance agreeing.current = .entry 12 ∧
        agreeing.previous = some (.entry 12) ∧ a.now < agreeing.timer) ∧
      (5 ≤ { agreeing with evaluated := 5, previous := some .noCandidate }.evaluated ∧
        { agreeing with evaluated := 5, previous := some .noCandidate }.previous ≠ some (.entry 12)) ∧
      (Channel.awaiting five 0).complete = false ∧
      (let a := (measured .seeking (Channel.awaiting five 0)).arrive (at' 96000000);
        a.channelOf five = some 1 ∧ (Channel.awaiting five 0).timer ≤ a.now ∧ (Channel.awaiting five 0).complete = false) ∧
      { agreeing with timer := 5 }.complete = true ∧
      (let a := (measured .checking agreeing).arrive (at' 9);
        (a.ctl five).state = .checking ∧ a.channelOf five = some 1 ∧
          lockAgrees (a.cfg five).rateMode (a.cfg five).tolerance 5000 411 = false ∧
          lockAgrees (a.cfg five).rateMode (a.cfg five).tolerance 411 411 = true) := by decide

/-- HOLD_INPUT on a line that is OFF: the answered number, the code, the detail and the reasons, 8 before, change, and the
version rises by 2 (R176, R200). -/
theorem witness_StatusFollowsTheState_exec :
    look (exec (.holdInput ⟨late, false⟩ five) (asked kindHoldInput [] running)) (fun t =>
      (t.port.regions, decide ((⟨0xA0, 1, 9⟩ : StatusField) ∈ t.statusFields (entryOf five)), t.mem.slice 0x40A80 16,
        t.mem.slice 0x40AA0 1)) =
      some (some theRegions, true, [2, 0, 0, 0, 7, 0, 0, 0, 1, 0, 0, 0, 9, 0, 0, 0], [9]) ∧
      (asked kindHoldInput [] running).mem.wf ∧
      (⟨0xA0, 1, 9⟩ : StatusField) ∉ ((asked kindHoldInput [] running).arrive late).statusFields (entryOf five) := by
  decide +kernel

end Sys2Proof.Tests
end

section
/-! PROOFS. Line timing and rate arithmetic: the acceptance test (R12) and a lock of a CHECKING line (R16). -/

namespace Sys2Proof.Machine

/-! ## Distances, the clamp and the tests made of them -/

theorem distance_eq_natAbs (a b : Nat) : distance a b = ((a : Int) - b).natAbs := by
  unfold distance; omega

theorem clamp_eq_ite {low high : Nat} (h : low ≤ high) (n : Nat) :
    clamp low high n = if n < low then low else if high < n then high else n := by
  unfold clamp; split_ifs <;> omega

theorem accepted_iff (tolerance pt m : Nat) :
    accepted tolerance pt m = true ↔ ((m : Int) - pt).natAbs * 1000 ≤ tolerance * pt := by
  simp [accepted, distance_eq_natAbs]

theorem lockAgrees_autoSnap (tolerance current proposed : Nat) :
    lockAgrees .autoSnap tolerance current proposed = true ↔ proposed = current := by
  simp [lockAgrees]

theorem lockAgrees_autoTrim (tolerance current proposed : Nat) :
    lockAgrees .autoTrim tolerance current proposed = true ↔
      ((proposed : Int) - current).natAbs * 1000 ≤ tolerance * current := by
  simp [lockAgrees, distance_eq_natAbs]

/-! ## The tolerance a settings record gives -/

/-- A computation that answers has a first part that answers, and the rest answers on its value. -/
theorem ok_of_bind {ε α β : Type} {x : Except ε α} {f : α → Except ε β} {b : β} (h : (x >>= f) = .ok b) :
    ∃ a, x = .ok a ∧ f a = .ok b := by
  cases x with
  | error e => cases h
  | ok a => exact ⟨a, rfl, h⟩

/-- Row 4 of R43 takes T clamped to 5 to 100; the sixteen rows that can refuse a record do not read it. -/
theorem parseSettings_tolerance {b : List Byte} {n : Settings} (h : parseSettings b = .ok n) :
    n.tolerance = clamp 5 100 (byteAt b 0x0A) := by
  unfold parseSettings at h
  iterate 16 replace ⟨_, _, h⟩ := ok_of_bind h
  cases h
  rfl

/-- Settles O18: the three parts are the test by distance, row 4 of R43, and the bound 16,680 of R12's example. -/
theorem acceptanceTest : Obligations.AcceptanceTest := by
  refine ⟨accepted_iff, fun b n h => ?_, fun m => ?_⟩
  · rw [parseSettings_tolerance h, clamp_eq_ite (by decide)]
  · rw [accepted_iff]; omega

/-! ## What the parts of a lock make of a line's control -/

section
variable (k : LineIx) (s : State)

@[simp] theorem enterState_ctl_self (state : LineState) :
    (enterState k state s).ctl k = { s.ctl k with state := state } := by
  simp [enterState]

@[simp] theorem setPeriod_ctl_self (p : Nat) (cause : LockCause) :
    (setPeriod k p cause s).ctl k = { s.ctl k with period := p, lockCause := cause } := by
  simp [setPeriod, (record_recorded k _ _).ctl k]

@[simp] theorem rememberLock_ctl_self :
    (rememberLock k s).ctl k = { s.ctl k with remembered := some (s.ctl k).period } := by
  simp [rememberLock]

@[simp] theorem emptyHistory_ctl_self :
    (emptyHistory k s).ctl k = { s.ctl k with windowChars := 0, windowErrors := 0, history := [] } := by
  simp [emptyHistory]

@[simp] theorem rateChanged_ctl (j : LineIx) : (rateChanged k s).ctl j = s.ctl j := rfl

@[simp] theorem closeOpen_ctl (cause : CloseCause) (j : LineIx) : (closeOpen k cause s).ctl j = s.ctl j :=
  (closeOpen_recorded k s cause).ctl j

@[simp] theorem tellLocked_ctl (outcome : Nat) (j : LineIx) : (tellLocked k outcome s).ctl j = s.ctl j :=
  (tellLocked_recorded k s outcome).ctl j

end

/-! ## A lock of a CHECKING line -/

section
variable {k : LineIx} {s : State} {proposed : Nat} (checking : (s.ctl k).state = .checking)
include checking

/-- A lock that agrees brings the line to LIVE and remembers the period in force, which stays (R52). -/
theorem lockLine_ctl_of_agrees
    (agrees : lockAgrees (s.cfg k).rateMode (s.cfg k).tolerance (s.ctl k).period proposed = true) :
    (lockLine k proposed s).ctl k = { s.ctl k with state := .live, remembered := some (s.ctl k).period } := by
  simp [lockLine, checking, agrees]

/-- A lock that does not agree brings the line to LIVE at the proposed period, with its error history empty (R52). -/
theorem lockLine_ctl_of_not_agrees
    (agrees : ¬lockAgrees (s.cfg k).rateMode (s.cfg k).tolerance (s.ctl k).period proposed = true) :
    (lockLine k proposed s).ctl k =
      { s.ctl k with
        state := .live, period := proposed, lockCause := .changed, remembered := some proposed
        windowChars := 0, windowErrors := 0, history := [] } := by
  simp [lockLine, checking, agrees]

theorem lockLine_period_of_checking :
    ((lockLine k proposed s).ctl k).period =
      if lockAgrees (s.cfg k).rateMode (s.cfg k).tolerance (s.ctl k).period proposed = true
      then (s.ctl k).period else proposed := by
  split
  case isTrue agrees => rw [lockLine_ctl_of_agrees checking agrees]
  case isFalse agrees => rw [lockLine_ctl_of_not_agrees checking agrees]

end

/-- Settles O21, from the period after a lock of a CHECKING line and what agreement means in each AUTO mode. -/
theorem lockOfCheckingLine : Obligations.LockOfCheckingLine := by
  rintro s k proposed current checking rfl
  refine ⟨fun mode => ?snap, fun mode => ?trim⟩
  case snap => simp only [lockLine_period_of_checking checking, mode, lockAgrees_autoSnap]
  case trim => simp only [lockLine_period_of_checking checking, mode, lockAgrees_autoTrim]

end Sys2Proof.Machine
end

section
/-! PROOFS. HOST_LINK_RESET (R183): its act on the state its event meets, and the prompt set it leaves. -/

namespace Sys2Proof.Machine

/-- HOST_LINK_RESET is refused nowhere and publishes nothing: its act on the arrived state is all it does. -/
theorem exec_hostLinkReset (e : Event) (s : State) :
    exec (.hostLinkReset e) s = .next (actOf (.hostLinkReset e) (s.arrive e)) := rfl

@[simp] theorem actOf_hostLinkReset_prompts (e : Event) (t : State) (i : EntryIx) :
    (actOf (.hostLinkReset e) t).port.prompts[i] = false :=
  Vector.getElem_replicate i.isLt

/-- Settles O3: the act names the two fields it changes, on the state the event meets. -/
theorem hostLinkResetClearsTwoThings : Obligations.HostLinkResetClearsTwoThings := by
  rintro e s a rfl
  exact ⟨_, exec_hostLinkReset e s, actOf_hostLinkReset_prompts e _, rfl⟩

end Sys2Proof.Machine
end
